-- ==== Sys2Proof/Word.lean ====
section
/-! DEFINITION. The two units of data of the block: 64-bit words and bytes (spec 00_scope.md R10, R11). -/

namespace Sys2Proof

/-- A word or a beat: an unsigned 64-bit integer (R10, R80). -/
abbrev Word := BitVec 64

/-- A byte (R11). -/
abbrev Byte := BitVec 8

end Sys2Proof
end

