-- ==== Sys2Proof/Syntax.lean ====
section
/-! DEFINITION. The commands of SSC-CMD version 1: one constructor of `Instr` for each row of
spec/opcode_table.json, operands as the header and the payload carry them (spec 30_encoding.md R81, R89, R105). -/

namespace Sys2Proof

/-- Which compressor a command selects: `FLG[0]`, 0 for the matrix and 1 for the table (R89, 10_state.md R39). -/
inductive Compressor where
  | matrix
  | table
  deriving DecidableEq, Repr

/-- The twelve legal opcodes (R89). -/
inductive Opcode where
  | nop | info | stat | mload | tderive | sload | init | reset | write | final | cload | crun
  deriving DecidableEq, Repr

/-- A command. `c` is the `CTX` field, `cnt` the `CNT` field, `w` the whole payload beat. A `CNT` above 8 and a `CTX`
that names no context are operands the encoding admits; the command raises on them (R84). -/
inductive Instr where
  | nop
  | info
  | stat (c : BitVec 8)
  | mload (w : Word)
  | tderive
  | sload (c : BitVec 8) (cnt : BitVec 4) (w : Word)
  | init (c : BitVec 8) (csel : Compressor) (salted : Bool)
  | reset (c : BitVec 8)
  | write (c : BitVec 8) (cnt : BitVec 4) (w : Word)
  | final (c : BitVec 8)
  | cload (cnt : BitVec 4) (w : Word)
  | crun (csel : Compressor)
  deriving DecidableEq, Repr

end Sys2Proof
end

