-- ==== Sys2Proof/Decode.lean ====
section
/-! DEFINITION. From beats to commands and back (spec 30_encoding.md R80 to R84, R89, R91, R105). The decoder is total
on any beats and rejects by name; the encoder stands after it. -/

namespace Sys2Proof

/-! ### The opcode map (R89) -/

/-- The `OPC` value of an opcode (R89). -/
def Opcode.byte : Opcode → Byte
  | .nop => 0x00#8
  | .info => 0x01#8
  | .stat => 0x02#8
  | .mload => 0x10#8
  | .tderive => 0x11#8
  | .sload => 0x20#8
  | .init => 0x21#8
  | .reset => 0x22#8
  | .write => 0x23#8
  | .final => 0x24#8
  | .cload => 0x30#8
  | .crun => 0x31#8

/-- All twelve opcodes, in the table's order (R89). -/
def Opcode.all : List Opcode :=
  [.nop, .info, .stat, .mload, .tderive, .sload, .init, .reset, .write, .final, .cload, .crun]

/-- The opcode an `OPC` value stands for; none for the 244 illegal values (R91). -/
def Opcode.ofByte (b : Byte) : Option Opcode := Opcode.all.find? fun op => op.byte == b

/-- The "payload" column of R89 (R82). -/
def Opcode.hasPayload : Opcode → Bool
  | .mload | .sload | .write | .cload => true
  | .nop | .info | .stat | .tderive | .init | .reset | .final | .crun => false

/-- The "data" column of R89: `CNT` carries a byte count. -/
def Opcode.isData : Opcode → Bool
  | .sload | .write | .cload => true
  | .nop | .info | .stat | .mload | .tderive | .init | .reset | .final | .crun => false

/-- The "ctx" column of R89: `CTX` names a context. -/
def Opcode.isCtx : Opcode → Bool
  | .stat | .sload | .init | .reset | .write | .final => true
  | .nop | .info | .mload | .tderive | .cload | .crun => false

/-- The "defined FLG bits" column of R89. -/
def Opcode.definedFlags : Opcode → BitVec 4
  | .init => 0b0011#4
  | .crun => 0b0001#4
  | .nop | .info | .stat | .mload | .tderive | .sload | .reset | .write | .final | .cload => 0#4

/-- The commands that still execute while `FATAL = 1` (R100 step 2). -/
def Opcode.isStatus : Opcode → Bool
  | .nop | .info | .stat => true
  | .mload | .tderive | .sload | .init | .reset | .write | .final | .cload | .crun => false

/-! ### Header fields (R81) -/

/-- `OPC = H[7:0]`. -/
def headerOpc (h : Word) : Byte := h.extractLsb' 0 8

/-- `CNT = H[11:8]`. -/
def headerCnt (h : Word) : BitVec 4 := h.extractLsb' 8 4

/-- `FLG = H[15:12]`. -/
def headerFlg (h : Word) : BitVec 4 := h.extractLsb' 12 4

/-- `CTX = H[23:16]`. -/
def headerCtx (h : Word) : BitVec 8 := h.extractLsb' 16 8

/-- `RSV = H[63:24]`. -/
def headerRsv (h : Word) : BitVec 40 := h.extractLsb' 24 40

/-- Whether a payload beat follows this header: `OPC` alone decides, and an illegal opcode has none (R80, R82). -/
def headerHasPayload (h : Word) : Bool :=
  match Opcode.ofByte (headerOpc h) with
  | some op => op.hasPayload
  | none => false

/-- Step 3 of R100: a reserved or undefined header bit is 1, or a field the opcode does not use is not 0 (R84). -/
def reservedSet (op : Opcode) (h : Word) : Bool :=
  headerRsv h != 0#40 || (headerFlg h &&& ~~~op.definedFlags) != 0#4
    || (!op.isData && headerCnt h != 0#4) || (!op.isCtx && headerCtx h != 0#8)

/-! ### The decoder -/

/-- Why a header is no command (R84). -/
inductive HeaderError where
  /-- `OPC` is not in the map (R91). -/
  | illegalOpcode
  /-- A reserved or undefined bit is 1 (R84). -/
  | reservedBits
  deriving DecidableEq, Repr

/-- Why a list of beats gives no command. -/
inductive DecodeError where
  /-- There is no beat. -/
  | noHeader
  /-- The header's payload beat is missing. -/
  | noPayload
  /-- The header is rejected. -/
  | header (e : HeaderError)
  deriving DecidableEq, Repr

/-- `FLG[0]` as a compressor (R89). -/
def selectOf (b : Bool) : Compressor := if b then .table else .matrix

/-- The command of a header whose reserved bits are clear, and of its payload (R89, R81). -/
def assemble (op : Opcode) (h w : Word) : Instr :=
  match op with
  | .nop => .nop
  | .info => .info
  | .stat => .stat (headerCtx h)
  | .mload => .mload w
  | .tderive => .tderive
  | .sload => .sload (headerCtx h) (headerCnt h) w
  | .init => .init (headerCtx h) (selectOf ((headerFlg h).getLsbD 0)) ((headerFlg h).getLsbD 1)
  | .reset => .reset (headerCtx h)
  | .write => .write (headerCtx h) (headerCnt h) w
  | .final => .final (headerCtx h)
  | .cload => .cload (headerCnt h) w
  | .crun => .crun (selectOf ((headerFlg h).getLsbD 0))

/-- The command of a header `h` and a payload `w` (which counts only where the opcode has one): R100 steps 1 and 3. -/
def decodeFrame (h w : Word) : Except HeaderError Instr :=
  match Opcode.ofByte (headerOpc h) with
  | none => .error .illegalOpcode
  | some op => if reservedSet op h then .error .reservedBits else .ok (assemble op h w)

/-- The first whole command in a list of beats: its header, its payload (0 where it has none) and the beats after it.
None while the header, or the payload the header asks for, has not arrived (R80, R82). -/
def nextFrame : List Word → Option (Word × Word × List Word)
  | [] => none
  | h :: rest =>
    if headerHasPayload h then
      match rest with
      | [] => none
      | w :: rest' => some (h, w, rest')
    else some (h, 0#64, rest)

/-- The first command of a list of beats and the beats after it, or the reason there is none. -/
def decode (beats : List Word) : Except DecodeError (Instr × List Word) :=
  match nextFrame beats with
  | none => .error (if beats.isEmpty then .noHeader else .noPayload)
  | some (h, w, rest) =>
    match decodeFrame h w with
    | .ok i => .ok (i, rest)
    | .error e => .error (.header e)

/-! ### The encoder -/

/-- The opcode of a command. -/
def Instr.opcode : Instr → Opcode
  | .nop => .nop
  | .info => .info
  | .stat _ => .stat
  | .mload _ => .mload
  | .tderive => .tderive
  | .sload _ _ _ => .sload
  | .init _ _ _ => .init
  | .reset _ => .reset
  | .write _ _ _ => .write
  | .final _ => .final
  | .cload _ _ => .cload
  | .crun _ => .crun

/-- The `FLG[0]` bit of a compressor (R89). -/
def Compressor.bit : Compressor → Bool
  | .matrix => false
  | .table => true

/-- The header `OPC | CNT << 8 | FLG << 12 | CTX << 16` (R105). -/
def packHeader (opc : Byte) (cnt flg : BitVec 4) (c : BitVec 8) : Word :=
  opc.setWidth 64 ||| (cnt.setWidth 64 <<< 8) ||| (flg.setWidth 64 <<< 12) ||| (c.setWidth 64 <<< 16)

/-- The `FLG` field `SALTED, CSEL` (R89). -/
def packFlags (csel : Compressor) (salted : Bool) : BitVec 4 :=
  (BitVec.ofBool csel.bit).setWidth 4 ||| ((BitVec.ofBool salted).setWidth 4 <<< 1)

/-- The header beat of a command (R89, R105). -/
def encodeHeader : Instr → Word
  | .nop => packHeader Opcode.nop.byte 0 0 0
  | .info => packHeader Opcode.info.byte 0 0 0
  | .stat c => packHeader Opcode.stat.byte 0 0 c
  | .mload _ => packHeader Opcode.mload.byte 0 0 0
  | .tderive => packHeader Opcode.tderive.byte 0 0 0
  | .sload c cnt _ => packHeader Opcode.sload.byte cnt 0 c
  | .init c csel salted => packHeader Opcode.init.byte 0 (packFlags csel salted) c
  | .reset c => packHeader Opcode.reset.byte 0 0 c
  | .write c cnt _ => packHeader Opcode.write.byte cnt 0 c
  | .final c => packHeader Opcode.final.byte 0 0 c
  | .cload cnt _ => packHeader Opcode.cload.byte cnt 0 0
  | .crun csel => packHeader Opcode.crun.byte 0 (packFlags csel false) 0

/-- The payload beat of a command, where it has one (R82, R83). -/
def payloadOf : Instr → Option Word
  | .mload w => some w
  | .sload _ _ w => some w
  | .write _ _ w => some w
  | .cload _ w => some w
  | .nop => none
  | .info => none
  | .stat _ => none
  | .tderive => none
  | .init _ _ _ => none
  | .reset _ => none
  | .final _ => none
  | .crun _ => none

/-- The beats of a command (R80). -/
def encode (i : Instr) : List Word := encodeHeader i :: (payloadOf i).toList

/-! ### The host's view of one table row -/

/-- The beats of an instruction numbered as the table numbers it: the first beat is bits 63..0, the second bits
127..64; every bit at or above `nbits` is 0. A second beat is laid out only where the header has one (R82). -/
def beatsOfTableWord (nbits w : Nat) : List Word :=
  let v := w % 2 ^ nbits
  let h := BitVec.ofNat 64 v
  h :: (if headerHasPayload h then [BitVec.ofNat 64 (v / 2 ^ 64)] else [])

/-- The instruction the decoder reads from those beats. -/
def decodeTableWord (nbits w : Nat) : Option Instr :=
  match decode (beatsOfTableWord nbits w) with
  | .ok (i, _) => some i
  | .error _ => none

end Sys2Proof
end

