-- ==== Sys2Proof/Config.lean ====
section
/-! DEFINITION. What an implementation fixes: the instance parameters (spec 00_scope.md R7 to R9), and the
values the spec leaves open, as constants with no body. -/

namespace Sys2Proof

/-- The parameters an instance fixes at build time (R7; `RESP_DEPTH`: 10_state.md R32). -/
structure Params where
  /-- `N_ROWS`: matrix rows, the number of output words. -/
  nRows : Nat
  /-- `M_COLS`: matrix columns, the number of input bits. -/
  mCols : Nat
  /-- `N_CTX`: digest contexts. -/
  nCtx : Nat
  /-- `RESP_DEPTH`: capacity of the response queue, in beats. -/
  respDepth : Nat
  deriving DecidableEq, Repr

/-- `IL = M_COLS / 8`: the compressor's input length in bytes (R7). -/
def Params.inputLen (p : Params) : Nat := p.mCols / 8

/-- `OL = 8 * N_ROWS`: the output length in bytes (R7). -/
def Params.outputLen (p : Params) : Nat := 8 * p.nRows

/-- `BS = IL - OL`: the block size in bytes (R7). -/
def Params.blockSize (p : Params) : Nat := p.inputLen - p.outputLen

/-- `P = BS - 16`: the padding target (R7). -/
def Params.padTarget (p : Params) : Nat := p.blockSize - 16

/-- `N_ROWS * M_COLS`: how many words the matrix holds (R25). -/
def Params.matrixWords (p : Params) : Nat := p.nRows * p.mCols

/-- An instance that can be built: R8, with the legal values of `N_CTX` (R7) and the least `RESP_DEPTH`
(70_reset_and_hazards.md R272). -/
abbrev Params.Buildable (p : Params) : Prop :=
  p.mCols % 8 = 0 ∧ 1 ≤ p.nRows ∧ 16 ≤ p.blockSize ∧ 1 ≤ p.nCtx ∧ p.nCtx ≤ 256 ∧ 1 + p.nRows ≤ p.respDepth

/-- The Sumhash512 instance (R9) with the default `N_CTX` (R7).
DESIGN CHOICE (log 2): `RESP_DEPTH` is open; 9 beats is the least that R272 allows. Safe for statements over all
instances, unsafe for one that rests on the 9. -/
def Params.sumhash512 : Params := { nRows := 8, mCols := 1024, nCtx := 1, respDepth := 9 }

/-- `LEN_LIMIT_BITS`: the limit on the tracked bit length (R7). -/
def lenLimitBits : Nat := 2 ^ 61

/-- What a response field of `w` bits holds when the number `v` does not fit it: the spec states no value.
A free value (log 9, DESIGN CHOICE, safe). -/
opaque Config.overwide (w v : Nat) : BitVec w

/-- `LAT_<mnemonic>`: the time from a command's acceptance to its response. Open, but R275 says what it may depend
on: the parameters, the header, the `CARRY_LEN` of the context the command names (none for a command that names no
context), and whether the command raises. Nothing in the machine reads it (R276; log 13). -/
opaque Config.latency (p : Params) (header : Word) (carryLen : Option Nat) (raises : Bool) : Nat

/-- `SSC_BASE`: where the channels sit in a host's address space. Open; no rule reads it (20_memory.md R71; log 16). -/
opaque Config.sscBase : Nat

end Sys2Proof
end

