-- ==== Sys2Proof/Machine/Operands.lean ====
section
/-! DEFINITION. Operand forms and byte order (spec 00_scope.md R11, R12, 20_memory.md R60 to R65, 30_encoding.md R83).
Every multi-byte quantity is little-endian. -/

namespace Sys2Proof.Machine

/-- Byte `t` of a word: `w[8t+7:8t]` (R64). -/
def byteOf (w : Word) (t : Nat) : Byte := w.extractLsb' (8 * t) 8

/-- `LE64(w)`: the eight bytes of a word, least significant first (R11). -/
def le64 (w : Word) : List Byte := (List.range 8).map (byteOf w)

/-- `W64(s)`: the sum of `s[t] << 8t` (R11). -/
def w64 : List Byte → Word
  | [] => 0#64
  | b :: bs => b.setWidth 64 ||| (w64 bs <<< 8)

/-- The byte string of a data command: the `CNT` low bytes of the payload; the bits above are ignored (R83). -/
def payloadBytes (cnt : BitVec 4) (w : Word) : List Byte := (List.range cnt.toNat).map (byteOf w)

/-- `zeros(k)` (R11). -/
def zeros (k : Nat) : List Byte := List.replicate k 0#8

/-- The output bytes of a compression: `out[8i..8i+8) = LE64(acc_i)` (R62). -/
def bytesOfWords (ws : List Word) : List Byte := ws.flatMap le64

/-- The `n` words of a byte string: word `i` is `W64(s[8i..8i+8))` (R64, 10_state.md R43). -/
def wordsOfBytes : Nat → List Byte → List Word
  | 0, _ => []
  | n + 1, s => w64 (s.take 8) :: wordsOfBytes n (s.drop 8)

/-- `bit(b, k)`: bit `k` of a byte, 0 the least significant (R11, R61). -/
def bitOf (b : Byte) (k : Nat) : BitVec 1 := b.extractLsb' k 1

/-- `mask64(k) = (0 - k) mod 2^64`: all zeros or all ones (R12). -/
def mask64 (k : BitVec 1) : Word := 0#64 - k.setWidth 64

/-- `s XOR t` on byte strings (R11). -/
def xorBytes (s t : List Byte) : List Byte := List.zipWith (· ^^^ ·) s t

/-- A number in a response field of `w` bits. Where it does not fit, the spec states no value (log 9). -/
def fieldOf (w v : Nat) : BitVec w := if v < 2 ^ w then BitVec.ofNat w v else Config.overwide w v

end Sys2Proof.Machine
end

