-- ==== Sys2Proof/Machine/State.lean ====
section
/-! DEFINITION. The state of the block (spec 10_state.md), as plain data, its power-on value, and the names of what can
stop a step. -/

namespace Sys2Proof.Machine

/-- A memory or byte buffer of the block: (index, value) pairs, indices strictly rising. An index that is not listed
holds no value (10_state.md R54; log 3). A byte buffer is a `Mem Byte`, a list of `Host.Cell`. -/
abbrev Mem (α : Type) := List (Nat × α)

/-- `PHASE[c]` (10_state.md R46). The value 3 is never held, so it has no constructor. -/
inductive Phase where
  | unbound
  | fresh
  | accumulating
  deriving DecidableEq, Repr

/-- The context view of 42_streaming_engine.md R161: what the write path and `FINAL`'s private copy act on. -/
structure View where
  /-- `CHAIN`, `OL` bytes (10_state.md R43). -/
  chain : Mem Byte
  /-- `CARRY`, the bytes below `CARRY_LEN` (10_state.md R44; log 10). -/
  carry : Mem Byte
  /-- `CARRY_LEN` (10_state.md R44). -/
  carryLen : Nat
  /-- `TOTAL_LEN` (10_state.md R45). -/
  totalLen : BitVec 64
  /-- `SALTED` (10_state.md R40). -/
  salted : Bool
  /-- `SALT`, `BS` bytes (10_state.md R42). -/
  salt : Mem Byte
  /-- `CSEL` (10_state.md R39). -/
  csel : Compressor
  deriving DecidableEq, Repr

/-- The private state of one context (10_state.md R37). -/
structure Context where
  /-- `BOUND[c]` (10_state.md R38). -/
  bound : Bool
  /-- `PHASE[c]` (10_state.md R46). -/
  phase : Phase
  /-- `SALT_STAGE[c]` (10_state.md R41). -/
  saltStage : Mem Byte
  /-- `SALT_CNT[c]` (10_state.md R41). -/
  saltCnt : Nat
  /-- The part the streaming procedures act on (42_streaming_engine.md R161). -/
  view : View
  deriving DecidableEq, Repr

/-- Who moves next, and with what (00_scope.md R19, 70_reset_and_hazards.md R278; log 6). The model's own. -/
inductive Turn where
  /-- The block's sequencer tries to execute one command. -/
  | block
  /-- The host sends one beat on the command channel. -/
  | send (w : Word)
  /-- The host takes the head beat of `RESPQ`. -/
  | take
  /-- Power-on reset (70_reset_and_hazards.md R260). -/
  | powerOn
  deriving DecidableEq, Repr

/-- The state of the block and of its two channels. -/
structure State where
  /-- The instance's parameters: no step changes them (00_scope.md R7; log 1). -/
  params : Params
  /-- `FATAL` (10_state.md R23). -/
  fatal : Bool
  /-- `ERRCODE` (10_state.md R24). -/
  errcode : Byte
  /-- `ERROPC` (10_state.md R24). -/
  erropc : Byte
  /-- `MPTR` (10_state.md R25). -/
  mptr : Nat
  /-- `A`: `A[i][j]` stands at index `i * M_COLS + j` (10_state.md R27). -/
  a : Mem Word
  /-- `TABLE_VALID` (10_state.md R30). -/
  tableValid : Bool
  /-- `T`: `T[i][g][b]` stands at index `(i * IL + g) * 256 + b` (10_state.md R29). -/
  t : Mem Word
  /-- `SRC` (10_state.md R31). -/
  src : Mem Byte
  /-- `SRC_CNT` (10_state.md R31). -/
  srcCnt : Nat
  /-- `RESPQ`: beats not yet taken, oldest first (10_state.md R32). -/
  respq : List Word
  /-- `CTX[0 .. N_CTX-1]` (10_state.md R22). -/
  ctx : List Context
  /-- The command channel: beats sent and not yet consumed, oldest first (70_reset_and_hazards.md R260; log 7). -/
  cmdq : List Word
  /-- The turns to come; when none is listed the sequencer moves (log 6). -/
  turns : List Turn
  /-- The beats the host has taken, oldest first: the host's side (70_reset_and_hazards.md R278; log 6). -/
  received : List Word
  deriving DecidableEq, Repr

/-- The places that can hold no value (10_state.md R54). -/
inductive Store where
  | matrix | table | src | saltStage | salt | chain | carry
  deriving DecidableEq, Repr

/-- What makes the machine stop with a fault. -/
inductive Fault where
  /-- Raised by the read of an element that holds no value ("nothing a model may read", 10_state.md R54). Safe: no
  state reached from reset meets it, and where the block would read something the model stops (log 3). -/
  | noValue (place : Store)
  deriving DecidableEq, Repr

/-- What makes the machine refuse. -/
inductive Refusal where
  /-- Raised by `exec` for an instruction with no meaning yet. Safe. No arm raises it. -/
  | notModelled (mnemonic : String)
  /-- Raised by `step` for parameters of no instance that can be built (00_scope.md R8). Safe: no such block exists. -/
  | notBuildable
  deriving DecidableEq, Repr

/-- The view of a context after power-on reset (10_state.md R54). -/
def View.powerOn : View :=
  { chain := [], carry := [], carryLen := 0, totalLen := 0#64, salted := false, salt := [], csel := .matrix }

/-- A context after power-on reset (10_state.md R54). -/
def Context.powerOn : Context :=
  { bound := false, phase := .unbound, saltStage := [], saltCnt := 0, view := View.powerOn }

/-- The power-on state of an instance (10_state.md R54, 70_reset_and_hazards.md R260). -/
def State.powerOn (p : Params) : State :=
  { params := p, fatal := false, errcode := 0#8, erropc := 0#8, mptr := 0, a := [], tableValid := false, t := [],
    src := [], srcCnt := 0, respq := [], ctx := List.replicate p.nCtx Context.powerOn, cmdq := [], turns := [],
    received := [] }

/-- The machine right after reset: the power-on state of the Sumhash512 instance (R9, R54; log 1, log 2). -/
def State.reset : State := State.powerOn Params.sumhash512

end Sys2Proof.Machine
end

