-- ==== Sys2Proof/Machine/Flags.lean ====
section
/-! DEFINITION. The flags, the status codes and the status words (spec 10_state.md R26, R28, 30_encoding.md R95,
43_control.md R205, 60_exceptions.md R222). -/

namespace Sys2Proof.Machine

/-- The status of a response (60_exceptions.md R222). No other value is ever produced. -/
inductive Status where
  | ok | errLength | errFatalState | errIllegal | errReserved | errCnt | errCtx | errNotReady | errMatrixFull
  | errSaltLen | errNotBound | errSrcLen | errInternal
  deriving DecidableEq, Repr

/-- The code of a status (60_exceptions.md R222). -/
def Status.code : Status → Byte
  | .ok => 0x00#8
  | .errLength => 0x01#8
  | .errFatalState => 0x80#8
  | .errIllegal => 0x81#8
  | .errReserved => 0x82#8
  | .errCnt => 0x83#8
  | .errCtx => 0x84#8
  | .errNotReady => 0x85#8
  | .errMatrixFull => 0x86#8
  | .errSaltLen => 0x87#8
  | .errNotBound => 0x88#8
  | .errSrcLen => 0x89#8
  | .errInternal => 0x8A#8

/-- The contract violations, codes 0x81 to 0x8A: the statuses that trap (60_exceptions.md R220, R222). -/
def Status.isContract : Status → Bool
  | .ok | .errLength | .errFatalState => false
  | .errIllegal | .errReserved | .errCnt | .errCtx | .errNotReady | .errMatrixFull | .errSaltLen | .errNotBound
  | .errSrcLen | .errInternal => true

/-- `MATRIX_VALID`: not stored, `MPTR == N_ROWS*M_COLS` (10_state.md R26). -/
def matrixValid (s : State) : Bool := s.mptr == s.params.matrixWords

/-- Whether the selected compressor is ready: the matrix complete, or the table derived (40_matrix_compressor.md R118,
42_streaming_engine.md R163). -/
def compressorReady (s : State) : Compressor → Bool
  | .matrix => matrixValid s
  | .table => s.tableValid

/-- The two bits of `PHASE[c]` (10_state.md R46). -/
def Phase.code : Phase → BitVec 2
  | .unbound => 0#2
  | .fresh => 1#2
  | .accumulating => 2#2

/-- A flag at bit `k` of a word. -/
def flagAt (k : Nat) (b : Bool) : Word := (BitVec.ofBool b).setWidth 64 <<< k

/-- A status beat: `STATUS | ROPC << 8 | NDATA << 16`, zero above (30_encoding.md R95). -/
def statusBeat (st : Status) (ropc : Byte) (ndata : Nat) : Word :=
  st.code.setWidth 64 ||| (ropc.setWidth 64 <<< 8) ||| ((fieldOf 16 ndata).setWidth 64 <<< 16)

/-- `S0` of `STAT` (43_control.md R205). -/
def statWord0 (s : State) (k : Context) : Word :=
  flagAt 0 s.fatal ||| flagAt 1 (matrixValid s) ||| flagAt 2 s.tableValid ||| flagAt 3 k.bound
    ||| flagAt 4 k.view.csel.bit ||| flagAt 5 k.view.salted ||| (k.phase.code.setWidth 64 <<< 6)
    ||| (s.errcode.setWidth 64 <<< 8) ||| (s.erropc.setWidth 64 <<< 16)

/-- `S2` of `STAT`: `CARRY_LEN` below, `SALT_CNT` above (43_control.md R205). -/
def statWord2 (k : Context) : Word :=
  (fieldOf 32 k.view.carryLen).setWidth 64 ||| ((fieldOf 32 k.saltCnt).setWidth 64 <<< 32)

/-- `S3` of `STAT`: the low 32 bits of `MPTR` below, `SRC_CNT` above (43_control.md R205). -/
def statWord3 (s : State) : Word :=
  (BitVec.ofNat 32 s.mptr).setWidth 64 ||| ((fieldOf 32 s.srcCnt).setWidth 64 <<< 32)

/-- The four data words of `STAT` (43_control.md R205). -/
def statWords (s : State) (k : Context) : List Word := [statWord0 s k, k.view.totalLen, statWord2 k, statWord3 s]

/-- `NDATA`: the number of data words of a successful response (30_encoding.md R89). -/
def ndataOf (p : Params) : Opcode → Nat
  | .info | .stat => 4
  | .final | .crun => p.nRows
  | .nop | .mload | .tderive | .sload | .init | .reset | .write | .cload => 0

end Sys2Proof.Machine
end

