-- ==== Sys2Proof/Machine/Ops.lean ====
section
/-! DEFINITION. The shared operations: reads and writes of the memories, contexts, responses, the trap of a contract
violation, and the checks every command goes through (spec 30_encoding.md R95, R100, 60_exceptions.md R228 to R231). -/

namespace Sys2Proof.Machine

/-- What a step or a command answers. -/
abbrev Res := Host.Outcome State Fault Refusal

/-! ### Memories -/

/-- The value at index `k`, if it holds one. -/
def Mem.read {α : Type} : Mem α → Nat → Option α
  | [], _ => none
  | (i, v) :: m, k => if i = k then some v else Mem.read m k

/-- The value at index `k`; a fault where it holds none (10_state.md R54). -/
def Mem.fetch {α : Type} (m : Mem α) (place : Store) (k : Nat) : Except Fault α :=
  match m.read k with
  | some v => .ok v
  | none => .error (.noValue place)

/-- Writes index `k`, keeping the indices strictly rising. -/
def Mem.write {α : Type} : Mem α → Nat → α → Mem α
  | [], k, v => [(k, v)]
  | (i, u) :: m, k, v =>
    if k < i then (k, v) :: (i, u) :: m
    else if k = i then (k, v) :: m
    else (i, u) :: Mem.write m k v

/-- Writes a string of values at `lo, lo+1, …`. -/
def Mem.writeRange {α : Type} (m : Mem α) (lo : Nat) : List α → Mem α
  | [] => m
  | v :: vs => Mem.writeRange (m.write lo v) (lo + 1) vs

/-- The memory that holds exactly the string `vs`, from index `lo` on. -/
def Mem.fromList {α : Type} (lo : Nat) : List α → Mem α
  | [] => []
  | v :: vs => (lo, v) :: Mem.fromList (lo + 1) vs

/-- The memory that holds exactly the string `vs`, from index 0 on. -/
def Mem.ofList {α : Type} (vs : List α) : Mem α := Mem.fromList 0 vs

/-- Every answer of `f` over a list, or the first fault. -/
def collect {α β : Type} (f : α → Except Fault β) : List α → Except Fault (List β)
  | [] => .ok []
  | x :: xs => do
    let y ← f x
    let ys ← collect f xs
    return y :: ys

/-- The values at indices `lo .. lo+n-1`. -/
def Mem.readRange {α : Type} (m : Mem α) (place : Store) (lo n : Nat) : Except Fault (List α) :=
  collect (fun k => m.fetch place (lo + k)) (List.range n)

/-- The canonical form: indices strictly rising. (An unlisted index holds no value, so no entry can equal what an
unlisted index reads as.) -/
abbrev Mem.wf {α : Type} (m : Mem α) : Prop := List.Pairwise (· < ·) (m.map Prod.fst)

/-- Where `A[i][j]` stands (10_state.md R27). -/
def cellA (p : Params) (i j : Nat) : Nat := i * p.mCols + j

/-- Where `T[i][g][b]` stands (10_state.md R29). -/
def cellT (p : Params) (i g b : Nat) : Nat := (i * p.inputLen + g) * 256 + b

/-! ### Contexts -/

/-- Context `c`. Beyond the list (which no state that holds `N_CTX` contexts meets, log 18) the power-on one. -/
def ctxAt (s : State) (c : BitVec 8) : Context := s.ctx.getD c.toNat Context.powerOn

/-- Replaces context `c`. -/
def setCtx (s : State) (c : BitVec 8) (k : Context) : State := { s with ctx := s.ctx.set c.toNat k }

/-! ### Responses and the trap -/

/-- `respond(st, data)`: appends a status beat and the data words (30_encoding.md R95). -/
def respond (opc : Byte) (st : Status) (data : List Word) (s : State) : State :=
  { s with respq := s.respq ++ statusBeat st opc data.length :: data }

/-- TAKING A CONTRACT VIOLATION, `raise Fatal(code)` (60_exceptions.md R228): the sticky flag, the code and the opcode
are recorded and the code is the response. While `FATAL = 1` the record keeps the first violation (R231, R232; a
malformed NOP, INFO or STAT is the only command that comes here then: log 4, DEDUCED). No command returns from the
fatal state (R232): only `State.powerOn` clears it. -/
def raise (opc : Byte) (st : Status) (s : State) : State :=
  respond opc st [] (if s.fatal then s else { s with fatal := true, errcode := st.code, erropc := opc })

/-- A command refused because `FATAL = 1` (60_exceptions.md R231). -/
def refuseFatal (opc : Byte) (s : State) : State := respond opc .errFatalState [] s

/-- A header that is no command: steps 1 to 3 of R100 (30_encoding.md). -/
def rejectHeader (opc : Byte) (e : HeaderError) (s : State) : State :=
  match e with
  | .illegalOpcode => if s.fatal then refuseFatal opc s else raise opc .errIllegal s
  | .reservedBits =>
    if s.fatal && !((Opcode.ofByte opc).any Opcode.isStatus) then refuseFatal opc s else raise opc .errReserved s

/-- The checks of R100 (30_encoding.md) that a decoded command still has before it: step 2, the fatal state; step 4,
`CNT > 8` (for a command that has a count); step 5, `CTX >= N_CTX` (for a command that names a context). Then `body`,
step 7. -/
def fieldChecked (op : Opcode) (c : Option (BitVec 8)) (cnt : Option (BitVec 4)) (s : State) (body : Res) : Res :=
  if s.fatal && !op.isStatus then .next (refuseFatal op.byte s)
  else if cnt.any (fun n => decide (8 < n.toNat)) then .next (raise op.byte .errCnt s)
  else if c.any (fun k => decide (s.params.nCtx ≤ k.toNat)) then .next (raise op.byte .errCtx s)
  else body

/-- A contract violation as the outcome of a command's own check. -/
def violate (op : Opcode) (st : Status) (s : State) : Res := .next (raise op.byte st s)

/-- `respond(OK, data)` as the outcome of a command. -/
def complete (op : Opcode) (data : List Word) (s : State) : Res := .next (respond op.byte .ok data s)

/-- The outcome of a command whose body may read an element that holds no value. -/
def settle : Except Fault Res → Res
  | .ok r => r
  | .error f => .fault f

end Sys2Proof.Machine
end

