-- ==== Sys2Proof/Machine/Channel.lean ====
section
/-! DEFINITION. The command channel and the host's side (spec 30_encoding.md R82, R101, 70_reset_and_hazards.md R260,
R272, R278). -/

namespace Sys2Proof.Machine

/-- How many beats the whole response of a command with header `h` takes: `1 + NDATA`, with the `NDATA` of the opcode
map (R272, 30_encoding.md R89; log 5, DEDUCED); one beat for an illegal opcode. -/
def responseBeats (p : Params) (h : Word) : Nat :=
  match Opcode.ofByte (headerOpc h) with
  | some op => 1 + ndataOf p op
  | none => 1

/-- Whether `RESPQ` has room for that response (R272). -/
def hasRoom (s : State) (h : Word) : Bool :=
  decide (s.respq.length + responseBeats s.params h ≤ s.params.respDepth)

/-- What the sequencer finds when it looks at the channel. -/
def fetch (s : State) : Option (Word × Word × List Word) :=
  match nextFrame s.cmdq with
  | none => none
  | some (h, w, rest) => if hasRoom s h then some (h, w, rest) else none

/-- The host takes the head beat of `RESPQ` (R278); with none queued, nothing happens. -/
def takeBeat (s : State) : State :=
  match s.respq with
  | [] => s
  | b :: rest => { s with respq := rest, received := s.received ++ [b] }

/-- The host takes every queued beat. -/
def takeAll (s : State) : State := { s with respq := [], received := s.received ++ s.respq }

/-- Power-on reset: every piece of the block's state, and the beats in the command channel, go (R260, R261). What the
host will do and what it has taken are the host's (log 6, log 7). -/
def powerOnReset (s : State) : State :=
  { State.powerOn s.params with turns := s.turns, received := s.received }

/-- The host sends one beat (R278). -/
def sendBeat (w : Word) (s : State) : State := { s with cmdq := s.cmdq ++ [w] }

end Sys2Proof.Machine
end

