-- ==== Sys2Proof/Machine/Control.lean ====
section
/-! DEFINITION. Control and status commands: NOP, INFO, STAT (spec 43_control.md). -/

namespace Sys2Proof.Machine

/-- `NOP` (R201). -/
def execNop (s : State) : Res := fieldChecked .nop none none s (complete .nop [] s)

/-- The four data words of `INFO`: `OL, BS, N_ROWS, M_COLS` (R203). -/
def infoWords (p : Params) : List Word :=
  [fieldOf 64 p.outputLen, fieldOf 64 p.blockSize, fieldOf 64 p.nRows, fieldOf 64 p.mCols]

/-- `INFO` (R203). -/
def execInfo (s : State) : Res := fieldChecked .info none none s (complete .info (infoWords s.params) s)

/-- `STAT c` (R205). -/
def execStat (c : BitVec 8) (s : State) : Res :=
  fieldChecked .stat (some c) none s (complete .stat (statWords s (ctxAt s c)) s)

end Sys2Proof.Machine
end

