-- ==== Sys2Proof/Machine/Compressor.lean ====
section
/-! DEFINITION. The matrix compressor's datapath: the masked multiply-accumulate (spec 40_matrix_compressor.md R110,
R111, R115, R120). -/

namespace Sys2Proof.Machine

/-- `MaskedSelect(seg, b)`: the wrapping sum, over `k` in 0..7, of `seg[k] AND mask64(bit(b, k))` (R111). -/
def maskedSelect (seg : List Word) (b : Byte) : Word :=
  (seg.zipIdx.map fun wk => wk.1 &&& mask64 (bitOf b wk.2)).sum

/-- One row of `CompressA`, from accumulator `acc`: the eight columns from index `base` on for the first byte, the next
eight for the next byte, and so on (R115). -/
def rowSumA (a : Mem Word) : Nat → List Byte → Word → Except Fault Word
  | _, [], acc => .ok acc
  | base, b :: bs, acc => do
    let seg ← a.readRange .matrix base 8
    rowSumA a (base + 8) bs (acc + maskedSelect seg b)

/-- `CompressA(x)`: row `i` is the accumulated sum over every byte of `x` (R115). -/
def compressA (p : Params) (a : Mem Word) (x : List Byte) : Except Fault (List Word) :=
  collect (fun i => rowSumA a (cellA p i 0) x 0#64) (List.range p.nRows)

end Sys2Proof.Machine
end

