-- ==== Sys2Proof/Machine/Table.lean ====
section
/-! DEFINITION. The lookup-table accelerator: the derivation TDERIVE and the table compressor
(spec 41_lookup_table.md). -/

namespace Sys2Proof.Machine

/-- The 256 entries of row `i`, group `g`: entry `b` is `MaskedSelect(A[i][8g .. 8g+8), b)` (R141). -/
def deriveGroup (p : Params) (a : Mem Word) (i g : Nat) : Except Fault (Mem Word) := do
  let seg ← a.readRange .matrix (cellA p i (8 * g)) 8
  return (List.range 256).map fun b => (cellT p i g b, maskedSelect seg (BitVec.ofNat 8 b))

/-- The entries of row `i`, group after group (R141). -/
def deriveRow (p : Params) (a : Mem Word) (i : Nat) : Except Fault (Mem Word) := do
  let groups ← collect (deriveGroup p a i) (List.range p.inputLen)
  return groups.flatten

/-- The table of a matrix, row after row (R141). -/
def deriveTable (p : Params) (a : Mem Word) : Except Fault (Mem Word) := do
  let rows ← collect (deriveRow p a) (List.range p.nRows)
  return rows.flatten

/-- One row of `CompressT`, from accumulator `acc`: one table read for each byte (R142). -/
def rowSumT (t : Mem Word) : Nat → List Byte → Word → Except Fault Word
  | _, [], acc => .ok acc
  | base, b :: bs, acc => do
    let v ← t.fetch .table (base + b.toNat)
    rowSumT t (base + 256) bs (acc + v)

/-- `CompressT(x)` (R142). -/
def compressT (p : Params) (t : Mem Word) (x : List Byte) : Except Fault (List Word) :=
  collect (fun i => rowSumT t (cellT p i 0 0) x 0#64) (List.range p.nRows)

/-- `Compress(csel, x)`: 0 is the matrix compressor, 1 the table compressor (42_streaming_engine.md R166). -/
def compress (s : State) (csel : Compressor) (x : List Byte) : Except Fault (List Word) :=
  match csel with
  | .matrix => compressA s.params s.a x
  | .table => compressT s.params s.t x

/-- `TDERIVE` (R141). -/
def execTderive (s : State) : Res :=
  fieldChecked .tderive none none s <|
    if matrixValid s = false then violate .tderive .errNotReady s
    else settle do
      let t ← deriveTable s.params s.a
      return complete .tderive [] { s with t := t, tableValid := true }

end Sys2Proof.Machine
end

