-- ==== Sys2Proof/Machine/Matrix.lean ====
section
/-! DEFINITION. The matrix compressor's commands MLOAD, CLOAD and CRUN (spec 40_matrix_compressor.md). -/

namespace Sys2Proof.Machine

/-- `MLOAD w` (R112): the next matrix word, in row-major order (R113). -/
def execMload (w : Word) (s : State) : Res :=
  fieldChecked .mload none none s <|
    if s.mptr = s.params.matrixWords then violate .mload .errMatrixFull s
    else
      let k := cellA s.params (s.mptr / s.params.mCols) (s.mptr % s.params.mCols)
      complete .mload [] { s with a := s.a.write k w, mptr := s.mptr + 1 }

/-- `CLOAD cnt, w` (R117). -/
def execCload (cnt : BitVec 4) (w : Word) (s : State) : Res :=
  fieldChecked .cload none (some cnt) s <|
    if s.params.inputLen < s.srcCnt + cnt.toNat then violate .cload .errSrcLen s
    else
      complete .cload []
        { s with src := s.src.writeRange s.srcCnt (payloadBytes cnt w), srcCnt := s.srcCnt + cnt.toNat }

/-- `CRUN matrix|table` (R118). -/
def execCrun (csel : Compressor) (s : State) : Res :=
  fieldChecked .crun none none s <|
    if compressorReady s csel = false then violate .crun .errNotReady s
    else if s.srcCnt ≠ s.params.inputLen then violate .crun .errSrcLen s
    else settle do
      let x ← s.src.readRange .src 0 s.params.inputLen
      let acc ← compress s csel x
      return complete .crun acc { s with srcCnt := 0 }

end Sys2Proof.Machine
end

