-- ==== Sys2Proof/Machine/Streaming.lean ====
section
/-! DEFINITION. The streaming hash engine: block compression, the write path, padding, and the commands SLOAD, INIT,
RESET, WRITE and FINAL (spec 42_streaming_engine.md). -/

namespace Sys2Proof.Machine

/-- The block as the compressor sees it: XORed with the salt if there is one (R166). -/
def saltBlock (s : State) (v : View) (blk : List Byte) : Except Fault (List Byte) :=
  if v.salted then do
    let salt ← v.salt.readRange .salt 0 s.params.blockSize
    return xorBytes blk salt
  else .ok blk

/-- `Block(W, blk)`: compresses one block into the chain (R166). -/
def block (s : State) (v : View) (blk : List Byte) : Except Fault View := do
  let m ← saltBlock s v blk
  let chain ← v.chain.readRange .chain 0 s.params.outputLen
  let acc ← compress s v.csel (chain ++ m)
  return { v with chain := Mem.ofList (bytesOfWords acc) }

/-- The loop of R168: while a whole block is buffered, compress it; then the view and the bytes left over. The count
bounds the rounds; `|buf|` rounds are enough, since each takes `BS >= 16` bytes. -/
def absorb (s : State) : Nat → View → List Byte → Except Fault (View × List Byte)
  | 0, v, buf => .ok (v, buf)
  | n + 1, v, buf =>
    if s.params.blockSize ≤ buf.length then do
      let v' ← block s v (buf.take s.params.blockSize)
      absorb s n v' (buf.drop s.params.blockSize)
    else .ok (v, buf)

/-- The limit check of R168: the bit length would reach `LEN_LIMIT_BITS` (unbounded arithmetic). -/
def lengthExceeded (v : View) (n : Nat) : Bool := decide (lenLimitBits ≤ (v.totalLen.toNat + n) * 8)

/-- `WritePath(W, d)` (R168): `none` is FAIL, which changes nothing (R172). The carry holds exactly the bytes left
over (10_state.md R44; log 10). -/
def writePath (s : State) (v : View) (d : List Byte) : Except Fault (Option View) :=
  if lengthExceeded v d.length then .ok none
  else do
    let carry ← v.carry.readRange .carry 0 v.carryLen
    let buf := carry ++ d
    let (v', rest) ← absorb s buf.length { v with totalLen := v.totalLen + BitVec.ofNat 64 d.length } buf
    return some { v' with carry := Mem.ofList rest, carryLen := rest.length }

/-- The first lines of `ResetCtx`: chain zeroed, carry and count cleared (R165). -/
def clearView (p : Params) (v : View) : View :=
  { v with chain := Mem.ofList (zeros p.outputLen), carry := [], carryLen := 0, totalLen := 0#64 }

/-- `ResetCtx` on a view: clear it, and if salted fold in one block of zeros through the write path (R165). A FAIL of
the fold-in leaves the cleared view (R168; log 12). -/
def resetView (s : State) (v : View) : Except Fault View :=
  let v0 := clearView s.params v
  if v.salted then do
    let r ← writePath s v0 (zeros s.params.blockSize)
    return r.getD v0
  else .ok v0

/-- `z = (P - ((t + 1) mod BS)) mod BS`, with `BS` added first so that natural subtraction is exact (R181). -/
def padZeros (p : Params) (t : Nat) : Nat := (p.padTarget + p.blockSize - (t + 1) % p.blockSize) % p.blockSize

/-- `pad1 = [0x01] ++ zeros(z)` (R181). -/
def pad1 (p : Params) (t : Nat) : List Byte := 0x01#8 :: zeros (padZeros p t)

/-- `suffix = LE64(8 * t) ++ zeros(8)` (R181, 20_memory.md R63). -/
def padSuffix (t : Nat) : List Byte := le64 (BitVec.ofNat 64 (8 * t)) ++ zeros 8

/-- `SLOAD c, cnt, w` (R162). -/
def execSload (c : BitVec 8) (cnt : BitVec 4) (w : Word) (s : State) : Res :=
  fieldChecked .sload (some c) (some cnt) s <|
    let k := ctxAt s c
    if s.params.blockSize < k.saltCnt + cnt.toNat then violate .sload .errSaltLen s
    else
      complete .sload [] (setCtx s c
        { k with saltStage := k.saltStage.writeRange k.saltCnt (payloadBytes cnt w), saltCnt := k.saltCnt + cnt.toNat })

/-- The salt after an `INIT`: the `BS` staged bytes if it is salted, else what it was (R163). -/
def initSalt (s : State) (k : Context) (salted : Bool) : Except Fault (Mem Byte) :=
  if salted then do
    let bytes ← k.saltStage.readRange .saltStage 0 s.params.blockSize
    return Mem.ofList bytes
  else .ok k.view.salt

/-- `INIT c, matrix|table [, salted]` (R163). -/
def execInit (c : BitVec 8) (csel : Compressor) (salted : Bool) (s : State) : Res :=
  fieldChecked .init (some c) none s <|
    let k := ctxAt s c
    if compressorReady s csel = false then violate .init .errNotReady s
    else if salted = true ∧ k.saltCnt ≠ s.params.blockSize then violate .init .errSaltLen s
    else settle do
      let salt ← initSalt s k salted
      let v ← resetView s { k.view with salt := salt, csel := csel, salted := salted }
      return complete .init [] (setCtx s c { k with saltCnt := 0, bound := true, phase := .fresh, view := v })

/-- `RESET c` (R164, R160). -/
def execReset (c : BitVec 8) (s : State) : Res :=
  fieldChecked .reset (some c) none s <|
    let k := ctxAt s c
    if k.bound = false then violate .reset .errNotBound s
    else settle do
      let v ← resetView s k.view
      return complete .reset [] (setCtx s c { k with phase := .fresh, view := v })

/-- `WRITE c, cnt, w` (R169, R160). A write that would reach the length limit answers `ERR_LENGTH` and changes nothing
(R172, 60_exceptions.md R230). -/
def execWrite (c : BitVec 8) (cnt : BitVec 4) (w : Word) (s : State) : Res :=
  fieldChecked .write (some c) (some cnt) s <|
    let k := ctxAt s c
    if k.bound = false then violate .write .errNotBound s
    else settle do
      match ← writePath s k.view (payloadBytes cnt w) with
      | none => return .next (respond Opcode.write.byte .errLength [] s)
      | some v => return complete .write [] (setCtx s c { k with phase := .accumulating, view := v })

/-- The padding of `FINAL` on the private copy `W`: `pad1`, then the suffix, both through the write path and both from
the count before the padding. `none` is FAIL (R180, R181). -/
def padView (s : State) (v : View) : Except Fault (Option View) := do
  let t := v.totalLen.toNat
  match ← writePath s v (pad1 s.params t) with
  | none => return none
  | some v1 => writePath s v1 (padSuffix t)

/-- `FINAL c` (R180, R160): the digest of a private copy; the context is not written. -/
def execFinal (c : BitVec 8) (s : State) : Res :=
  fieldChecked .final (some c) none s <|
    let k := ctxAt s c
    if k.bound = false then violate .final .errNotBound s
    else settle do
      match ← padView s k.view with
      | none => return .next (respond Opcode.final.byte .errLength [] s)
      | some v =>
        if v.carryLen ≠ 0 then return violate .final .errInternal s
        else do
          let bytes ← v.chain.readRange .chain 0 s.params.outputLen
          return complete .final (wordsOfBytes s.params.nRows bytes) s

end Sys2Proof.Machine
end

