-- ==== Sys2Proof/Machine/Dispatch.lean ====
section
/-! DEFINITION. One arm for each command of spec/opcode_table.json. -/

namespace Sys2Proof.Machine

def exec (i : Instr) (s : State) : Host.Outcome State Fault Refusal :=
  match i with
  | .nop => Sys2Proof.Machine.execNop s
  | .info => Sys2Proof.Machine.execInfo s
  | .stat c => Sys2Proof.Machine.execStat c s
  | .mload w => Sys2Proof.Machine.execMload w s
  | .tderive => Sys2Proof.Machine.execTderive s
  | .sload c cnt w => Sys2Proof.Machine.execSload c cnt w s
  | .init c csel salted => Sys2Proof.Machine.execInit c csel salted s
  | .reset c => Sys2Proof.Machine.execReset c s
  | .write c cnt w => Sys2Proof.Machine.execWrite c cnt w s
  | .final c => Sys2Proof.Machine.execFinal c s
  | .cload cnt w => Sys2Proof.Machine.execCload cnt w s
  | .crun csel => Sys2Proof.Machine.execCrun csel s

end Sys2Proof.Machine
end

