-- ==== Sys2Proof/Machine/Sequencer.lean ====
section
/-! DEFINITION. The sequencer's turn: it executes one whole command (spec 00_scope.md R18, 30_encoding.md R100, R101). -/

namespace Sys2Proof.Machine

/-- The sequencer's turn. With no whole command in the channel it idles, and without room for the response it holds:
nothing changes (60_exceptions.md R241, 70_reset_and_hazards.md R272; log 8). Else it takes the command's beats from
the channel (30_encoding.md R101) and executes it (R100). -/
def sequencerTurn (s : State) : Host.Outcome State Fault Refusal :=
  match fetch s with
  | none => .next s
  | some (h, w, rest) =>
    match decodeFrame h w with
    | .ok i => exec i { s with cmdq := rest }
    | .error e => .next (rejectHeader (headerOpc h) e { s with cmdq := rest })

end Sys2Proof.Machine
end

