-- ==== Sys2Proof/Machine/Step.lean ====
section
/-! DEFINITION. One step of the machine: one turn of the sequencer, which executes one whole command (spec 00_scope.md
R18), or one turn of the host (70_reset_and_hazards.md R278). -/

namespace Sys2Proof.Machine

/-- One step. An instance that cannot be built is refused (00_scope.md R8). With no turn listed the sequencer moves. -/
def step (s : State) : Host.Outcome State Fault Refusal :=
  if s.params.Buildable then
    match s.turns with
    | [] => sequencerTurn s
    | .block :: rest => sequencerTurn { s with turns := rest }
    | .send w :: rest => .next (sendBeat w { s with turns := rest })
    | .take :: rest => .next (takeBeat { s with turns := rest })
    | .powerOn :: rest => .next (powerOnReset { s with turns := rest })
  else .refused .notBuildable

/-- `s` with one command at the head of the channel and the sequencer to move next. If `RESPQ` lacks room for the
response, the host has taken what is queued. -/
def State.withFetchWord (s : State) (nbits w : Nat) : State :=
  let beats := beatsOfTableWord nbits w
  let s' := if hasRoom s (beats.headD 0#64) then s else takeAll s
  { s' with cmdq := beats ++ s.cmdq, turns := .block :: s.turns }

end Sys2Proof.Machine
end

