-- ==== Sys2Proof/WellFormed.lean ====
section
/-! DEFINITION. When a command's operands are legal on an instance (spec 30_encoding.md R84): the count is at most 8
and the context exists. An ill-formed command is still a command: it raises `ERR_CNT` or `ERR_CTX`. -/

namespace Sys2Proof

/-- `CNT` is 0 to 8 on a data command (R84). -/
def cntLegal (cnt : BitVec 4) : Bool := decide (cnt.toNat ≤ 8)

/-- `CTX < N_CTX` on a context command (R84). -/
def ctxLegal (p : Params) (c : BitVec 8) : Bool := decide (c.toNat < p.nCtx)

/-- Every operand of the command is legal on instance `p` (R84). -/
def Instr.wellFormed (p : Params) : Instr → Bool
  | .nop => true
  | .info => true
  | .stat c => ctxLegal p c
  | .mload _ => true
  | .tderive => true
  | .sload c cnt _ => ctxLegal p c && cntLegal cnt
  | .init c _ _ => ctxLegal p c
  | .reset c => ctxLegal p c
  | .write c cnt _ => ctxLegal p c && cntLegal cnt
  | .final c => ctxLegal p c
  | .cload cnt _ => cntLegal cnt
  | .crun _ => true

end Sys2Proof
end

