-- ==== Sys2Proof/Safety.lean ====
section
/-! DEFINITION. The terms claims are stated in: the invariant of the block (spec 10_state.md R22 to R54), what the host
observes, what timing may depend on, and reference functions that follow the spec's closed formulas. -/

namespace Sys2Proof.Machine

/-! ### The invariant -/

/-- The memory holds a value at exactly the indices below its length, in order. -/
abbrev Mem.dense {α : Type} (m : Mem α) : Prop := m.map Prod.fst = List.range m.length

/-- What holds of the view of a bound context: R43, R44, R47, R49 and R42 of 10_state.md, and its compressor stays
ready (42_streaming_engine.md R163). -/
structure ViewInv (s : State) (v : View) : Prop where
  chain_dense : v.chain.dense
  chain_length : v.chain.length = s.params.outputLen
  carry_dense : v.carry.dense
  carry_length : v.carry.length = v.carryLen
  carry_mod : v.carryLen = v.totalLen.toNat % s.params.blockSize
  total_limit : v.totalLen.toNat * 8 < lenLimitBits
  salt_dense : v.salt.dense
  salt_length : v.salted = true → v.salt.length = s.params.blockSize
  ready : compressorReady s v.csel = true

/-- What holds of a context: R38, R41, R46, and R54 while it is unbound. -/
structure CtxInv (s : State) (k : Context) : Prop where
  stage_dense : k.saltStage.dense
  stage_length : k.saltStage.length ≤ s.params.blockSize
  stage_count : k.saltCnt ≤ k.saltStage.length
  bound_phase : k.bound = true → k.phase ≠ .unbound
  bound_view : k.bound = true → ViewInv s k.view
  unbound_phase : k.bound = false → k.phase = .unbound
  unbound_view : k.bound = false → k.view = View.powerOn

/-- The invariant of the block: what 10_state.md says of every state a run reaches. -/
structure Inv (s : State) : Prop where
  buildable : s.params.Buildable
  no_error : s.fatal = false → s.errcode = 0#8 ∧ s.erropc = 0#8
  error_code : s.fatal = true → ∃ st : Status, st.isContract = true ∧ s.errcode = st.code
  mptr_le : s.mptr ≤ s.params.matrixWords
  a_dense : s.a.dense
  a_length : s.a.length = s.mptr
  table_matrix : s.tableValid = true → matrixValid s = true
  table_derived : s.tableValid = true → deriveTable s.params s.a = .ok s.t
  table_absent : s.tableValid = false → s.t = []
  src_dense : s.src.dense
  src_length : s.src.length ≤ s.params.inputLen
  src_count : s.srcCnt ≤ s.src.length
  respq_le : s.respq.length ≤ s.params.respDepth
  ctx_length : s.ctx.length = s.params.nCtx
  ctx_inv : ∀ k ∈ s.ctx, CtxInv s k

/-- Every memory of the state is in its canonical form. -/
structure MemWf (s : State) : Prop where
  a_wf : s.a.wf
  t_wf : s.t.wf
  src_wf : s.src.wf
  stage_wf : ∀ k ∈ s.ctx, k.saltStage.wf
  salt_wf : ∀ k ∈ s.ctx, k.view.salt.wf
  chain_wf : ∀ k ∈ s.ctx, k.view.chain.wf
  carry_wf : ∀ k ∈ s.ctx, k.view.carry.wf

/-! ### What the host observes, and well-formed runs -/

/-- Every response beat so far, in order: those the host has taken, then those still queued (10_state.md R53). -/
def observed (s : State) : List Word := s.received ++ s.respq

/-- A run is well-formed when `FATAL = 0` at its end (70_reset_and_hazards.md R279). -/
def wellFormedEnd (s : State) : Prop := s.fatal = false

/-! ### Reference functions: the spec's closed formulas -/

/-- Row `i` of `CompressA` as one sum: over byte `j` and bit `k`, `A[i][8j+k]` where the bit is set
(40_matrix_compressor.md R115, R120), on a matrix given as a function. -/
def refRow (A : Nat → Nat → Word) (i : Nat) (x : List Byte) : Word :=
  (x.zipIdx.map fun bj =>
    ((List.range 8).map fun k => if bj.1.getLsbD k then A i (8 * bj.2 + k) else 0#64).sum).sum

/-- `CompressA(x)` as closed sums, for `n` rows. -/
def refCompress (A : Nat → Nat → Word) (n : Nat) (x : List Byte) : List Word :=
  (List.range n).map fun i => refRow A i x

/-- The matrix a state holds, as a function (0 where it holds no value; statements use it under `matrixValid`). -/
def matrixOf (s : State) (i j : Nat) : Word := (s.a.read (cellA s.params i j)).getD 0#64

/-- One block of the Merkle-Damgard chain over the closed sums: the chain bytes, then the block, XORed with the salt
where there is one (42_streaming_engine.md R166). -/
def refBlock (A : Nat → Nat → Word) (n : Nat) (salt : Option (List Byte)) (chain blk : List Byte) : List Byte :=
  bytesOfWords (refCompress A n (chain ++ (match salt with
    | some t => xorBytes blk t
    | none => blk)))

/-- The chain after the first `q` whole blocks of a stream (42_streaming_engine.md R166, R168). -/
def refChain (A : Nat → Nat → Word) (n bs : Nat) (salt : Option (List Byte)) : Nat → List Byte → List Byte → List Byte
  | 0, chain, _ => chain
  | q + 1, chain, m => refChain A n bs salt q (refBlock A n salt chain (m.take bs)) (m.drop bs)

/-- The salt the blocks of a view are XORed with, if it is salted (42_streaming_engine.md R166). -/
def saltOf (v : View) : Option (List Byte) := if v.salted then some (v.salt.map Prod.snd) else none

/-- What a context's view holds after the stream `m` since it was constructed or reset: the chain of the whole blocks,
and the tail as carry (42_streaming_engine.md R168, R170; 10_state.md R45, R47). -/
structure Absorbed (s : State) (v : View) (m : List Byte) : Prop where
  total : v.totalLen.toNat = m.length
  chain : v.chain = Mem.ofList (refChain (matrixOf s) s.params.nRows s.params.blockSize
    (saltOf v) (m.length / s.params.blockSize)
    (zeros s.params.outputLen) m)
  carry : v.carry = Mem.ofList (m.drop (m.length / s.params.blockSize * s.params.blockSize))
  carryLen : v.carryLen = m.length % s.params.blockSize

/-- The digest words of a stream `m` of `t` bytes: the chain over `m ++ pad1(t) ++ suffix(t)`
(42_streaming_engine.md R180, R181). -/
def refDigest (A : Nat → Nat → Word) (p : Params) (salt : Option (List Byte)) (m : List Byte) : List Word :=
  let padded := m ++ pad1 p m.length ++ padSuffix m.length
  wordsOfBytes p.nRows
    (refChain A p.nRows p.blockSize salt (padded.length / p.blockSize) (zeros p.outputLen) padded)

/-- A status beat as the table of 30_encoding.md R95 lays it out. -/
def refBeat (ndata : BitVec 16) (opc st : Byte) : Word := 0#32 ++ ndata ++ opc ++ st

/-- `s` with one response appended and nothing else changed (30_encoding.md R95). -/
def answered (s : State) (ndata : BitVec 16) (opc st : Byte) (data : List Word) : State :=
  { s with respq := s.respq ++ refBeat ndata opc st :: data }

/-- `s` after `raise Fatal(code)`, taken while `FATAL = 0` (60_exceptions.md R228). -/
def trapState (s : State) (opc code : Byte) : State :=
  { answered s 0#16 opc code [] with fatal := true, errcode := code, erropc := opc }

/-- A list of commands, executed in order; the first fault or refusal ends it (20_memory.md R66). -/
def execAll : List Instr → State → Res
  | [], s => .next s
  | i :: is, s =>
    match exec i s with
    | .next t => execAll is t
    | .fault f => .fault f
    | .refused r => .refused r

/-- The `WRITE` commands of a list of counts and payloads, all to context `c`. -/
def writesOf (c : BitVec 8) (ws : List (BitVec 4 × Word)) : List Instr := ws.map fun x => .write c x.1 x.2

/-- The message those commands write (30_encoding.md R83). -/
def messageOf (ws : List (BitVec 4 × Word)) : List Byte := ws.flatMap fun x => payloadBytes x.1 x.2

/-- `s` with the compressor of context `c` replaced. -/
def withCsel (s : State) (c : BitVec 8) (csel : Compressor) : State :=
  setCtx s c { ctxAt s c with view := { (ctxAt s c).view with csel := csel } }

/-! ### Timing (70_reset_and_hazards.md R275) -/

/-- The context a command names, if it names one (30_encoding.md R89). -/
def namedCtx : Instr → Option (BitVec 8)
  | .stat c => some c
  | .sload c _ _ => some c
  | .init c _ _ => some c
  | .reset c => some c
  | .write c _ _ => some c
  | .final c => some c
  | .nop => none
  | .info => none
  | .mload _ => none
  | .tderive => none
  | .cload _ _ => none
  | .crun _ => none

/-- The status byte of the response a command has just queued on top of `s`: the first beat after those of `s`. -/
def responseStatus (s t : State) : Byte := ((t.respq.drop s.respq.length).headD 0#64).extractLsb' 0 8

/-- Whether a command raises: the status it answers is a contract violation, 0x81 to 0x8A (60_exceptions.md R220). -/
def raises (i : Instr) (s : State) : Bool :=
  match exec i s with
  | .next t => decide (0x81#8 ≤ responseStatus s t)
  | .fault _ => false
  | .refused _ => false

/-- The latency of command `i` in state `s`: the open parameter at what R275 lets it depend on (log 13). -/
def latencyOf (i : Instr) (s : State) : Nat :=
  Config.latency s.params (encodeHeader i) ((namedCtx i).map fun c => (ctxAt s c).view.carryLen) (raises i s)

/-- The part of a context that is not data. -/
def sameCtxControl (k k' : Context) : Prop :=
  k.bound = k'.bound ∧ k.phase = k'.phase ∧ k.saltCnt = k'.saltCnt ∧ k.view.carryLen = k'.view.carryLen
    ∧ k.view.totalLen = k'.view.totalLen ∧ k.view.salted = k'.view.salted ∧ k.view.csel = k'.view.csel

/-- Two states that differ in data only: the matrix words, table entries, source, salt, chain and carry bytes, and the
data beats of responses. Every flag, counter, pointer and length is the same. -/
structure SameControl (s s' : State) : Prop where
  params : s.params = s'.params
  fatal : s.fatal = s'.fatal
  errcode : s.errcode = s'.errcode
  erropc : s.erropc = s'.erropc
  mptr : s.mptr = s'.mptr
  tableValid : s.tableValid = s'.tableValid
  srcCnt : s.srcCnt = s'.srcCnt
  respq : s.respq.length = s'.respq.length
  ctx : List.Forall₂ sameCtxControl s.ctx s'.ctx

end Sys2Proof.Machine
end

