-- ==== Sys2Proof/Certificates/Slice0/Obligations.lean ====
section
/-! DEFINITION. The statements for the provers, from the numbered rules of spec/. -/

open Sys2Proof Sys2Proof.Machine

/-! ### Reset -/

/-- R54: the value of every piece of state after power-on reset, on every instance, and `State.reset` is such a state.
Which instance `State.reset` is of is the model's choice (logs 1 and 2). -/
def Obligations.PowerOnStateIsTheResetTable : Prop :=
  (∀ p : Params, p.Buildable →
    (State.powerOn p).fatal = false ∧ (State.powerOn p).errcode = 0#8 ∧ (State.powerOn p).erropc = 0#8
      ∧ (State.powerOn p).mptr = 0 ∧ matrixValid (State.powerOn p) = false
      ∧ (∀ i j, (State.powerOn p).a.read (cellA p i j) = none)
      ∧ (State.powerOn p).tableValid = false
      ∧ (∀ i g b, (State.powerOn p).t.read (cellT p i g b) = none)
      ∧ (State.powerOn p).srcCnt = 0 ∧ (∀ k, (State.powerOn p).src.read k = none)
      ∧ (State.powerOn p).respq = []
      ∧ (State.powerOn p).ctx.length = p.nCtx
      ∧ ∀ k ∈ (State.powerOn p).ctx,
          k.bound = false ∧ k.view.csel = .matrix ∧ k.view.salted = false ∧ k.phase = .unbound ∧ k.saltCnt = 0
            ∧ (∀ n, k.saltStage.read n = none) ∧ (∀ n, k.view.salt.read n = none) ∧ (∀ n, k.view.chain.read n = none)
            ∧ k.view.carryLen = 0 ∧ (∀ n, k.view.carry.read n = none) ∧ k.view.totalLen = 0#64)
  ∧ ∃ p : Params, p.Buildable ∧ State.reset = State.powerOn p

/-- The invariant, and the canonical form of every memory, hold of the power-on state of every instance that can be
built, `State.reset` among them. -/
def Obligations.PowerOnStateMeetsInvariant : Prop :=
  (∀ p : Params, p.Buildable → Inv (State.powerOn p) ∧ MemWf (State.powerOn p)) ∧ Inv State.reset ∧ MemWf State.reset

/-! ### Whole-machine statements -/

/-- Every step keeps the invariant: what 10_state.md says of the state holds of every reachable one. -/
def Obligations.StepKeepsInvariant : Prop :=
  ∀ s t : State, Inv s → step s = .next t → Inv t

/-- R54: no command reads an element before it is written, so that no step from a state of the invariant stops. -/
def Obligations.StepFromInvariantAlwaysGoesOn : Prop :=
  ∀ s : State, Inv s → ∃ t, step s = .next t

/-- R47, R48, R49: the counters of every bound context after every step. -/
def Obligations.BoundContextCounters : Prop :=
  ∀ s t : State, Inv s → step s = .next t → ∀ k ∈ t.ctx, k.bound = true →
    k.view.carryLen = k.view.totalLen.toNat % t.params.blockSize
      ∧ k.view.carryLen < t.params.blockSize
      ∧ k.view.totalLen.toNat * 8 < lenLimitBits

/-- Every step keeps every memory in its canonical form, from any state. -/
def Obligations.StepKeepsMemoriesCanonical : Prop :=
  ∀ s t : State, MemWf s → step s = .next t → MemWf t

/-- R32, R272: `RESPQ` never grows beyond its capacity, from any state. That the room is judged by the opcode table's
`NDATA` is the model's reading (log 5). -/
def Obligations.StepKeepsQueueWithinCapacity : Prop :=
  ∀ s t : State, s.respq.length ≤ s.params.respDepth → step s = .next t →
    t.respq.length ≤ t.params.respDepth ∧ t.params = s.params

/-- R26, R69: once the matrix is complete it stays complete and no word of it changes, and once the table is derived it
stays derived and no entry changes, until power-on reset. -/
def Obligations.MatrixAndTableAreImmutable : Prop :=
  ∀ s t : State, Inv s → step s = .next t → s.turns.head? ≠ some .powerOn →
    (matrixValid s = true → matrixValid t = true ∧ t.a = s.a)
      ∧ (s.tableValid = true → t.tableValid = true ∧ t.t = s.t)

/-- R66, R270: what the host observes only grows, and a step adds to it nothing or the one whole response of the command
at the head of the channel, whose beats it consumes. -/
def Obligations.ResponsesComeInCommandOrder : Prop :=
  ∀ s t : State, step s = .next t → s.turns.head? ≠ some .powerOn →
    (observed t = observed s ∧ s.cmdq <+: t.cmdq)
      ∨ ∃ h w rest, nextFrame s.cmdq = some (h, w, rest) ∧ t.cmdq = rest ∧
          ∃ st : Status, ∃ data : List Word, ∃ nd : BitVec 16,
            observed t = observed s ++ refBeat nd (headerOpc h) st.code :: data
              ∧ (data.length < 2 ^ 16 → nd.toNat = data.length)

/-! ### The step, the channel and the host -/

/-- A step runs the decoded command: the first beats of the channel are consumed, and the rest is `exec`. The turns are
the model's (log 6), and so is the reading of the room a command needs (log 5). -/
def Obligations.StepRunsTheDecodedCommand : Prop :=
  ∀ (s : State) (i : Instr) (rest : List Word) (ts : List Turn), s.params.Buildable →
    decode s.cmdq = .ok (i, rest) →
    s.respq.length + (1 + ndataOf s.params i.opcode) ≤ s.params.respDepth →
      (s.turns = [] → step s = exec i { s with cmdq := rest })
        ∧ (s.turns = .block :: ts → step s = exec i { s with cmdq := rest, turns := ts })

/-- R272 and R241: without a whole command the block idles, and without room for the whole response of the command at
the head it holds, whether its opcode is legal (its other fields legal or not) or illegal; nothing changes but the turn
used up. The turns (log 6), the room (log 5) and holding as an unchanged next state (log 8) are the model's. -/
def Obligations.BlockHoldsOrIdlesWithoutChange : Prop :=
  ∀ (s t : State), s.params.Buildable →
    ((s.turns = [] ∧ t = s) ∨ ∃ ts, s.turns = .block :: ts ∧ t = { s with turns := ts }) →
      (nextFrame s.cmdq = none → step s = .next t)
        ∧ (∀ (h w : Word) (rest : List Word) (op : Opcode), nextFrame s.cmdq = some (h, w, rest) →
            headerOpc h = op.byte → s.params.respDepth < s.respq.length + (1 + ndataOf s.params op) →
            step s = .next t)
        ∧ (∀ (h w : Word) (rest : List Word), nextFrame s.cmdq = some (h, w, rest) →
            Opcode.ofByte (headerOpc h) = none → s.params.respDepth < s.respq.length + 1 → step s = .next t)

/-- R278: the host sends a beat, or takes the head beat of `RESPQ`. The turns and the received list are the model's
(log 6). -/
def Obligations.HostSendsAndTakes : Prop :=
  ∀ (s : State) (w b : Word) (q : List Word) (ts : List Turn), s.params.Buildable →
    (s.turns = .send w :: ts → step s = .next { s with turns := ts, cmdq := s.cmdq ++ [w] })
      ∧ (s.turns = .take :: ts → s.respq = b :: q →
          step s = .next { s with turns := ts, respq := q, received := s.received ++ [b] })

/-- R260: power-on reset sets every piece of state to its power-on value and discards what the channel holds, and it is
the only thing that clears `FATAL` or takes the matrix back (from any state). That whole commands in the channel are
discarded too, and that the later turns and the received beats stay, is the model's choice (log 7). -/
def Obligations.OnlyPowerOnResetClears : Prop :=
  (∀ (s : State) (ts : List Turn), s.params.Buildable → s.turns = .powerOn :: ts →
    step s = .next { State.powerOn s.params with turns := ts, received := s.received })
  ∧ ∀ s t : State, step s = .next t → s.turns.head? ≠ some .powerOn →
      (s.fatal = true → t.fatal = true) ∧ s.mptr ≤ t.mptr

/-- R8: an instance that cannot be built is refused. -/
def Obligations.UnbuildableInstanceIsRefused : Prop :=
  ∀ s : State,
    (s.params.mCols % 8 ≠ 0 ∨ s.params.nRows < 1 ∨ s.params.mCols / 8 < 8 * s.params.nRows + 16) →
      step s = .refused .notBuildable

/-! ### Encoding -/

/-- Decode and encode agree, for every command with every operand. -/
def Obligations.DecodeOfEncode : Prop :=
  ∀ (i : Instr) (rest : List Word), decode (encode i ++ rest) = .ok (i, rest)

/-- The other direction: beats that decode are the encoding of what they decode to, so that no header bit is dropped. -/
def Obligations.EncodeOfDecode : Prop :=
  ∀ (beats : List Word) (i : Instr) (rest : List Word), decode beats = .ok (i, rest) → beats = encode i ++ rest

/-- R81, R89, R105: written-out words decode to the commands they stand for. -/
def Obligations.WrittenOutWordsDecode : Prop :=
  decode [0x0000000000000000#64] = .ok (.nop, [])
    ∧ decode [0x0000000000000010#64, 0x0000000000000001#64] = .ok (.mload 1#64, [])
    ∧ decode [0x0000000000000011#64] = .ok (.tderive, [])
    ∧ decode [0x0000000000000323#64, 0x0000000000636261#64] = .ok (.write 0#8 3#4 0x636261#64, [])
    ∧ decode [0x0000000000003021#64] = .ok (.init 0#8 .table true, [])
    ∧ decode [0x0000000000001031#64] = .ok (.crun .table, [])
    ∧ decode [0x0000000000050024#64] = .ok (.final 5#8, [])

/-- R91: the illegal `OPC` values are 0x03 to 0x0F, 0x12 to 0x1F, 0x25 to 0x2F and 0x32 to 0xFF, 244 in all. -/
def Obligations.IllegalOpcodeValues : Prop :=
  (∀ b : Byte, Opcode.ofByte b = none ↔
    (0x03#8 ≤ b ∧ b ≤ 0x0F#8) ∨ (0x12#8 ≤ b ∧ b ≤ 0x1F#8) ∨ (0x25#8 ≤ b ∧ b ≤ 0x2F#8) ∨ 0x32#8 ≤ b)
  ∧ ((List.range 256).filter fun n => (Opcode.ofByte (BitVec.ofNat 8 n)).isNone).length = 244

/-- R91, R82, R228: an illegal opcode traps, taking the header beat alone from the channel; while fatal it is refused. -/
def Obligations.IllegalOpcodeTraps : Prop :=
  ∀ (s : State) (h : Word) (rest : List Word), s.params.Buildable → s.turns = [] → s.cmdq = h :: rest →
    Opcode.ofByte (headerOpc h) = none → s.respq.length + 1 ≤ s.params.respDepth →
      (s.fatal = false → step s = .next (trapState { s with cmdq := rest } (headerOpc h) 0x81#8))
        ∧ (s.fatal = true → step s = .next (answered { s with cmdq := rest } 0#16 (headerOpc h) 0x80#8 []))

/-- R84, R100 step 3, R101: a legal opcode whose reserved bits are not all 0, whose `FLG` has an undefined bit, or whose
unused `CNT` or `CTX` is not 0, traps with `ERR_RESERVED`, and its payload beat is consumed; while fatal it is refused
unless it is NOP, INFO or STAT. That those three then answer `ERR_RESERVED` and keep the record of the first violation is
the model's reading (log 4). -/
def Obligations.ReservedBitsTrap : Prop :=
  ∀ (s : State) (op : Opcode) (h w : Word) (rest : List Word), s.params.Buildable → s.turns = [] →
    headerOpc h = op.byte → s.cmdq = h :: (if op.hasPayload then w :: rest else rest) →
    s.respq.length + (1 + ndataOf s.params op) ≤ s.params.respDepth →
    (h.extractLsb' 24 40 ≠ 0#40 ∨ h.extractLsb' 14 2 ≠ 0#2
      ∨ (op ≠ .init ∧ h.extractLsb' 13 1 ≠ 0#1) ∨ (op ≠ .init ∧ op ≠ .crun ∧ h.extractLsb' 12 1 ≠ 0#1)
      ∨ (op ≠ .sload ∧ op ≠ .write ∧ op ≠ .cload ∧ h.extractLsb' 8 4 ≠ 0#4)
      ∨ (op ≠ .stat ∧ op ≠ .sload ∧ op ≠ .init ∧ op ≠ .reset ∧ op ≠ .write ∧ op ≠ .final
          ∧ h.extractLsb' 16 8 ≠ 0#8)) →
      (s.fatal = false → step s = .next (trapState { s with cmdq := rest } op.byte 0x82#8))
        ∧ (s.fatal = true → op ≠ .nop → op ≠ .info → op ≠ .stat →
            step s = .next (answered { s with cmdq := rest } 0#16 op.byte 0x80#8 []))
        ∧ (s.fatal = true → (op = .nop ∨ op = .info ∨ op = .stat) →
            step s = .next (answered { s with cmdq := rest } 0#16 op.byte 0x82#8 []))

/-! ### Every command -/

/-- R95, R222: every command that answers appends exactly one response: a status beat with the command's opcode and a
status of the table, then `NDATA` data words: those of the opcode map when the status is OK, none otherwise. -/
def Obligations.EveryCommandAnswersOnce : Prop :=
  ∀ (i : Instr) (s t : State), exec i s = .next t →
    ∃ (st : Byte) (data : List Word) (nd : BitVec 16),
      t.respq = s.respq ++ refBeat nd i.opcode.byte st :: data
        ∧ st ∈ [0x00#8, 0x01#8, 0x80#8, 0x81#8, 0x82#8, 0x83#8, 0x84#8, 0x85#8, 0x86#8, 0x87#8, 0x88#8, 0x89#8, 0x8A#8]
        ∧ data.length = (if st = 0x00#8 then ndataOf s.params i.opcode else 0)
        ∧ (data.length < 2 ^ 16 → nd.toNat = data.length)

/-- R229, R230: a command whose response is a violation changes nothing but the trap state and the queue; one whose
response is `ERR_LENGTH` changes nothing but the queue. -/
def Obligations.TrapsArePrecise : Prop :=
  ∀ (i : Instr) (s t : State), exec i s = .next t →
    (responseStatus s t ≠ 0x00#8 →
      t = { s with fatal := t.fatal, errcode := t.errcode, erropc := t.erropc, respq := t.respq })
    ∧ (responseStatus s t = 0x01#8 → t = { s with respq := t.respq })

/-- R231: while `FATAL = 1` every command but NOP, INFO and STAT is refused with 0x80 and has no effect. -/
def Obligations.FatalStateRefusesCommands : Prop :=
  ∀ (i : Instr) (s : State), s.fatal = true → i ≠ .nop → i ≠ .info → (∀ c, i ≠ .stat c) →
    exec i s = .next (answered s 0#16 i.opcode.byte 0x80#8 [])

/-- R232, R231, R24: nothing but power-on reset leaves the fatal state, the record keeps the first violation, and no
command changes any other state meanwhile. That a malformed NOP, INFO or STAT keeps the record too is the model's
reading (log 4). -/
def Obligations.FatalStateIsSticky : Prop :=
  ∀ s t : State, s.fatal = true → step s = .next t → s.turns.head? ≠ some .powerOn →
    t = { s with respq := t.respq, cmdq := t.cmdq, turns := t.turns, received := t.received }

/-- R84, R100 steps 4 and 5: a count above 8 traps with `ERR_CNT`, before the context is looked at; a context that does
not exist traps with `ERR_CTX`. While fatal only STAT comes to these checks: that it then answers `ERR_CTX` and keeps the
record of the first violation is the model's reading (log 4). -/
def Obligations.IllegalOperandsTrap : Prop :=
  ∀ (s : State) (c : BitVec 8) (cnt : BitVec 4) (w : Word) (csel : Compressor) (salted : Bool),
    (s.fatal = false → 8 < cnt.toNat →
      exec (.sload c cnt w) s = .next (trapState s 0x20#8 0x83#8)
        ∧ exec (.write c cnt w) s = .next (trapState s 0x23#8 0x83#8)
        ∧ exec (.cload cnt w) s = .next (trapState s 0x30#8 0x83#8))
    ∧ (s.fatal = false → s.params.nCtx ≤ c.toNat →
        exec (.stat c) s = .next (trapState s 0x02#8 0x84#8)
          ∧ (cnt.toNat ≤ 8 → exec (.sload c cnt w) s = .next (trapState s 0x20#8 0x84#8))
          ∧ exec (.init c csel salted) s = .next (trapState s 0x21#8 0x84#8)
          ∧ exec (.reset c) s = .next (trapState s 0x22#8 0x84#8)
          ∧ (cnt.toNat ≤ 8 → exec (.write c cnt w) s = .next (trapState s 0x23#8 0x84#8))
          ∧ exec (.final c) s = .next (trapState s 0x24#8 0x84#8))
    ∧ (s.fatal = true → s.params.nCtx ≤ c.toNat → exec (.stat c) s = .next (answered s 0#16 0x02#8 0x84#8 []))

/-- R239: a command leaves every context it does not name alone, and what it does otherwise does not depend on that
context: replacing it before or after the command gives the same state. -/
def Obligations.ContextsAreIsolated : Prop :=
  ∀ (i : Instr) (s t : State) (d : BitVec 8) (k : Context), exec i s = .next t → namedCtx i ≠ some d →
    ctxAt t d = ctxAt s d ∧ exec i (setCtx s d k) = .next (setCtx t d k)

/-! ### Control and status -/

/-- R201: NOP, in every state, the fatal one among them; its only header is 0. -/
def Obligations.NopOnlyAnswers : Prop :=
  encode .nop = [0x0000000000000000#64]
    ∧ (∀ (h : Word) (rest : List Word), decode (h :: rest) = .ok (.nop, rest) → h = 0x0000000000000000#64)
    ∧ ∀ s : State, exec .nop s = .next (answered s 0#16 0x00#8 0x00#8 [])

/-- R203: INFO, in every state, the fatal one among them; its only header is 1. -/
def Obligations.InfoAnswersSizes : Prop :=
  encode .info = [0x0000000000000001#64]
    ∧ (∀ (h : Word) (rest : List Word), decode (h :: rest) = .ok (.info, rest) → h = 0x0000000000000001#64)
    ∧ ∀ s : State, s.params.Buildable → s.params.mCols < 2 ^ 64 →
    exec .info s = .next (answered s 4#16 0x01#8 0x00#8
      [BitVec.ofNat 64 (8 * s.params.nRows), BitVec.ofNat 64 (s.params.mCols / 8 - 8 * s.params.nRows),
       BitVec.ofNat 64 s.params.nRows, BitVec.ofNat 64 s.params.mCols])

/-- R205: STAT, in every state, the fatal one among them: its header, and the fields of the four words. -/
def Obligations.StatAnswersEveryField : Prop :=
  (∀ c : BitVec 8, encode (.stat c) = [0#40 ++ c ++ 0#8 ++ 0x02#8])
  ∧ ∀ (s : State) (c : BitVec 8) (k : Context), c.toNat < s.params.nCtx → s.ctx[c.toNat]? = some k →
    ∃ s0 s2 s3 : Word,
      exec (.stat c) s = .next (answered s 4#16 0x02#8 0x00#8 [s0, k.view.totalLen, s2, s3])
        ∧ s0.getLsbD 0 = s.fatal
        ∧ s0.getLsbD 1 = decide (s.mptr = s.params.nRows * s.params.mCols)
        ∧ s0.getLsbD 2 = s.tableValid
        ∧ s0.getLsbD 3 = k.bound
        ∧ s0.getLsbD 4 = decide (k.view.csel = .table)
        ∧ s0.getLsbD 5 = k.view.salted
        ∧ s0.extractLsb' 6 2 = (match k.phase with
            | .unbound => 0#2
            | .fresh => 1#2
            | .accumulating => 2#2)
        ∧ s0.extractLsb' 8 8 = s.errcode
        ∧ s0.extractLsb' 16 8 = s.erropc
        ∧ s0.extractLsb' 24 40 = 0#40
        ∧ (k.view.carryLen < 2 ^ 32 → (s2.extractLsb' 0 32).toNat = k.view.carryLen)
        ∧ (k.saltCnt < 2 ^ 32 → (s2.extractLsb' 32 32).toNat = k.saltCnt)
        ∧ (s3.extractLsb' 0 32).toNat = s.mptr % 2 ^ 32
        ∧ (s.srcCnt < 2 ^ 32 → (s3.extractLsb' 32 32).toNat = s.srcCnt)

/-! ### The matrix -/

/-- R112: MLOAD's beats; it writes the word `MPTR` points at and no other, and counts; with the matrix complete it
traps. -/
def Obligations.MloadWritesTheNextWord : Prop :=
  (∀ w : Word, encode (.mload w) = [0x0000000000000010#64, w])
  ∧ ∀ (s : State) (w : Word), s.fatal = false →
    (s.mptr = s.params.nRows * s.params.mCols → exec (.mload w) s = .next (trapState s 0x10#8 0x86#8))
    ∧ (s.mptr ≠ s.params.nRows * s.params.mCols → ∃ a' : Mem Word,
        exec (.mload w) s = .next { answered s 0#16 0x10#8 0x00#8 [] with a := a', mptr := s.mptr + 1 }
          ∧ a'.read (cellA s.params (s.mptr / s.params.mCols) (s.mptr % s.params.mCols)) = some w
          ∧ ∀ k, k ≠ cellA s.params (s.mptr / s.params.mCols) (s.mptr % s.params.mCols) → a'.read k = s.a.read k)

/-- R113, R114, R267: the load order is row-major: after any number of MLOADs from power-on, load `q` stands at
`A[q div M_COLS][q mod M_COLS]`, and the matrix is valid exactly when it is complete. -/
def Obligations.MatrixLoadIsRowMajor : Prop :=
  ∀ (p : Params) (ws : List Word), p.Buildable → ws.length ≤ p.nRows * p.mCols →
    ∃ t : State, execAll (ws.map Instr.mload) (State.powerOn p) = .next t ∧ t.mptr = ws.length
      ∧ (∀ q, q < ws.length → t.a.read (cellA p (q / p.mCols) (q % p.mCols)) = ws[q]?)
      ∧ (matrixValid t = true ↔ ws.length = p.nRows * p.mCols)

/-- R115: `CompressA` is the closed sum over every byte and bit of the input, in little-endian bytes row by row. -/
def Obligations.CompressAIsTheMaskedSum : Prop :=
  ∀ (s : State) (x : List Byte), Inv s → matrixValid s = true → x.length = s.params.inputLen →
    ∃ acc : List Word, compressA s.params s.a x = .ok acc
      ∧ acc = refCompress (matrixOf s) s.params.nRows x
      ∧ (bytesOfWords acc).length = s.params.outputLen
      ∧ ∀ i, i < s.params.nRows → ((bytesOfWords acc).drop (8 * i)).take 8 = le64 (acc.getD i 0#64)

/-- R121: the laws of `CompressA`: zero input, disjoint inputs, a single bit, and rows independent of each other. -/
def Obligations.CompressALaws : Prop :=
  ∀ s : State, Inv s → matrixValid s = true →
    compressA s.params s.a (zeros s.params.inputLen) = .ok (List.replicate s.params.nRows 0#64)
    ∧ (∀ x y : List Byte, x.length = s.params.inputLen → y.length = s.params.inputLen →
        List.zipWith (· &&& ·) x y = zeros s.params.inputLen →
        ∃ cx cy : List Word, compressA s.params s.a x = .ok cx ∧ compressA s.params s.a y = .ok cy
          ∧ compressA s.params s.a (List.zipWith (· ||| ·) x y) = .ok (List.zipWith (· + ·) cx cy))
    ∧ (∀ j k : Nat, j < s.params.inputLen → k < 8 →
        compressA s.params s.a ((zeros s.params.inputLen).set j (1#8 <<< k)) =
          .ok ((List.range s.params.nRows).map fun i => matrixOf s i (8 * j + k)))
    ∧ (∀ (s' : State) (x : List Byte) (i : Nat), Inv s' → matrixValid s' = true → s'.params = s.params →
        x.length = s.params.inputLen → i < s.params.nRows →
        (∀ j, j < s.params.mCols → matrixOf s i j = matrixOf s' i j) →
        ∃ cx cy : List Word, compressA s.params s.a x = .ok cx ∧ compressA s'.params s'.a x = .ok cy
          ∧ cx[i]? = cy[i]?)

/-- R117: CLOAD's beats; it appends its bytes at `SRC_CNT` and counts them; bytes that would exceed `IL` trap. -/
def Obligations.CloadAppendsBytes : Prop :=
  (∀ (cnt : BitVec 4) (w : Word), encode (.cload cnt w) = [0#40 ++ 0#8 ++ 0#4 ++ cnt ++ 0x30#8, w])
  ∧ ∀ (s : State) (cnt : BitVec 4) (w : Word), s.fatal = false → cnt.toNat ≤ 8 →
    (s.params.inputLen < s.srcCnt + cnt.toNat → exec (.cload cnt w) s = .next (trapState s 0x30#8 0x89#8))
    ∧ (s.srcCnt + cnt.toNat ≤ s.params.inputLen → ∃ src' : Mem Byte,
        exec (.cload cnt w) s =
            .next { answered s 0#16 0x30#8 0x00#8 [] with src := src', srcCnt := s.srcCnt + cnt.toNat }
          ∧ (∀ n, n < cnt.toNat → src'.read (s.srcCnt + n) = some (w.extractLsb' (8 * n) 8))
          ∧ ∀ n, (n < s.srcCnt ∨ s.srcCnt + cnt.toNat ≤ n) → src'.read n = s.src.read n)

/-- R118: CRUN with a ready compressor and a full source answers the row sums, the same for both compressors, and empties
the source. -/
def Obligations.CrunAnswersRowSums : Prop :=
  ∀ (s : State) (csel : Compressor), Inv s → s.fatal = false → compressorReady s csel = true →
    s.srcCnt = s.params.inputLen →
    ∃ nd : BitVec 16, (s.params.nRows < 2 ^ 16 → nd.toNat = s.params.nRows)
      ∧ exec (.crun csel) s =
          .next { answered s nd 0x31#8 0x00#8 (refCompress (matrixOf s) s.params.nRows (s.src.map Prod.snd)) with
                  srcCnt := 0 }

/-- R118: where CRUN traps: readiness before length, and nothing changes. -/
def Obligations.CrunTraps : Prop :=
  ∀ (s : State) (csel : Compressor), s.fatal = false →
    (csel = .matrix → s.mptr ≠ s.params.nRows * s.params.mCols →
        exec (.crun csel) s = .next (trapState s 0x31#8 0x85#8))
    ∧ (csel = .table → s.tableValid = false → exec (.crun csel) s = .next (trapState s 0x31#8 0x85#8))
    ∧ (compressorReady s csel = true → s.srcCnt ≠ s.params.inputLen →
        exec (.crun csel) s = .next (trapState s 0x31#8 0x89#8))

/-! ### The table -/

/-- R141: TDERIVE's one beat; it writes every entry, the wrapping sum of the matrix words its index selects, and sets `TABLE_VALID`;
with the matrix incomplete it traps. -/
def Obligations.TderiveFillsTheTable : Prop :=
  encode .tderive = [0x0000000000000011#64]
  ∧ ∀ s : State, Inv s → s.fatal = false →
    (matrixValid s = false → exec .tderive s = .next (trapState s 0x11#8 0x85#8))
    ∧ (matrixValid s = true → ∃ t' : Mem Word,
        exec .tderive s = .next { answered s 0#16 0x11#8 0x00#8 [] with t := t', tableValid := true }
          ∧ ∀ (i g : Nat) (b : Byte), i < s.params.nRows → g < s.params.inputLen →
              t'.read (cellT s.params i g b.toNat) =
                some ((List.range 8).map fun k => if b.getLsbD k then matrixOf s i (8 * g + k) else 0#64).sum)

/-- R68: a second TDERIVE writes the same values: it only answers. -/
def Obligations.TderiveIsIdempotent : Prop :=
  ∀ s : State, Inv s → s.fatal = false → s.tableValid = true →
    exec .tderive s = .next (answered s 0#16 0x11#8 0x00#8 [])

/-- R144: the laws of a derived table. -/
def Obligations.DerivedTableLaws : Prop :=
  ∀ (s : State) (i g : Nat), Inv s → s.tableValid = true → i < s.params.nRows → g < s.params.inputLen →
    ∃ T : Byte → Word, (∀ b : Byte, s.t.read (cellT s.params i g b.toNat) = some (T b))
      ∧ T 0#8 = 0#64
      ∧ (∀ k, k < 8 → s.a.read (cellA s.params i (8 * g + k)) = some (T (1#8 <<< k)))
      ∧ (∀ a b : Byte, a &&& b = 0#8 → T (a ||| b) = T a + T b)
      ∧ T 0xFF#8 = ((List.range 8).map fun k => matrixOf s i (8 * g + k)).sum

/-- R143: the table compressor equals the matrix compressor it was derived from, word for word, on every input. -/
def Obligations.TableCompressorEqualsMatrixCompressor : Prop :=
  ∀ (s : State) (x : List Byte), Inv s → s.tableValid = true → x.length = s.params.inputLen →
    ∃ acc : List Word, compressT s.params s.t x = .ok acc ∧ compressA s.params s.a x = .ok acc

/-! ### Streaming -/

/-- R162: SLOAD's beats; it appends its bytes to the staging buffer of its context; bytes that would exceed `BS` trap. -/
def Obligations.SloadStagesBytes : Prop :=
  (∀ (c : BitVec 8) (cnt : BitVec 4) (w : Word), encode (.sload c cnt w) = [0#40 ++ c ++ 0#4 ++ cnt ++ 0x20#8, w])
  ∧ ∀ (s : State) (c : BitVec 8) (cnt : BitVec 4) (w : Word) (k : Context), s.fatal = false → cnt.toNat ≤ 8 →
    c.toNat < s.params.nCtx → s.ctx[c.toNat]? = some k →
    (s.params.blockSize < k.saltCnt + cnt.toNat → exec (.sload c cnt w) s = .next (trapState s 0x20#8 0x87#8))
    ∧ (k.saltCnt + cnt.toNat ≤ s.params.blockSize → ∃ stage : Mem Byte,
        exec (.sload c cnt w) s =
            .next { answered s 0#16 0x20#8 0x00#8 [] with
                    ctx := s.ctx.set c.toNat { k with saltStage := stage, saltCnt := k.saltCnt + cnt.toNat } }
          ∧ (∀ n, n < cnt.toNat → stage.read (k.saltCnt + n) = some (w.extractLsb' (8 * n) 8))
          ∧ ∀ n, (n < k.saltCnt ∨ k.saltCnt + cnt.toNat ≤ n) → stage.read n = k.saltStage.read n)

/-- R163, R165: INIT without a salt: the whole state after it. -/
def Obligations.InitUnsaltedConstructs : Prop :=
  ∀ (s : State) (c : BitVec 8) (csel : Compressor) (k : Context), s.fatal = false → c.toNat < s.params.nCtx →
    s.ctx[c.toNat]? = some k → compressorReady s csel = true →
    exec (.init c csel false) s =
      .next { answered s 0#16 0x21#8 0x00#8 [] with
              ctx := s.ctx.set c.toNat
                { bound := true, phase := .fresh, saltStage := k.saltStage, saltCnt := 0,
                  view := { chain := Mem.ofList (zeros s.params.outputLen), carry := [], carryLen := 0,
                            totalLen := 0#64, salted := false, salt := k.view.salt, csel := csel } } }

/-- R163, R165: INIT with a full staged salt: the salt is taken, and one block of zeros is folded in through the write
path, so that the chain is the compression of `zeros(OL) ++ SALT` and `TOTAL_LEN` is `BS`. -/
def Obligations.InitSaltedFoldsTheSalt : Prop :=
  ∀ (s : State) (c : BitVec 8) (csel : Compressor) (k : Context), Inv s → s.fatal = false →
    c.toNat < s.params.nCtx → s.ctx[c.toNat]? = some k → compressorReady s csel = true →
    k.saltCnt = s.params.blockSize → s.params.blockSize * 8 < lenLimitBits →
    exec (.init c csel true) s =
      .next { answered s 0#16 0x21#8 0x00#8 [] with
              ctx := s.ctx.set c.toNat
                { bound := true, phase := .fresh, saltStage := k.saltStage, saltCnt := 0,
                  view := { chain := Mem.ofList (bytesOfWords (refCompress (matrixOf s) s.params.nRows
                              (zeros s.params.outputLen ++ k.saltStage.map Prod.snd))),
                            carry := [], carryLen := 0, totalLen := BitVec.ofNat 64 s.params.blockSize,
                            salted := true, salt := k.saltStage, csel := csel } } }

/-- R163, R165 with R168: on an instance whose one block already reaches the length limit the fold-in fails, and INIT with
a full staged salt leaves the cleared view, salted. That a failed fold-in is no error is the model's reading (log 12). -/
def Obligations.InitSaltedAtTheLengthLimit : Prop :=
  ∀ (s : State) (c : BitVec 8) (csel : Compressor) (k : Context), Inv s → s.fatal = false →
    c.toNat < s.params.nCtx → s.ctx[c.toNat]? = some k → compressorReady s csel = true →
    k.saltCnt = s.params.blockSize → lenLimitBits ≤ s.params.blockSize * 8 →
    exec (.init c csel true) s =
      .next { answered s 0#16 0x21#8 0x00#8 [] with
              ctx := s.ctx.set c.toNat
                { bound := true, phase := .fresh, saltStage := k.saltStage, saltCnt := 0,
                  view := { chain := Mem.ofList (zeros s.params.outputLen), carry := [], carryLen := 0,
                            totalLen := 0#64, salted := true, salt := k.saltStage, csel := csel } } }

/-- R163: where INIT traps: readiness before the salt's length. -/
def Obligations.InitTraps : Prop :=
  ∀ (s : State) (c : BitVec 8) (csel : Compressor) (salted : Bool) (k : Context), s.fatal = false →
    c.toNat < s.params.nCtx → s.ctx[c.toNat]? = some k →
    (csel = .matrix → s.mptr ≠ s.params.nRows * s.params.mCols →
        exec (.init c csel salted) s = .next (trapState s 0x21#8 0x85#8))
    ∧ (csel = .table → s.tableValid = false → exec (.init c csel salted) s = .next (trapState s 0x21#8 0x85#8))
    ∧ (compressorReady s csel = true → salted = true → k.saltCnt ≠ s.params.blockSize →
        exec (.init c csel salted) s = .next (trapState s 0x21#8 0x87#8))

/-- R160: RESET, WRITE and FINAL on a context that was never constructed trap, after the field
check of WRITE's count and before any other check of theirs. -/
def Obligations.UnboundContextTraps : Prop :=
  ∀ (s : State) (c : BitVec 8) (cnt : BitVec 4) (w : Word) (k : Context), s.fatal = false →
    c.toNat < s.params.nCtx → s.ctx[c.toNat]? = some k → k.bound = false →
    exec (.reset c) s = .next (trapState s 0x22#8 0x88#8)
      ∧ (cnt.toNat ≤ 8 → exec (.write c cnt w) s = .next (trapState s 0x23#8 0x88#8))
      ∧ (8 < cnt.toNat → exec (.write c cnt w) s = .next (trapState s 0x23#8 0x83#8))
      ∧ exec (.final c) s = .next (trapState s 0x24#8 0x88#8)

/-- R164, R165: RESET of a bound context: the whole state after it, unsalted and salted. That a salted one on an instance
whose one block reaches the length limit is left cleared is the model's reading (log 12). -/
def Obligations.ResetReconstructs : Prop :=
  ∀ (s : State) (c : BitVec 8) (k : Context), Inv s → s.fatal = false → c.toNat < s.params.nCtx →
    s.ctx[c.toNat]? = some k → k.bound = true →
    (k.view.salted = false →
      exec (.reset c) s =
        .next { answered s 0#16 0x22#8 0x00#8 [] with
                ctx := s.ctx.set c.toNat
                  { k with phase := .fresh,
                           view := { k.view with chain := Mem.ofList (zeros s.params.outputLen), carry := [],
                                                 carryLen := 0, totalLen := 0#64 } } })
    ∧ (k.view.salted = true → s.params.blockSize * 8 < lenLimitBits →
      exec (.reset c) s =
        .next { answered s 0#16 0x22#8 0x00#8 [] with
                ctx := s.ctx.set c.toNat
                  { k with phase := .fresh,
                           view := { k.view with
                                     chain := Mem.ofList (bytesOfWords (refCompress (matrixOf s) s.params.nRows
                                       (zeros s.params.outputLen ++ k.view.salt.map Prod.snd))),
                                     carry := [], carryLen := 0,
                                     totalLen := BitVec.ofNat 64 s.params.blockSize } } })
    ∧ (k.view.salted = true → lenLimitBits ≤ s.params.blockSize * 8 →
      exec (.reset c) s =
        .next { answered s 0#16 0x22#8 0x00#8 [] with
                ctx := s.ctx.set c.toNat
                  { k with phase := .fresh,
                           view := { k.view with chain := Mem.ofList (zeros s.params.outputLen), carry := [],
                                                 carryLen := 0, totalLen := 0#64 } } })

/-- R168, R169: WRITE to a bound context below the length limit: the bytes join the carry; where they fill a block it is
compressed into the chain and the rest is the carry. -/
def Obligations.WriteAppendsToTheStream : Prop :=
  ∀ (s : State) (c : BitVec 8) (cnt : BitVec 4) (w : Word) (k : Context) (buf : List Byte), Inv s →
    s.fatal = false → c.toNat < s.params.nCtx → s.ctx[c.toNat]? = some k → k.bound = true → cnt.toNat ≤ 8 →
    (k.view.totalLen.toNat + cnt.toNat) * 8 < lenLimitBits →
    buf = k.view.carry.map Prod.snd ++ payloadBytes cnt w →
    ∃ v : View,
      exec (.write c cnt w) s =
          .next { answered s 0#16 0x23#8 0x00#8 [] with
                  ctx := s.ctx.set c.toNat { k with phase := .accumulating, view := v } }
        ∧ v.totalLen.toNat = k.view.totalLen.toNat + cnt.toNat
        ∧ v.salted = k.view.salted ∧ v.salt = k.view.salt ∧ v.csel = k.view.csel
        ∧ (if buf.length < s.params.blockSize then
            v.chain = k.view.chain ∧ v.carry = Mem.ofList buf ∧ v.carryLen = buf.length
          else
            v.chain = Mem.ofList (refBlock (matrixOf s) s.params.nRows (saltOf k.view) (k.view.chain.map Prod.snd)
                (buf.take s.params.blockSize))
              ∧ v.carry = Mem.ofList (buf.drop s.params.blockSize)
              ∧ v.carryLen = buf.length - s.params.blockSize)

/-- R172, R230: a WRITE that would reach the length limit answers `ERR_LENGTH`, is no trap and changes nothing. -/
def Obligations.WriteAtTheLengthLimitChangesNothing : Prop :=
  ∀ (s : State) (c : BitVec 8) (cnt : BitVec 4) (w : Word) (k : Context), s.fatal = false →
    c.toNat < s.params.nCtx → s.ctx[c.toNat]? = some k → k.bound = true → cnt.toNat ≤ 8 →
    lenLimitBits ≤ (k.view.totalLen.toNat + cnt.toNat) * 8 →
    exec (.write c cnt w) s = .next (answered s 0#16 0x23#8 0x01#8 [])

/-- R180, R181: FINAL of a bound context answers the chain of a padded copy, changes nothing else, and answers
`ERR_LENGTH` exactly when the padded length would reach the limit; it never raises `ERR_INTERNAL`. -/
def Obligations.FinalAnswersThePaddedChain : Prop :=
  ∀ (s : State) (c : BitVec 8) (k : Context) (z : Nat) (tail : List Byte), Inv s → s.fatal = false →
    c.toNat < s.params.nCtx → s.ctx[c.toNat]? = some k → k.bound = true →
    z < s.params.blockSize →
    (k.view.totalLen.toNat + 1 + z) % s.params.blockSize = s.params.blockSize - 16 →
    tail = k.view.carry.map Prod.snd ++ (0x01#8 :: zeros z) ++ le64 (BitVec.ofNat 64 (8 * k.view.totalLen.toNat))
      ++ zeros 8 →
    (lenLimitBits ≤ 8 * (k.view.totalLen.toNat + 1 + z + 16) →
        exec (.final c) s = .next (answered s 0#16 0x24#8 0x01#8 []))
    ∧ (8 * (k.view.totalLen.toNat + 1 + z + 16) < lenLimitBits →
        ∃ nd : BitVec 16, (s.params.nRows < 2 ^ 16 → nd.toNat = s.params.nRows)
          ∧ exec (.final c) s = .next (answered s nd 0x24#8 0x00#8
              (wordsOfBytes s.params.nRows
                (refChain (matrixOf s) s.params.nRows s.params.blockSize (saltOf k.view)
                  (tail.length / s.params.blockSize) (k.view.chain.map Prod.snd) tail))))

/-- R182: padding bounds: after `pad1` the length is `P` modulo `BS`, after the suffix 0, and the padding is 17 to
`BS + 16` bytes. -/
def Obligations.PaddingBounds : Prop :=
  ∀ (p : Params) (t : Nat), p.Buildable →
    (t + (pad1 p t).length) % p.blockSize = p.padTarget
      ∧ (t + (pad1 p t).length + (padSuffix t).length) % p.blockSize = 0
      ∧ 17 ≤ (pad1 p t).length + (padSuffix t).length
      ∧ (pad1 p t).length + (padSuffix t).length ≤ p.blockSize + 16

/-- R11, R62, R63, R64, R83: byte `n` of `LE64(w)` is `w[8n+7:8n]`, little-endian words and bytes are inverse, the rows of
a chain and the length suffix are laid out so, and a payload's bytes do not depend on the bits above
them. -/
def Obligations.LittleEndianBytes : Prop :=
  (∀ w : Word, w64 (le64 w) = w ∧ (le64 w).length = 8 ∧ ∀ n, n < 8 → (le64 w)[n]? = some (w.extractLsb' (8 * n) 8))
    ∧ (∀ b : List Byte, b.length = 8 → le64 (w64 b) = b)
    ∧ (∀ (ws : List Word) (i n : Nat) (w : Word), ws[i]? = some w → n < 8 →
        (bytesOfWords ws)[8 * i + n]? = some (w.extractLsb' (8 * n) 8))
    ∧ (∀ t n : Nat, n < 16 →
        (padSuffix t)[n]? = some (if n < 8 then (BitVec.ofNat 64 (8 * t)).extractLsb' (8 * n) 8 else 0#8))
    ∧ (∀ (cnt : BitVec 4) (w : Word), (payloadBytes cnt w).length = cnt.toNat
        ∧ ∀ n, n < cnt.toNat → (payloadBytes cnt w)[n]? = some (w.extractLsb' (8 * n) 8))
    ∧ ∀ (cnt : BitVec 4) (w w' : Word), (∀ n, n < 8 * cnt.toNat → w.getLsbD n = w'.getLsbD n) →
        payloadBytes cnt w = payloadBytes cnt w'

/-- R170: how a message is cut into WRITE commands does not matter: two lists of writes with the same bytes, below the
length limit, both succeed and leave the same view, whatever the cut. -/
def Obligations.SplitOfWritesDoesNotMatter : Prop :=
  ∀ (s : State) (c : BitVec 8) (k : Context) (ws ws' : List (BitVec 4 × Word)), Inv s → s.fatal = false →
    c.toNat < s.params.nCtx → s.ctx[c.toNat]? = some k → k.bound = true →
    (∀ x ∈ ws, x.1.toNat ≤ 8) → (∀ x ∈ ws', x.1.toNat ≤ 8) → messageOf ws = messageOf ws' →
    (k.view.totalLen.toNat + (messageOf ws).length) * 8 < lenLimitBits →
    ∃ t t' : State, execAll (writesOf c ws) s = .next t ∧ execAll (writesOf c ws') s = .next t'
      ∧ (ctxAt t c).view = (ctxAt t' c).view

/-- R163 to R181 together: INIT, any writes, then FINAL answer the Merkle-Damgard hash of the message over the closed
sums, padded as R181 says; with a salt, the stream begins with the fold-in block and every block is XORed with it. -/
def Obligations.DigestIsThePaddedChainHash : Prop :=
  ∀ (s : State) (c : BitVec 8) (k : Context) (csel : Compressor) (salted : Bool) (ws : List (BitVec 4 × Word))
    (m : List Byte), Inv s → s.fatal = false → c.toNat < s.params.nCtx → s.ctx[c.toNat]? = some k →
    compressorReady s csel = true → (salted = true → k.saltCnt = s.params.blockSize) →
    (∀ x ∈ ws, x.1.toNat ≤ 8) →
    m = (if salted then zeros s.params.blockSize else []) ++ messageOf ws →
    8 * (m.length + (pad1 s.params m.length).length + 16) < lenLimitBits →
    ∃ (t : State) (nd : BitVec 16) (q : List Word),
      execAll (.init c csel salted :: (writesOf c ws ++ [.final c])) s = .next t
        ∧ (s.params.nRows < 2 ^ 16 → nd.toNat = s.params.nRows)
        ∧ t.respq = q ++ refBeat nd 0x24#8 0x00#8 ::
            refDigest (matrixOf s) s.params (if salted then some (k.saltStage.map Prod.snd) else none) m

/-- R184: FINAL twice answers the same words, and a FINAL in between does not change what WRITE then FINAL answer. -/
def Obligations.FinalIsNonDestructive : Prop :=
  ∀ (s : State) (c : BitVec 8) (k : Context) (cnt : BitVec 4) (w : Word), Inv s → s.fatal = false →
    c.toNat < s.params.nCtx → s.ctx[c.toNat]? = some k → k.bound = true → cnt.toNat ≤ 8 →
    ∃ (t0 t00 t1 t2 : State) (r0 r : List Word) (x : Word),
      exec (.final c) s = .next t0 ∧ t0 = { s with respq := s.respq ++ r0 }
        ∧ exec (.final c) t0 = .next t00 ∧ t00 = { s with respq := s.respq ++ r0 ++ r0 }
        ∧ execAll [.write c cnt w, .final c] s = .next t1 ∧ t1.respq = s.respq ++ [x] ++ r
        ∧ execAll [.final c, .write c cnt w, .final c] s = .next t2
        ∧ t2 = { t1 with respq := s.respq ++ r0 ++ [x] ++ r }

/-- R185: RESET leaves a context as an INIT with the same options, its salt staged again, does. -/
def Obligations.ResetEqualsFreshInit : Prop :=
  ∀ (s : State) (c : BitVec 8) (k : Context), Inv s → s.fatal = false → c.toNat < s.params.nCtx →
    s.ctx[c.toNat]? = some k → k.bound = true →
    ∃ t u : State, exec (.reset c) s = .next t
      ∧ exec (.init c k.view.csel k.view.salted)
          (setCtx s c (if k.view.salted then { k with saltStage := k.view.salt, saltCnt := s.params.blockSize } else k))
          = .next u
      ∧ (ctxAt t c).view = (ctxAt u c).view ∧ (ctxAt t c).phase = (ctxAt u c).phase
      ∧ (ctxAt t c).bound = (ctxAt u c).bound

/-- R186: a context bound to the matrix and the same context bound to the derived table answer every command alike and
stay alike, but for `STAT` of that context, whose `S0` shows `CSEL` at bit 4 and nothing else of it (R205), and for
`INIT` of that context, which answers alike and sets `CSEL` itself (R163). -/
def Obligations.CompressorChoiceIsInvisible : Prop :=
  ∀ (s : State) (c : BitVec 8), Inv s → s.tableValid = true → c.toNat < s.params.nCtx →
    (∀ i : Instr, i ≠ .stat c → (∀ csel salted, i ≠ .init c csel salted) →
      ∃ t : State, exec i (withCsel s c .matrix) = .next (withCsel t c .matrix)
        ∧ exec i (withCsel s c .table) = .next (withCsel t c .table))
    ∧ (∀ (csel : Compressor) (salted : Bool), ∃ t t' : State,
        exec (.init c csel salted) (withCsel s c .matrix) = .next t
          ∧ exec (.init c csel salted) (withCsel s c .table) = .next t'
          ∧ withCsel t c .matrix = withCsel t' c .matrix)
    ∧ ∃ (s0 s0' : Word) (data : List Word),
        exec (.stat c) (withCsel s c .matrix) = .next (answered (withCsel s c .matrix) 4#16 0x02#8 0x00#8 (s0 :: data))
          ∧ exec (.stat c) (withCsel s c .table) = .next (answered (withCsel s c .table) 4#16 0x02#8 0x00#8 (s0' :: data))
          ∧ ∀ n, n ≠ 4 → s0.getLsbD n = s0'.getLsbD n

/-- R188: after the fold-in a salted view holds the chain, count and carry that an unsalted one holds after the salt as
its first `BS` bytes. -/
def Obligations.SaltFoldInEqualsSaltAsMessage : Prop :=
  ∀ (s : State) (v : View), Inv s → ViewInv s v → v.salted = true → s.params.blockSize * 8 < lenLimitBits →
    ∃ x y : View, resetView s v = .ok x
      ∧ writePath s { clearView s.params v with salted := false } (v.salt.map Prod.snd) = .ok (some y)
      ∧ x.chain = y.chain ∧ x.totalLen = y.totalLen ∧ x.carryLen = y.carryLen ∧ x.carry = y.carry

/-- R183: on Sumhash512 the unsalted digest of the empty message is column 512 of the matrix. -/
def Obligations.EmptyDigestOfSumhash512 : Prop :=
  ∀ (s : State) (c : BitVec 8) (csel : Compressor), Inv s → s.fatal = false → s.params.nRows = 8 →
    s.params.mCols = 1024 → c.toNat < s.params.nCtx → compressorReady s csel = true →
    ∃ (t : State) (q : List Word), execAll [.init c csel false, .final c] s = .next t
      ∧ t.respq = q ++ refBeat 8#16 0x24#8 0x00#8 :: (List.range 8).map fun i => matrixOf s i 512

/-! ### Timing -/

/-- R275, with the latency as the model's open function of what R275 names (log 13): it does not depend on data: on two states that differ in payload, matrix, table, source,
salt, chain and carry bytes only, a command with the same header takes as long, answers the same status, and leaves two
states that again differ in data only. -/
def Obligations.TimingIsDataIndependent : Prop :=
  ∀ (s s' : State) (i i' : Instr), Inv s → Inv s' → SameControl s s' → encodeHeader i = encodeHeader i' →
    latencyOf i s = latencyOf i' s'
      ∧ ∃ t t' : State, exec i s = .next t ∧ exec i' s' = .next t' ∧ SameControl t t'
          ∧ responseStatus s t = responseStatus s' t'
end

