-- ==== Sys2Proof/Laws/Memory.lean ====
section
/-! SUPPORT. What the memory operations do: read after write, the canonical form, reads of a whole range. -/

namespace Sys2Proof.Machine

variable {α β : Type}

/-! ### Read after write -/

@[simp] theorem Mem.read_nil (k : Nat) : Mem.read ([] : Mem α) k = none := rfl

theorem Mem.read_cons (i : Nat) (v : α) (m : Mem α) (k : Nat) :
    Mem.read ((i, v) :: m) k = if i = k then some v else m.read k := rfl

theorem Mem.read_write_same (m : Mem α) (k : Nat) (v : α) : (m.write k v).read k = some v := by
  induction m with
  | nil => simp [Mem.write, Mem.read]
  | cons e m ih =>
    obtain ⟨i, u⟩ := e
    simp only [Mem.write]
    split
    · simp [Mem.read]
    · split
      · simp [Mem.read]
      · rename_i h1 h2
        simp [Mem.read, Ne.symm h2, ih]

theorem Mem.read_write_other (m : Mem α) {k j : Nat} (v : α) (h : j ≠ k) : (m.write k v).read j = m.read j := by
  induction m with
  | nil => simp [Mem.write, Mem.read, Ne.symm h]
  | cons e m ih =>
    obtain ⟨i, u⟩ := e
    simp only [Mem.write]
    split
    · simp [Mem.read, Ne.symm h]
    · split
      · rename_i h1 h2; subst h2; simp [Mem.read, Ne.symm h]
      · simp [Mem.read, ih]

theorem Mem.read_write (m : Mem α) (k j : Nat) (v : α) :
    (m.write k v).read j = if j = k then some v else m.read j := by
  split
  · subst_vars; exact m.read_write_same _ v
  · exact m.read_write_other v ‹_›

/-- What a byte string written at `lo` leaves readable at index `j`. -/
theorem Mem.read_writeRange (vs : List α) : ∀ (m : Mem α) (lo j : Nat),
    (m.writeRange lo vs).read j = if lo ≤ j ∧ j < lo + vs.length then vs[j - lo]? else m.read j := by
  induction vs with
  | nil => intro m lo j; simp [Mem.writeRange]
  | cons v vs ih =>
    intro m lo j
    rw [Mem.writeRange, ih, Mem.read_write]
    by_cases h1 : j = lo
    · subst h1; simp
    · by_cases h2 : lo + 1 ≤ j ∧ j < lo + 1 + vs.length
      · have e : j - lo = (j - (lo + 1)) + 1 := by omega
        rw [if_pos h2, if_pos (by simp; omega), e]; simp
      · rw [if_neg h2, if_neg h1, if_neg (by simp; omega)]

/-! ### The canonical form -/

theorem Mem.mem_keys_write (m : Mem α) (k : Nat) (v : α) (x : Nat) :
    x ∈ (m.write k v).map Prod.fst → x = k ∨ x ∈ m.map Prod.fst := by
  induction m with
  | nil => simp [Mem.write]
  | cons e m ih =>
    obtain ⟨i, u⟩ := e
    simp only [Mem.write]
    split
    · simp
    · split
      · simp; tauto
      · simp only [List.map_cons, List.mem_cons]
        rintro (h | h)
        · exact .inr (.inl h)
        · exact (ih h).imp id .inr

/-- A write keeps the canonical form. -/
theorem Mem.write_wf (m : Mem α) (k : Nat) (v : α) (h : m.wf) : (m.write k v).wf := by
  induction m with
  | nil => simp [Mem.write, Mem.wf]
  | cons e m ih =>
    obtain ⟨i, u⟩ := e
    simp only [Mem.wf, List.map_cons, List.pairwise_cons] at h
    simp only [Mem.write]
    split
    · rename_i hk
      simp only [Mem.wf, List.map_cons, List.pairwise_cons, List.mem_cons]
      refine ⟨?_, h⟩
      rintro a (rfl | ha)
      · exact hk
      · exact hk.trans (h.1 a ha)
    · split
      · rename_i _ hk; subst hk
        exact List.pairwise_cons.2 h
      · rename_i h1 h2
        refine List.pairwise_cons.2 ⟨?_, ih h.2⟩
        intro a ha
        rcases Mem.mem_keys_write m k v a ha with rfl | ha
        · show i < a; omega
        · exact h.1 a ha

/-- A string of writes keeps the canonical form. -/
theorem Mem.writeRange_wf (vs : List α) : ∀ (m : Mem α) (lo : Nat), m.wf → (m.writeRange lo vs).wf := by
  induction vs with
  | nil => intro m lo h; exact h
  | cons v vs ih => intro m lo h; exact ih _ _ (m.write_wf lo v h)

@[simp] theorem Mem.fromList_keys (vs : List α) : ∀ lo, (Mem.fromList lo vs).map Prod.fst = List.range' lo vs.length := by
  induction vs with
  | nil => intro lo; rfl
  | cons v vs ih => intro lo; simp [Mem.fromList, ih, List.range'_succ]

@[simp] theorem Mem.fromList_values (vs : List α) : ∀ lo, (Mem.fromList lo vs).map Prod.snd = vs := by
  induction vs with
  | nil => intro lo; rfl
  | cons v vs ih => intro lo; simp [Mem.fromList, ih]

@[simp] theorem Mem.fromList_length (vs : List α) (lo : Nat) : (Mem.fromList lo vs).length = vs.length := by
  rw [← List.length_map (f := Prod.snd), Mem.fromList_values]

@[simp] theorem Mem.ofList_length (vs : List α) : (Mem.ofList vs).length = vs.length := Mem.fromList_length vs 0

@[simp] theorem Mem.ofList_values (vs : List α) : (Mem.ofList vs).map Prod.snd = vs := Mem.fromList_values vs 0

@[simp] theorem Mem.ofList_dense (vs : List α) : (Mem.ofList vs).dense := by
  simp [Mem.dense, Mem.ofList, List.range_eq_range']

@[simp] theorem Mem.nil_dense : Mem.dense ([] : Mem α) := rfl

/-- A memory listed from 0 on without a hole is in canonical form. -/
theorem Mem.dense_wf {m : Mem α} (h : m.dense) : m.wf := by
  rw [Mem.wf, h]; exact List.pairwise_lt_range

/-- The memory that holds exactly a string is in canonical form. -/
theorem Mem.ofList_wf (vs : List α) : (Mem.ofList vs).wf := Mem.dense_wf (Mem.ofList_dense vs)

theorem Mem.read_fromList (vs : List α) : ∀ lo k, (Mem.fromList lo vs).read k = if lo ≤ k then vs[k - lo]? else none := by
  induction vs with
  | nil => intro lo k; simp [Mem.fromList]
  | cons v vs ih =>
    intro lo k
    rw [Mem.fromList, Mem.read_cons, ih]
    by_cases h : lo = k
    · subst h; simp
    · by_cases h2 : lo + 1 ≤ k
      · have e : k - lo = (k - (lo + 1)) + 1 := by omega
        rw [if_neg h, if_pos h2, if_pos (by omega), e]; simp
      · rw [if_neg h, if_neg h2, if_neg (by omega)]

theorem Mem.read_ofList (vs : List α) (k : Nat) : (Mem.ofList vs).read k = vs[k]? := by
  simp [Mem.ofList, Mem.read_fromList]

/-- A dense memory is the memory of its values. -/
theorem Mem.eq_fromList_of_keys (m : Mem α) : ∀ lo, m.map Prod.fst = List.range' lo m.length →
    m = Mem.fromList lo (m.map Prod.snd) := by
  induction m with
  | nil => intro lo _; rfl
  | cons e m ih =>
    obtain ⟨i, v⟩ := e
    intro lo h
    simp only [List.map_cons, List.length_cons, List.range'_succ, List.cons.injEq] at h
    obtain ⟨h1, h2⟩ := h
    subst h1
    simp only [List.map_cons, Mem.fromList]
    rw [← ih _ h2]

theorem Mem.dense_eq {m : Mem α} (h : m.dense) : m = Mem.ofList (m.map Prod.snd) :=
  Mem.eq_fromList_of_keys m 0 (by simpa [Mem.dense, List.range_eq_range'] using h)

theorem Mem.dense_read {m : Mem α} (h : m.dense) (k : Nat) : m.read k = (m.map Prod.snd)[k]? := by
  conv_lhs => rw [Mem.dense_eq h]
  exact Mem.read_ofList _ k

/-- Writing a string onto a dense memory, from an index it reaches, leaves a dense memory. -/
theorem Mem.write_fromList (vs : List α) (v : α) : ∀ lo k, k ≤ vs.length →
    (Mem.fromList lo vs).write (lo + k) v =
      Mem.fromList lo (if k = vs.length then vs ++ [v] else vs.set k v) := by
  induction vs with
  | nil => intro lo k hk; have : k = 0 := by simpa using hk
           subst this; simp [Mem.fromList, Mem.write]
  | cons u vs ih =>
    intro lo k hk
    cases k with
    | zero => simp [Mem.fromList, Mem.write]
    | succ k =>
      have e : lo + (k + 1) = (lo + 1) + k := by omega
      simp only [Mem.fromList, Mem.write]
      rw [if_neg (by omega), if_neg (by omega), e, ih _ _ (by simpa using hk)]
      by_cases h : k = vs.length
      · simp [h, Mem.fromList]
      · simp [h, Mem.fromList]

theorem Mem.write_dense {m : Mem α} (h : m.dense) {k : Nat} (hk : k ≤ m.length) (v : α) :
    (m.write k v).dense ∧ (m.write k v).length = max m.length (k + 1) := by
  have e := Mem.dense_eq h
  have hk' : k ≤ (m.map Prod.snd).length := by simpa using hk
  have w := Mem.write_fromList (m.map Prod.snd) v 0 k hk'
  rw [Nat.zero_add] at w
  rw [e]; unfold Mem.ofList; rw [w]
  refine ⟨Mem.ofList_dense _, ?_⟩
  simp only [Mem.fromList_length, List.length_map]
  split <;> simp <;> omega

theorem Mem.writeRange_dense (vs : List α) : ∀ {m : Mem α}, m.dense → ∀ {lo : Nat}, lo ≤ m.length →
    (m.writeRange lo vs).dense ∧ (m.writeRange lo vs).length = max m.length (lo + vs.length) := by
  induction vs with
  | nil => intro m h lo hl; exact ⟨h, by simp [Mem.writeRange]; omega⟩
  | cons v vs ih =>
    intro m h lo hl
    obtain ⟨d, l⟩ := Mem.write_dense h hl v
    obtain ⟨d', l'⟩ := ih d (lo := lo + 1) (by omega)
    refine ⟨d', ?_⟩
    rw [Mem.writeRange, l', l]; simp; omega

/-! ### `collect` and reads of a range -/

theorem bind_ok {m : Except Fault α} {f : α → Except Fault β} {b : β} (h : (m >>= f) = .ok b) :
    ∃ a, m = .ok a ∧ f a = .ok b := by
  cases m with
  | ok a => exact ⟨a, rfl, h⟩
  | error e => cases h

theorem pure_ok {a b : α} (h : (pure a : Except Fault α) = .ok b) : b = a := by cases h; rfl

theorem collect_ok (f : α → Except Fault β) (g : α → β) (l : List α) (h : ∀ x ∈ l, f x = .ok (g x)) :
    collect f l = .ok (l.map g) := by
  induction l with
  | nil => rfl
  | cons x l ih =>
    simp only [collect, h x (by simp), ih (fun y hy => h y (by simp [hy]))]
    rfl

theorem collect_inv {f : α → Except Fault β} {l : List α} {ys : List β} (h : collect f l = .ok ys) :
    List.Forall₂ (fun x y => f x = .ok y) l ys := by
  induction l generalizing ys with
  | nil => cases h; exact .nil
  | cons x l ih =>
    simp only [collect] at h
    cases hx : f x with
    | error e => simp [hx, bind, Except.bind] at h
    | ok y =>
      cases hl : collect f l with
      | error e => simp [hx, hl, bind, Except.bind] at h
      | ok zs =>
        simp only [hx, hl, bind, Except.bind, pure, Except.pure, Except.ok.injEq] at h
        subst h
        exact .cons hx (ih hl)

theorem collect_length {f : α → Except Fault β} {l : List α} {ys : List β} (h : collect f l = .ok ys) :
    ys.length = l.length := (collect_inv h).length_eq.symm

/-- A fetch answers the value read. -/
theorem Mem.fetch_ok_iff (m : Mem α) (place : Store) (k : Nat) (v : α) :
    m.fetch place k = .ok v ↔ m.read k = some v := by
  unfold Mem.fetch; split <;> simp_all

/-- Reading a range of a memory that holds a string from 0 on. -/
theorem Mem.readRange_dense {m : Mem α} (h : m.dense) (place : Store) {lo n : Nat} (hl : lo + n ≤ m.length) :
    m.readRange place lo n = .ok (((m.map Prod.snd).drop lo).take n) := by
  have hlen : (m.map Prod.snd).length = m.length := by simp
  cases hd : (m.map Prod.snd) with
  | nil =>
    have : m.length = 0 := by rw [← hlen, hd]; rfl
    have : n = 0 := by omega
    subst this; simp [Mem.readRange, collect]
  | cons d _ =>
    rw [← hd, Mem.readRange, collect_ok _ (fun k => (m.map Prod.snd).getD (lo + k) d)]
    · congr 1
      apply List.ext_getElem?
      intro i
      by_cases hi : i < n
      · have hi' : lo + i < (m.map Prod.snd).length := by omega
        simp only [List.getElem?_map, List.getElem?_range hi, Option.map_some, List.getElem?_take_of_lt hi,
          List.getElem?_drop, List.getD_eq_getElem?_getD]
        rw [← List.getElem?_map, List.getElem?_eq_getElem hi']
        rfl
      · simp only [List.getElem?_eq_none_iff.2 (show (List.map _ (List.range n)).length ≤ i by simp; omega)]
        symm
        apply List.getElem?_eq_none_iff.2
        simp; omega
    · intro k hk
      have hk' : lo + k < (m.map Prod.snd).length := by simp at hk ⊢; omega
      rw [Mem.fetch_ok_iff, Mem.dense_read h, List.getElem?_eq_getElem hk', List.getD_eq_getElem?_getD,
        List.getElem?_eq_getElem hk']
      rfl

/-- Reading back a whole string. -/
theorem Mem.readRange_ofList (vs : List α) (place : Store) {n : Nat} (h : n = vs.length) :
    (Mem.ofList vs).readRange place 0 n = .ok vs := by
  rw [Mem.readRange_dense (Mem.ofList_dense vs) place (by simp [h])]
  simp [h]

theorem Mem.readRange_length {m : Mem α} {place : Store} {lo n : Nat} {vs : List α}
    (h : m.readRange place lo n = .ok vs) : vs.length = n := by
  simpa using collect_length h

end Sys2Proof.Machine
end

