-- ==== Sys2Proof/Laws/State.lean ====
section
/-! SUPPORT. One lemma per field for each update of the state, so that no later proof unfolds one. -/

namespace Sys2Proof.Machine

variable (opc : Byte) (st : Status) (data : List Word) (s : State) (c : BitVec 8) (k : Context) (w : Word)

/-! ### `respond` -/

@[simp] theorem respond_params : (respond opc st data s).params = s.params := rfl
@[simp] theorem respond_fatal : (respond opc st data s).fatal = s.fatal := rfl
@[simp] theorem respond_errcode : (respond opc st data s).errcode = s.errcode := rfl
@[simp] theorem respond_erropc : (respond opc st data s).erropc = s.erropc := rfl
@[simp] theorem respond_mptr : (respond opc st data s).mptr = s.mptr := rfl
@[simp] theorem respond_a : (respond opc st data s).a = s.a := rfl
@[simp] theorem respond_tableValid : (respond opc st data s).tableValid = s.tableValid := rfl
@[simp] theorem respond_t : (respond opc st data s).t = s.t := rfl
@[simp] theorem respond_src : (respond opc st data s).src = s.src := rfl
@[simp] theorem respond_srcCnt : (respond opc st data s).srcCnt = s.srcCnt := rfl
@[simp] theorem respond_respq :
    (respond opc st data s).respq = s.respq ++ statusBeat st opc data.length :: data := rfl
@[simp] theorem respond_ctx : (respond opc st data s).ctx = s.ctx := rfl
@[simp] theorem respond_cmdq : (respond opc st data s).cmdq = s.cmdq := rfl
@[simp] theorem respond_turns : (respond opc st data s).turns = s.turns := rfl
@[simp] theorem respond_received : (respond opc st data s).received = s.received := rfl

/-! ### `raise` -/

@[simp] theorem raise_params : (raise opc st s).params = s.params := by unfold raise; split <;> rfl
@[simp] theorem raise_fatal : (raise opc st s).fatal = true := by unfold raise; split <;> simp_all
@[simp] theorem raise_mptr : (raise opc st s).mptr = s.mptr := by unfold raise; split <;> rfl
@[simp] theorem raise_a : (raise opc st s).a = s.a := by unfold raise; split <;> rfl
@[simp] theorem raise_tableValid : (raise opc st s).tableValid = s.tableValid := by unfold raise; split <;> rfl
@[simp] theorem raise_t : (raise opc st s).t = s.t := by unfold raise; split <;> rfl
@[simp] theorem raise_src : (raise opc st s).src = s.src := by unfold raise; split <;> rfl
@[simp] theorem raise_srcCnt : (raise opc st s).srcCnt = s.srcCnt := by unfold raise; split <;> rfl
@[simp] theorem raise_respq : (raise opc st s).respq = s.respq ++ [statusBeat st opc 0] := by
  unfold raise; split <;> rfl
@[simp] theorem raise_ctx : (raise opc st s).ctx = s.ctx := by unfold raise; split <;> rfl
@[simp] theorem raise_cmdq : (raise opc st s).cmdq = s.cmdq := by unfold raise; split <;> rfl
@[simp] theorem raise_turns : (raise opc st s).turns = s.turns := by unfold raise; split <;> rfl
@[simp] theorem raise_received : (raise opc st s).received = s.received := by unfold raise; split <;> rfl

/-- The trap from a state that is not fatal, in full (60_exceptions.md R228). -/
theorem raise_of_not_fatal (h : s.fatal = false) :
    raise opc st s = { s with fatal := true, errcode := st.code, erropc := opc,
                              respq := s.respq ++ [statusBeat st opc 0] } := by
  unfold raise; rw [h]; rfl

/-- A violation while the fatal state stands leaves the record (60_exceptions.md R231). -/
theorem raise_of_fatal (h : s.fatal = true) : raise opc st s = { s with respq := s.respq ++ [statusBeat st opc 0] } := by
  simp [raise, h, respond]

/-! ### `refuseFatal` -/

theorem refuseFatal_eq : refuseFatal opc s = { s with respq := s.respq ++ [statusBeat .errFatalState opc 0] } := rfl

/-! ### `setCtx` -/

@[simp] theorem setCtx_params : (setCtx s c k).params = s.params := rfl
@[simp] theorem setCtx_fatal : (setCtx s c k).fatal = s.fatal := rfl
@[simp] theorem setCtx_errcode : (setCtx s c k).errcode = s.errcode := rfl
@[simp] theorem setCtx_erropc : (setCtx s c k).erropc = s.erropc := rfl
@[simp] theorem setCtx_mptr : (setCtx s c k).mptr = s.mptr := rfl
@[simp] theorem setCtx_a : (setCtx s c k).a = s.a := rfl
@[simp] theorem setCtx_tableValid : (setCtx s c k).tableValid = s.tableValid := rfl
@[simp] theorem setCtx_t : (setCtx s c k).t = s.t := rfl
@[simp] theorem setCtx_src : (setCtx s c k).src = s.src := rfl
@[simp] theorem setCtx_srcCnt : (setCtx s c k).srcCnt = s.srcCnt := rfl
@[simp] theorem setCtx_respq : (setCtx s c k).respq = s.respq := rfl
@[simp] theorem setCtx_ctx : (setCtx s c k).ctx = s.ctx.set c.toNat k := rfl
@[simp] theorem setCtx_cmdq : (setCtx s c k).cmdq = s.cmdq := rfl
@[simp] theorem setCtx_turns : (setCtx s c k).turns = s.turns := rfl
@[simp] theorem setCtx_received : (setCtx s c k).received = s.received := rfl

/-- Reading the context just written. -/
theorem ctxAt_setCtx_same (h : c.toNat < s.ctx.length) : ctxAt (setCtx s c k) c = k := by
  simp [ctxAt, h]

/-- Writing one context leaves every other one alone. -/
theorem ctxAt_setCtx_other {d : BitVec 8} (h : d ≠ c) : ctxAt (setCtx s c k) d = ctxAt s d := by
  have : c.toNat ≠ d.toNat := fun e => h (BitVec.eq_of_toNat_eq e.symm)
  simp [ctxAt, this]

/-! ### The channel's updates -/

@[simp] theorem takeBeat_params : (takeBeat s).params = s.params := by unfold takeBeat; split <;> rfl
@[simp] theorem takeBeat_fatal : (takeBeat s).fatal = s.fatal := by unfold takeBeat; split <;> rfl
@[simp] theorem takeBeat_errcode : (takeBeat s).errcode = s.errcode := by unfold takeBeat; split <;> rfl
@[simp] theorem takeBeat_erropc : (takeBeat s).erropc = s.erropc := by unfold takeBeat; split <;> rfl
@[simp] theorem takeBeat_mptr : (takeBeat s).mptr = s.mptr := by unfold takeBeat; split <;> rfl
@[simp] theorem takeBeat_a : (takeBeat s).a = s.a := by unfold takeBeat; split <;> rfl
@[simp] theorem takeBeat_tableValid : (takeBeat s).tableValid = s.tableValid := by unfold takeBeat; split <;> rfl
@[simp] theorem takeBeat_t : (takeBeat s).t = s.t := by unfold takeBeat; split <;> rfl
@[simp] theorem takeBeat_src : (takeBeat s).src = s.src := by unfold takeBeat; split <;> rfl
@[simp] theorem takeBeat_srcCnt : (takeBeat s).srcCnt = s.srcCnt := by unfold takeBeat; split <;> rfl
@[simp] theorem takeBeat_ctx : (takeBeat s).ctx = s.ctx := by unfold takeBeat; split <;> rfl
@[simp] theorem takeBeat_cmdq : (takeBeat s).cmdq = s.cmdq := by unfold takeBeat; split <;> rfl
@[simp] theorem takeBeat_turns : (takeBeat s).turns = s.turns := by unfold takeBeat; split <;> rfl

/-- Taking a beat moves the head of the queue to the host, and nothing else of the block changes. -/
theorem takeBeat_respq_le : (takeBeat s).respq.length ≤ s.respq.length := by
  unfold takeBeat; split <;> simp_all

@[simp] theorem sendBeat_cmdq : (sendBeat w s).cmdq = s.cmdq ++ [w] := rfl
@[simp] theorem powerOnReset_turns : (powerOnReset s).turns = s.turns := rfl
@[simp] theorem powerOnReset_received : (powerOnReset s).received = s.received := rfl
@[simp] theorem powerOnReset_params : (powerOnReset s).params = s.params := rfl

/-! ### The view's updates -/

@[simp] theorem clearView_csel (p : Params) (v : View) : (clearView p v).csel = v.csel := rfl
@[simp] theorem clearView_salted (p : Params) (v : View) : (clearView p v).salted = v.salted := rfl
@[simp] theorem clearView_salt (p : Params) (v : View) : (clearView p v).salt = v.salt := rfl
@[simp] theorem clearView_chain (p : Params) (v : View) :
    (clearView p v).chain = Mem.ofList (zeros p.outputLen) := rfl
@[simp] theorem clearView_carry (p : Params) (v : View) : (clearView p v).carry = [] := rfl
@[simp] theorem clearView_carryLen (p : Params) (v : View) : (clearView p v).carryLen = 0 := rfl
@[simp] theorem clearView_totalLen (p : Params) (v : View) : (clearView p v).totalLen = 0#64 := rfl

end Sys2Proof.Machine
end

