-- ==== Sys2Proof/Laws/Commands.lean ====
section
/-! SUPPORT. What a command can do, said once: `exec_cases` lists every answer `exec` can give, and `exec_completed`
goes the other way. Later proofs cite these and unfold no meaning. -/

namespace Sys2Proof.Machine

/-! ### The checks -/

/-- The checks pass a command that is not refused and whose operands are legal. -/
theorem fieldChecked_pass {op : Opcode} {c : Option (BitVec 8)} {cnt : Option (BitVec 4)} {s : State} {body : Res}
    (hf : s.fatal = false ∨ op.isStatus = true) (hn : ∀ n ∈ cnt, n.toNat ≤ 8)
    (hc : ∀ k ∈ c, k.toNat < s.params.nCtx) : fieldChecked op c cnt s body = body := by
  unfold fieldChecked
  rw [if_neg (by rcases hf with h | h <;> simp [h])]
  rw [if_neg (by cases cnt with
    | none => simp
    | some n => have := hn n rfl; simp; omega)]
  rw [if_neg (by cases c with
    | none => simp
    | some k => have := hc k rfl; simp; omega)]

/-- Everything the checks can answer (30_encoding.md R100 steps 2, 4, 5). -/
theorem fieldChecked_cases {op : Opcode} {c : Option (BitVec 8)} {cnt : Option (BitVec 4)} {s : State} {body r : Res}
    (h : fieldChecked op c cnt s body = r) :
    (s.fatal = true ∧ op.isStatus = false ∧ r = .next (refuseFatal op.byte s))
      ∨ ((s.fatal = false ∨ op.isStatus = true)
          ∧ (r = .next (raise op.byte .errCnt s)
            ∨ r = .next (raise op.byte .errCtx s)
            ∨ ((∀ n ∈ cnt, n.toNat ≤ 8) ∧ (∀ k ∈ c, k.toNat < s.params.nCtx) ∧ r = body))) := by
  unfold fieldChecked at h
  split at h
  · rename_i hf; left; simp at hf; exact ⟨hf.1, hf.2, h.symm⟩
  · rename_i hf
    right
    refine ⟨by revert hf; cases s.fatal <;> cases op.isStatus <;> simp, ?_⟩
    split at h
    · exact .inl h.symm
    · rename_i hn
      split at h
      · exact .inr (.inl h.symm)
      · rename_i hc
        refine .inr (.inr ⟨?_, ?_, h.symm⟩)
        · rintro n hn'; rw [Option.mem_def] at hn'; subst hn'; simpa using hn
        · rintro k hk; rw [Option.mem_def] at hk; subst hk; simpa using hc

/-! ### The effects -/

/-- What a command that answers `OK` with `data` has done: `u` is the state it leaves, but for the response. -/
def Completed (s : State) : Instr → State → List Word → Prop
  | .nop, u, data => u = s ∧ data = []
  | .info, u, data => u = s ∧ data = infoWords s.params
  | .stat c, u, data => u = s ∧ data = statWords s (ctxAt s c)
  | .mload w, u, data =>
    s.mptr ≠ s.params.matrixWords ∧ data = [] ∧
      u = { s with a := s.a.write (cellA s.params (s.mptr / s.params.mCols) (s.mptr % s.params.mCols)) w,
                   mptr := s.mptr + 1 }
  | .tderive, u, data =>
    matrixValid s = true ∧ data = [] ∧
      ∃ t, deriveTable s.params s.a = .ok t ∧ u = { s with t := t, tableValid := true }
  | .sload c cnt w, u, data =>
    (ctxAt s c).saltCnt + cnt.toNat ≤ s.params.blockSize ∧ data = [] ∧
      u = setCtx s c { ctxAt s c with
        saltStage := (ctxAt s c).saltStage.writeRange (ctxAt s c).saltCnt (payloadBytes cnt w),
        saltCnt := (ctxAt s c).saltCnt + cnt.toNat }
  | .init c csel salted, u, data =>
    compressorReady s csel = true ∧ (salted = true → (ctxAt s c).saltCnt = s.params.blockSize) ∧ data = [] ∧
      ∃ salt v, initSalt s (ctxAt s c) salted = .ok salt
        ∧ resetView s { (ctxAt s c).view with salt := salt, csel := csel, salted := salted } = .ok v
        ∧ u = setCtx s c { ctxAt s c with saltCnt := 0, bound := true, phase := .fresh, view := v }
  | .reset c, u, data =>
    (ctxAt s c).bound = true ∧ data = [] ∧
      ∃ v, resetView s (ctxAt s c).view = .ok v ∧ u = setCtx s c { ctxAt s c with phase := .fresh, view := v }
  | .write c cnt w, u, data =>
    (ctxAt s c).bound = true ∧ data = [] ∧
      ∃ v, writePath s (ctxAt s c).view (payloadBytes cnt w) = .ok (some v)
        ∧ u = setCtx s c { ctxAt s c with phase := .accumulating, view := v }
  | .final c, u, data =>
    (ctxAt s c).bound = true ∧ u = s ∧
      ∃ v bytes, padView s (ctxAt s c).view = .ok (some v) ∧ v.carryLen = 0
        ∧ v.chain.readRange .chain 0 s.params.outputLen = .ok bytes ∧ data = wordsOfBytes s.params.nRows bytes
  | .cload cnt w, u, data =>
    s.srcCnt + cnt.toNat ≤ s.params.inputLen ∧ data = [] ∧
      u = { s with src := s.src.writeRange s.srcCnt (payloadBytes cnt w), srcCnt := s.srcCnt + cnt.toNat }
  | .crun csel, u, data =>
    compressorReady s csel = true ∧ s.srcCnt = s.params.inputLen ∧
      ∃ x, s.src.readRange .src 0 s.params.inputLen = .ok x ∧ compress s csel x = .ok data ∧ u = { s with srcCnt := 0 }

/-- Everything `exec` can answer. -/
inductive Answer (i : Instr) (s : State) : Res → Prop where
  /-- Refused because `FATAL = 1` (60_exceptions.md R231). -/
  | refused : s.fatal = true → i.opcode.isStatus = false → Answer i s (.next (refuseFatal i.opcode.byte s))
  /-- A contract violation (60_exceptions.md R228). -/
  | violation (st : Status) : st.isContract = true → (s.fatal = false ∨ i.opcode.isStatus = true) →
      Answer i s (.next (raise i.opcode.byte st s))
  /-- The length limit (60_exceptions.md R230). -/
  | length : s.fatal = false → Answer i s (.next (respond i.opcode.byte .errLength [] s))
  /-- The command's effect. -/
  | done (u : State) (data : List Word) : (s.fatal = false ∨ i.opcode.isStatus = true) →
      i.wellFormed s.params = true → Completed s i u data → Answer i s (.next (respond i.opcode.byte .ok data u))
  /-- A read of an element that holds no value. -/
  | fault (place : Store) : Answer i s (.fault (.noValue place))

/-- The checks, for a command: what is left to say is what its body answers. -/
theorem answer_of_fieldChecked {i : Instr} {s : State} {c : Option (BitVec 8)} {cnt : Option (BitVec 4)} {body : Res}
    (h : (s.fatal = false ∨ i.opcode.isStatus = true) → (∀ n ∈ cnt, n.toNat ≤ 8) →
      (∀ k ∈ c, k.toNat < s.params.nCtx) → Answer i s body) : Answer i s (fieldChecked i.opcode c cnt s body) := by
  rcases fieldChecked_cases (rfl : fieldChecked i.opcode c cnt s body = _) with ⟨hf, ho, e⟩ | ⟨hf, e | e | ⟨hn, hc, e⟩⟩
  · rw [e]; exact .refused hf ho
  · rw [e]; exact .violation _ rfl hf
  · rw [e]; exact .violation _ rfl hf
  · rw [e]; exact h hf hn hc

/-- A fault of a body is the fault of a read. -/
theorem answer_of_settle {i : Instr} {s : State} {m : Except Fault Res}
    (h : ∀ r, m = .ok r → Answer i s r) : Answer i s (settle m) := by
  cases m with
  | ok r => exact h r rfl
  | error f => cases f; exact .fault _

/-- The inversion of `exec`: every answer it can give. -/
theorem exec_answer (i : Instr) (s : State) : Answer i s (exec i s) := by
  cases i with
  | nop => exact answer_of_fieldChecked fun hf _ _ => .done s [] hf rfl ⟨rfl, rfl⟩
  | info => exact answer_of_fieldChecked fun hf _ _ => .done s _ hf rfl ⟨rfl, rfl⟩
  | stat c =>
    exact answer_of_fieldChecked fun hf _ hc => .done s _ hf (by simpa [Instr.wellFormed, ctxLegal] using hc c rfl) ⟨rfl, rfl⟩
  | mload w =>
    refine answer_of_fieldChecked (i := .mload w) fun hf _ _ => ?_
    split
    · exact .violation (i := .mload w) _ rfl hf
    · exact .done (i := .mload w) _ [] hf rfl ⟨‹_›, rfl, rfl⟩
  | tderive =>
    refine answer_of_fieldChecked (i := .tderive) fun hf _ _ => ?_
    split
    · exact .violation (i := .tderive) _ rfl hf
    · refine answer_of_settle fun r h => ?_
      obtain ⟨t, ht, h⟩ := bind_ok h
      rw [pure_ok h]
      exact .done (i := .tderive) { s with t := t, tableValid := true } [] hf rfl ⟨by simp_all, rfl, t, ht, rfl⟩
  | sload c cnt w =>
    refine answer_of_fieldChecked (i := .sload c cnt w) fun hf hn hc => ?_
    dsimp only
    split
    · exact .violation (i := .sload c cnt w) _ rfl hf
    · have hn := hn cnt rfl
      have hc := hc c rfl
      exact .done (i := .sload c cnt w) _ [] hf (by simp [Instr.wellFormed, ctxLegal, cntLegal, hn, hc])
        ⟨by omega, rfl, rfl⟩
  | init c csel salted =>
    refine answer_of_fieldChecked (i := .init c csel salted) fun hf _ hc => ?_
    dsimp only
    split
    · exact .violation (i := .init c csel salted) _ rfl hf
    · split
      · exact .violation (i := .init c csel salted) _ rfl hf
      · rename_i hr hs
        have hc := hc c rfl
        refine answer_of_settle fun r h => ?_
        obtain ⟨salt, hsalt, h⟩ := bind_ok h
        obtain ⟨v, hv, h⟩ := bind_ok h
        rw [pure_ok h]
        refine .done (i := .init c csel salted)
          (setCtx s c { ctxAt s c with saltCnt := 0, bound := true, phase := .fresh, view := v }) [] hf
          (by simp [Instr.wellFormed, ctxLegal, hc]) ⟨by simpa using hr, fun h => ?_, rfl, salt, v, hsalt, hv, rfl⟩
        by_contra hne
        exact hs ⟨h, hne⟩
  | reset c =>
    refine answer_of_fieldChecked (i := .reset c) fun hf _ hc => ?_
    dsimp only
    split
    · exact .violation (i := .reset c) _ rfl hf
    · have hc := hc c rfl
      refine answer_of_settle fun r h => ?_
      obtain ⟨v, hv, h⟩ := bind_ok h
      rw [pure_ok h]
      exact .done (i := .reset c) (setCtx s c { ctxAt s c with phase := .fresh, view := v }) [] hf
        (by simp [Instr.wellFormed, ctxLegal, hc]) ⟨by simp_all, rfl, v, hv, rfl⟩
  | write c cnt w =>
    refine answer_of_fieldChecked (i := .write c cnt w) fun hf hn hc => ?_
    dsimp only
    split
    · exact .violation (i := .write c cnt w) _ rfl hf
    · have hn := hn cnt rfl
      have hc := hc c rfl
      refine answer_of_settle fun r h => ?_
      obtain ⟨o, ho, h⟩ := bind_ok h
      cases o with
      | none =>
        rw [pure_ok h]
        exact .length (i := .write c cnt w) (by simpa [Instr.opcode, Opcode.isStatus] using hf)
      | some v =>
        rw [pure_ok h]
        exact .done (i := .write c cnt w) (setCtx s c { ctxAt s c with phase := .accumulating, view := v }) [] hf
          (by simp [Instr.wellFormed, ctxLegal, cntLegal, hn, hc]) ⟨by simp_all, rfl, v, ho, rfl⟩
  | final c =>
    refine answer_of_fieldChecked (i := .final c) fun hf _ hc => ?_
    dsimp only
    split
    · exact .violation (i := .final c) _ rfl hf
    · have hc := hc c rfl
      refine answer_of_settle fun r h => ?_
      obtain ⟨o, ho, h⟩ := bind_ok h
      cases o with
      | none =>
        rw [pure_ok h]
        exact .length (i := .final c) (by simpa [Instr.opcode, Opcode.isStatus] using hf)
      | some v =>
        dsimp only at h
        split at h
        · rw [pure_ok h]; exact .violation (i := .final c) _ rfl hf
        · obtain ⟨bytes, hb, h⟩ := bind_ok h
          rw [pure_ok h]
          exact .done (i := .final c) s _ hf (by simp [Instr.wellFormed, ctxLegal, hc])
            ⟨by simp_all, rfl, v, bytes, ho, by simp_all, hb, rfl⟩
  | cload cnt w =>
    refine answer_of_fieldChecked (i := .cload cnt w) fun hf hn _ => ?_
    split
    · exact .violation (i := .cload cnt w) _ rfl hf
    · have hn := hn cnt rfl
      exact .done (i := .cload cnt w) _ [] hf (by simp [Instr.wellFormed, cntLegal, hn]) ⟨by omega, rfl, rfl⟩
  | crun csel =>
    refine answer_of_fieldChecked (i := .crun csel) fun hf _ _ => ?_
    split
    · exact .violation (i := .crun csel) _ rfl hf
    · split
      · exact .violation (i := .crun csel) _ rfl hf
      · refine answer_of_settle fun r h => ?_
        obtain ⟨x, hx, h⟩ := bind_ok h
        obtain ⟨acc, ha, h⟩ := bind_ok h
        rw [pure_ok h]
        exact .done (i := .crun csel) { s with srcCnt := 0 } acc hf rfl ⟨by simp_all, by simp_all, x, hx, ha, rfl⟩

/-- The same, for a next state. -/
theorem exec_cases {i : Instr} {s t : State} (h : exec i s = .next t) :
    (s.fatal = true ∧ i.opcode.isStatus = false ∧ t = refuseFatal i.opcode.byte s)
      ∨ (∃ st : Status, st.isContract = true ∧ (s.fatal = false ∨ i.opcode.isStatus = true)
          ∧ t = raise i.opcode.byte st s)
      ∨ (s.fatal = false ∧ t = respond i.opcode.byte .errLength [] s)
      ∨ ∃ u data, (s.fatal = false ∨ i.opcode.isStatus = true) ∧ i.wellFormed s.params = true
          ∧ Completed s i u data ∧ t = respond i.opcode.byte .ok data u := by
  have a := exec_answer i s
  rw [h] at a
  generalize hr : (Host.Outcome.next t : Res) = r at a
  cases a with
  | refused hf ho => cases hr; exact .inl ⟨hf, ho, rfl⟩
  | violation st hs hf => cases hr; exact .inr (.inl ⟨st, hs, hf, rfl⟩)
  | length hf => cases hr; exact .inr (.inr (.inl ⟨hf, rfl⟩))
  | done u data hf hw hc => cases hr; exact .inr (.inr (.inr ⟨u, data, hf, hw, hc, rfl⟩))
  | fault p => cases hr

/-- A command whose operands are legal and whose effect is possible has it. -/
theorem exec_completed {i : Instr} {s u : State} {data : List Word}
    (hf : s.fatal = false ∨ i.opcode.isStatus = true) (hw : i.wellFormed s.params = true)
    (h : Completed s i u data) : exec i s = .next (respond i.opcode.byte .ok data u) := by
  cases i with
  | nop => obtain ⟨rfl, rfl⟩ := h; exact fieldChecked_pass hf (by simp) (by simp)
  | info => obtain ⟨rfl, rfl⟩ := h; exact fieldChecked_pass hf (by simp) (by simp)
  | stat c =>
    obtain ⟨rfl, rfl⟩ := h
    exact fieldChecked_pass hf (by simp) (by simpa [Instr.wellFormed, ctxLegal] using hw)
  | mload w =>
    obtain ⟨h, rfl, rfl⟩ := h
    exact (fieldChecked_pass hf (by simp) (by simp)).trans (if_neg h)
  | tderive =>
    obtain ⟨h, rfl, t, ht, rfl⟩ := h
    refine (fieldChecked_pass hf (by simp) (by simp)).trans ?_
    rw [if_neg (by simp [h]), ht]; rfl
  | sload c cnt w =>
    obtain ⟨h, rfl, rfl⟩ := h
    simp only [Instr.wellFormed, ctxLegal, cntLegal, Bool.and_eq_true, decide_eq_true_eq] at hw
    exact (fieldChecked_pass hf (by simpa using hw.2) (by simpa using hw.1)).trans (if_neg (by omega))
  | init c csel salted =>
    obtain ⟨hr, hs, rfl, salt, v, hsalt, hv, rfl⟩ := h
    refine (fieldChecked_pass hf (by simp) (by simpa [Instr.wellFormed, ctxLegal] using hw)).trans ?_
    dsimp only
    rw [if_neg (by simp [hr]), if_neg (fun h => h.2 (hs h.1)), hsalt]
    simp only [bind, Except.bind, hv]
    rfl
  | reset c =>
    obtain ⟨hb, rfl, v, hv, rfl⟩ := h
    refine (fieldChecked_pass hf (by simp) (by simpa [Instr.wellFormed, ctxLegal] using hw)).trans ?_
    dsimp only
    rw [if_neg (by simp [hb]), hv]; rfl
  | write c cnt w =>
    obtain ⟨hb, rfl, v, hv, rfl⟩ := h
    simp only [Instr.wellFormed, ctxLegal, cntLegal, Bool.and_eq_true, decide_eq_true_eq] at hw
    refine (fieldChecked_pass hf (by simpa using hw.2) (by simpa using hw.1)).trans ?_
    dsimp only
    rw [if_neg (by simp [hb]), hv]; rfl
  | final c =>
    obtain ⟨hb, rfl, v, bytes, hp, h0, hv, rfl⟩ := h
    refine (fieldChecked_pass hf (by simp) (by simpa [Instr.wellFormed, ctxLegal] using hw)).trans ?_
    dsimp only
    rw [if_neg (by simp [hb]), hp]
    simp only [bind, Except.bind, h0, ne_eq, not_true_eq_false, if_false, hv]
    rfl
  | cload cnt w =>
    obtain ⟨h, rfl, rfl⟩ := h
    exact (fieldChecked_pass hf (by simpa [Instr.wellFormed, cntLegal] using hw) (by simp)).trans (if_neg (by omega))
  | crun csel =>
    obtain ⟨hr, hs, x, hx, hd, rfl⟩ := h
    refine (fieldChecked_pass hf (by simp) (by simp)).trans ?_
    rw [if_neg (by simp [hr]), if_neg (by simp [hs]), hx]
    simp only [bind, Except.bind, hd]
    rfl

end Sys2Proof.Machine
end

