-- ==== Sys2Proof/Laws/Compressor.lean ====
section
/-! SUPPORT. What the datapath computes: the masked select as a sum, one row of each compressor, one group of the table. -/

namespace Sys2Proof.Machine

/-- The value a dense memory holds at an index below its length (0 beyond it). -/
abbrev Mem.val (m : Mem Word) (k : Nat) : Word := (m.read k).getD 0#64

theorem Mem.fetch_dense {m : Mem Word} (h : m.dense) (place : Store) {k : Nat} (hk : k < m.length) :
    m.fetch place k = .ok (m.val k) := by
  rw [Mem.fetch_ok_iff, Mem.val, Mem.dense_read h]
  have : k < (m.map Prod.snd).length := by simpa using hk
  rw [List.getElem?_eq_getElem this]; rfl

/-- Eight words from index `base` on. -/
theorem Mem.readRange_val {m : Mem Word} (h : m.dense) (place : Store) {lo n : Nat} (hl : lo + n ≤ m.length) :
    m.readRange place lo n = .ok ((List.range n).map fun k => m.val (lo + k)) :=
  collect_ok _ _ _ fun k hk => Mem.fetch_dense h place (by simp at hk; omega)

/-! ### The masked select (40_matrix_compressor.md R111) -/

/-- One term of the masked select is the word or zero. -/
theorem and_mask64 (w : Word) (b : Byte) (k : Nat) :
    w &&& mask64 (bitOf b k) = if b.getLsbD k then w else 0#64 := by
  have e : bitOf b k = BitVec.ofBool (b.getLsbD k) := by
    apply BitVec.eq_of_getLsbD_eq; intro i hi
    have : i = 0 := by omega
    subst this; simp [bitOf]
  rw [e]
  cases b.getLsbD k
  · have : mask64 (BitVec.ofBool false) = 0#64 := by decide
    rw [this]; simp
  · have : mask64 (BitVec.ofBool true) = BitVec.allOnes 64 := by decide
    rw [this, BitVec.and_allOnes]; rfl

/-- The sum of the words the bits of `b` select, the words given as a function. -/
abbrev selectSum (f : Nat → Word) (b : Byte) : Word :=
  ((List.range 8).map fun k => if b.getLsbD k then f k else 0#64).sum

theorem maskedSelect_range (f : Nat → Word) (b : Byte) :
    maskedSelect ((List.range 8).map f) b = selectSum f b := by
  simp only [maskedSelect, selectSum, and_mask64]
  rfl

/-- Disjoint selections add (40_matrix_compressor.md R121, 41_lookup_table.md R144). -/
theorem selectSum_or (f : Nat → Word) {a b : Byte} (h : a &&& b = 0#8) :
    selectSum f (a ||| b) = selectSum f a + selectSum f b := by
  have hk : ∀ k, (if (a ||| b).getLsbD k then f k else 0#64)
      = (if a.getLsbD k then f k else 0#64) + (if b.getLsbD k then f k else 0#64) := by
    intro k
    have hb : (a &&& b).getLsbD k = false := by rw [h]; simp
    rw [BitVec.getLsbD_and] at hb
    rw [BitVec.getLsbD_or]
    cases ha : a.getLsbD k <;> cases hb' : b.getLsbD k <;> simp_all
  simp only [selectSum, hk]
  induction List.range 8 with
  | nil => simp
  | cons k l ih => simp only [List.map_cons, List.sum_cons, ih]; ac_rfl

/-- No bit selects nothing. -/
theorem selectSum_zero (f : Nat → Word) : selectSum f 0#8 = 0#64 := by simp [selectSum]

/-! ### Rows and groups -/

/-- One row of `CompressA`, over a matrix that is there (40_matrix_compressor.md R115). -/
theorem rowSumA_eq {a : Mem Word} (h : a.dense) (base : Nat) (x : List Byte) : ∀ (n : Nat) (acc : Word),
    base + 8 * (n + x.length) ≤ a.length →
    rowSumA a (base + 8 * n) x acc =
      .ok (acc + ((x.zipIdx n).map fun bj => selectSum (fun k => a.val (base + (8 * bj.2 + k))) bj.1).sum) := by
  induction x with
  | nil => intro n acc _; simp [rowSumA]
  | cons b bs ih =>
    intro n acc hl
    simp only [List.length_cons] at hl
    rw [rowSumA, Mem.readRange_val h .matrix (by omega)]
    simp only [bind, Except.bind]
    rw [maskedSelect_range, show base + 8 * n + 8 = base + 8 * (n + 1) by omega, ih (n + 1) _ (by omega)]
    simp only [List.zipIdx_cons, List.map_cons, List.sum_cons, BitVec.add_assoc]
    simp only [Nat.add_assoc]

/-- One row of `CompressT`, over a table that is there (41_lookup_table.md R142). -/
theorem rowSumT_eq {t : Mem Word} (base : Nat) (f : Nat → Byte → Word) (x : List Byte) : ∀ (n : Nat) (acc : Word),
    (∀ g b, n ≤ g → g < n + x.length → t.fetch .table (base + 256 * g + BitVec.toNat b) = .ok (f g b)) →
    rowSumT t (base + 256 * n) x acc = .ok (acc + ((x.zipIdx n).map fun bj => f bj.2 bj.1).sum) := by
  induction x with
  | nil => intro n acc _; simp [rowSumT]
  | cons b bs ih =>
    intro n acc hf
    rw [rowSumT, hf n b (by omega) (by simp)]
    simp only [bind, Except.bind]
    rw [show base + 256 * n + 256 = base + 256 * (n + 1) by omega, ih (n + 1) _ (fun g b' h1 h2 => hf g b' (by omega)
      (by simp at h2 ⊢; omega))]
    simp only [List.zipIdx_cons, List.map_cons, List.sum_cons, BitVec.add_assoc]

/-- One group of the table, over a matrix that is there (41_lookup_table.md R141). -/
theorem deriveGroup_eq {p : Params} {a : Mem Word} (h : a.dense) {i g : Nat}
    (hl : cellA p i (8 * g) + 8 ≤ a.length) :
    deriveGroup p a i g = .ok ((List.range 256).map fun b =>
      (cellT p i g b, selectSum (fun k => a.val (cellA p i (8 * g) + k)) (BitVec.ofNat 8 b))) := by
  simp only [deriveGroup, Mem.readRange_val h .matrix hl, bind, Except.bind, maskedSelect_range]
  rfl

/-- The entries of a table are listed in order, from index 0 on. -/
theorem groups_eq (f : Nat → Nat → Word) (base n : Nat) :
    ((List.range n).map fun g => (List.range 256).map fun b => ((base + g) * 256 + b, f g b)).flatten
      = (List.range (n * 256)).map fun k => (base * 256 + k, f (k / 256) (k % 256)) := by
  induction n with
  | zero => simp
  | succ n ih =>
    rw [List.range_succ (n := n), List.map_append, List.flatten_append, ih, Nat.succ_mul, List.range_add,
      List.map_append]
    refine congrArg (_ ++ ·) ?_
    simp only [List.map_cons, List.map_nil, List.flatten_cons, List.flatten_nil, List.append_nil, List.map_map]
    apply List.map_congr_left
    intro b hb
    have : b < 256 := by simpa using hb
    simp only [Function.comp, Prod.mk.injEq]
    constructor
    · rw [Nat.add_mul]; omega
    · rw [show (n * 256 + b) / 256 = n by omega, show (n * 256 + b) % 256 = b by omega]

/-- The word at an index of a derived table. -/
abbrev tableWord (p : Params) (a : Mem Word) (k : Nat) : Word :=
  selectSum (fun n => a.val (cellA p (k / 256 / p.inputLen) (8 * (k / 256 % p.inputLen)) + n)) (BitVec.ofNat 8 (k % 256))

/-- `TDERIVE`'s table, over a matrix that is there: it lists every index from 0 on (41_lookup_table.md R141). -/
theorem deriveTable_eq {p : Params} {a : Mem Word} (h : a.dense) (hm : p.mCols % 8 = 0)
    (hl : a.length = p.matrixWords) :
    deriveTable p a = .ok ((List.range (p.nRows * p.inputLen * 256)).map fun k => (k, tableWord p a k)) := by
  have hil : p.inputLen * 8 = p.mCols := by unfold Params.inputLen; omega
  have hrow : ∀ i ∈ List.range p.nRows, deriveRow p a i = .ok ((List.range (p.inputLen * 256)).map fun k =>
        (i * p.inputLen * 256 + k, tableWord p a (i * p.inputLen * 256 + k))) := by
    intro i hi
    have hi : i < p.nRows := by simpa using hi
    rw [deriveRow, collect_ok _ (fun g => (List.range 256).map fun b =>
      ((i * p.inputLen + g) * 256 + b, selectSum (fun k => a.val (cellA p i (8 * g) + k)) (BitVec.ofNat 8 b)))]
    · simp only [bind, Except.bind, pure, Except.pure]
      rw [groups_eq]
      congr 1
      apply List.map_congr_left
      intro k hk
      have hk : k < p.inputLen * 256 := by simpa using hk
      have hg : k / 256 < p.inputLen := by omega
      have hpos : 0 < p.inputLen := by omega
      have e1 : (i * p.inputLen * 256 + k) / 256 = i * p.inputLen + k / 256 := by omega
      have e2 : (i * p.inputLen * 256 + k) % 256 = k % 256 := by omega
      have e3 : (i * p.inputLen + k / 256) / p.inputLen = i := by
        rw [Nat.mul_comm, Nat.mul_add_div hpos, Nat.div_eq_of_lt hg, Nat.add_zero]
      have e4 : (i * p.inputLen + k / 256) % p.inputLen = k / 256 := by
        rw [Nat.mul_comm, Nat.mul_add_mod, Nat.mod_eq_of_lt hg]
      simp only [tableWord, e1, e2, e3, e4]
    · intro g hg
      have hg : g < p.inputLen := by simpa using hg
      refine deriveGroup_eq h ?_
      unfold cellA
      rw [hl, Params.matrixWords]
      calc i * p.mCols + 8 * g + 8 ≤ i * p.mCols + p.mCols := by omega
        _ = (i + 1) * p.mCols := by rw [Nat.succ_mul]
        _ ≤ p.nRows * p.mCols := Nat.mul_le_mul_right _ hi
  unfold deriveTable
  rw [collect_ok _ _ _ hrow]
  simp only [bind, Except.bind, pure, Except.pure]
  congr 1
  generalize p.nRows = n
  induction n with
  | zero => simp
  | succ n ih =>
    rw [List.range_succ, List.map_append, List.flatten_append, ih, Nat.succ_mul, Nat.add_mul, List.range_add,
      List.map_append]
    simp only [List.map_cons, List.map_nil, List.flatten_cons, List.flatten_nil, List.append_nil, List.map_map]
    rfl

/-- The keys of the joined answers of a list of parts, from the keys of each part. -/
theorem collect_flatten_map {α β γ : Type} {f : α → Except Fault (List β)} {key : α → List γ} {pr : β → γ}
    {l : List α} {ys : List (List β)} (h : collect f l = .ok ys)
    (hk : ∀ x ∈ l, ∀ y, f x = .ok y → y.map pr = key x) : ys.flatten.map pr = (l.map key).flatten := by
  have h2 := collect_inv h
  clear h
  induction h2 with
  | nil => rfl
  | cons h1 _ ih =>
    simp only [List.flatten_cons, List.map_append, List.map_cons]
    rw [hk _ (by simp) _ h1, ih fun z hz => hk z (by simp [hz])]

/-- Whatever its matrix, a derived table is in canonical form: each entry of the derivation is listed under its own
index. -/
theorem deriveTable_keys {p : Params} {a t : Mem Word} (h : deriveTable p a = .ok t) :
    t.map Prod.fst = List.range (p.nRows * p.inputLen * 256) := by
  have hgroup : ∀ i g l, deriveGroup p a i g = .ok l →
      l.map Prod.fst = (List.range 256).map fun b => (i * p.inputLen + g) * 256 + b := by
    intro i g l hl
    obtain ⟨seg, _, hl⟩ := bind_ok hl
    rw [pure_ok hl]
    simp [List.map_map, Function.comp_def, cellT]
  have hrow : ∀ i l, deriveRow p a i = .ok l →
      l.map Prod.fst = (List.range (p.inputLen * 256)).map fun k => i * p.inputLen * 256 + k := by
    intro i l hl
    obtain ⟨groups, hg, hl⟩ := bind_ok hl
    rw [pure_ok hl, collect_flatten_map hg (fun g _ y hy => hgroup i g y hy)]
    have := congrArg (List.map Prod.fst) (groups_eq (fun _ _ => 0#64) (i * p.inputLen) p.inputLen)
    simpa [List.map_flatten, List.map_map, Function.comp_def] using this
  obtain ⟨rows, hr, h⟩ := bind_ok h
  rw [pure_ok h, collect_flatten_map hr (fun i _ l hl => hrow i l hl)]
  generalize p.nRows = n
  induction n with
  | zero => simp
  | succ n ih =>
    rw [List.range_succ, List.map_append, List.flatten_append, ih, Nat.succ_mul, Nat.add_mul, List.range_add]
    simp

end Sys2Proof.Machine
end

