-- ==== Sys2Proof/Laws/Encoding.lean ====
section
/-! SUPPORT. The opcode map and the header fields: what a packed header reads as, field by field. -/

namespace Sys2Proof

/-- The map finds every opcode at its own byte (30_encoding.md R89). -/
@[simp] theorem ofByte_byte (op : Opcode) : Opcode.ofByte op.byte = some op := by cases op <;> decide

/-- An opcode the map answers has that byte (30_encoding.md R89, R91). -/
theorem byte_of_ofByte {b : Byte} {op : Opcode} (h : Opcode.ofByte b = some op) : op.byte = b := by
  simpa using List.find?_some h

/-- A packed header reads back, field by field, and its reserved bits are clear (30_encoding.md R81, R105). -/
theorem packHeader_fields (opc : Byte) (cnt flg : BitVec 4) (c : BitVec 8) :
    headerOpc (packHeader opc cnt flg c) = opc ∧ headerCnt (packHeader opc cnt flg c) = cnt
      ∧ headerFlg (packHeader opc cnt flg c) = flg ∧ headerCtx (packHeader opc cnt flg c) = c
      ∧ headerRsv (packHeader opc cnt flg c) = 0#40 := by
  unfold headerOpc headerCnt headerFlg headerCtx headerRsv packHeader
  refine ⟨?_, ?_, ?_, ?_, ?_⟩ <;>
  · apply BitVec.eq_of_getLsbD_eq
    intro i hi
    simp only [BitVec.getLsbD_extractLsb', BitVec.getLsbD_or, BitVec.getLsbD_shiftLeft, BitVec.getLsbD_setWidth]
    interval_cases i <;> simp

end Sys2Proof
end

