-- ==== Sys2Proof/Laws/Streaming.lean ====
section
/-! SUPPORT. What the streaming procedures can do, said once: by inversion from an answer, and forwards over a compressor
that is known to answer the closed sums. -/

namespace Sys2Proof.Machine

/-! ### Lengths -/

@[simp] theorem le64_length (w : Word) : (le64 w).length = 8 := by simp [le64]

@[simp] theorem bytesOfWords_length (ws : List Word) : (bytesOfWords ws).length = 8 * ws.length := by
  induction ws with
  | nil => rfl
  | cons w ws ih => simp only [bytesOfWords, List.flatMap_cons, List.length_append, le64_length, List.length_cons] at ih ⊢
                    omega

@[simp] theorem wordsOfBytes_length (n : Nat) : ∀ b, (wordsOfBytes n b).length = n := by
  induction n with
  | zero => intro b; rfl
  | succ n ih => intro b; simp [wordsOfBytes, ih]

@[simp] theorem payloadBytes_length (cnt : BitVec 4) (w : Word) : (payloadBytes cnt w).length = cnt.toNat := by
  simp [payloadBytes]

@[simp] theorem zeros_length (k : Nat) : (zeros k).length = k := by simp [zeros]

@[simp] theorem pad1_length (p : Params) (t : Nat) : (pad1 p t).length = 1 + padZeros p t := by
  simp [pad1]; omega

@[simp] theorem padSuffix_length (t : Nat) : (padSuffix t).length = 16 := by simp [padSuffix]

@[simp] theorem refCompress_length (A : Nat → Nat → Word) (n : Nat) (x : List Byte) : (refCompress A n x).length = n := by
  simp [refCompress]

@[simp] theorem refBlock_length (A : Nat → Nat → Word) (n : Nat) (salt : Option (List Byte)) (ch blk : List Byte) :
    (refBlock A n salt ch blk).length = 8 * n := by simp [refBlock]

theorem compress_length {s : State} {csel : Compressor} {x : List Byte} {acc : List Word}
    (h : compress s csel x = .ok acc) : acc.length = s.params.nRows := by
  cases csel <;> simpa using collect_length h

/-! ### What a procedure reads of the state: the parameters, the matrix and the table -/

theorem compress_congr {s s' : State} (hp : s.params = s'.params) (ha : s.a = s'.a) (ht : s.t = s'.t)
    (csel : Compressor) (x : List Byte) : compress s csel x = compress s' csel x := by
  cases csel <;> simp [compress, hp, ha, ht]

theorem block_congr {s s' : State} (hp : s.params = s'.params) (ha : s.a = s'.a) (ht : s.t = s'.t)
    (v : View) (blk : List Byte) : block s v blk = block s' v blk := by
  simp only [block, saltBlock, hp, compress_congr hp ha ht]

theorem absorb_congr {s s' : State} (hp : s.params = s'.params) (ha : s.a = s'.a) (ht : s.t = s'.t) (n : Nat) :
    ∀ (v : View) (buf : List Byte), absorb s n v buf = absorb s' n v buf := by
  induction n with
  | zero => intro v buf; rfl
  | succ n ih => intro v buf; simp only [absorb, hp, block_congr hp ha ht, ih]

theorem writePath_congr {s s' : State} (hp : s.params = s'.params) (ha : s.a = s'.a) (ht : s.t = s'.t)
    (v : View) (d : List Byte) : writePath s v d = writePath s' v d := by
  simp only [writePath, absorb_congr hp ha ht]

theorem resetView_congr {s s' : State} (hp : s.params = s'.params) (ha : s.a = s'.a) (ht : s.t = s'.t)
    (v : View) : resetView s v = resetView s' v := by
  simp only [resetView, hp, writePath_congr hp ha ht]

theorem padView_congr {s s' : State} (hp : s.params = s'.params) (ha : s.a = s'.a) (ht : s.t = s'.t)
    (v : View) : padView s v = padView s' v := by
  simp only [padView, hp, writePath_congr hp ha ht]

/-! ### Inversion: what an answer says -/

/-- A block changes the chain alone, to `OL` bytes. -/
theorem block_inv {s : State} {v v' : View} {blk : List Byte} (h : block s v blk = .ok v') :
    ∃ ch : List Byte, ch.length = s.params.outputLen ∧ v' = { v with chain := Mem.ofList ch } := by
  obtain ⟨m, _, h⟩ := bind_ok h
  obtain ⟨chain, _, h⟩ := bind_ok h
  obtain ⟨acc, ha, h⟩ := bind_ok h
  exact ⟨bytesOfWords acc, by simp [compress_length ha, Params.outputLen], pure_ok h⟩

/-- The loop changes the chain alone, and leaves less than a block: what is left of the buffer after whole blocks. -/
theorem absorb_inv {s : State} (n : Nat) : ∀ {v v' : View} {buf rest : List Byte},
    absorb s n v buf = .ok (v', rest) →
    (v' = v ∨ ∃ ch : List Byte, ch.length = s.params.outputLen ∧ v' = { v with chain := Mem.ofList ch })
      ∧ (∃ q, buf.length = q * s.params.blockSize + rest.length)
      ∧ (0 < s.params.blockSize → buf.length ≤ n → rest.length < s.params.blockSize) := by
  induction n with
  | zero =>
    intro v v' buf rest h
    cases h
    exact ⟨.inl rfl, ⟨0, by simp⟩, fun h1 h2 => by omega⟩
  | succ n ih =>
    intro v v' buf rest h
    simp only [absorb] at h
    split at h
    · obtain ⟨v1, hb, h⟩ := bind_ok h
      obtain ⟨ch, hc, rfl⟩ := block_inv hb
      obtain ⟨h1, ⟨q, h2⟩, h3⟩ := ih h
      rw [List.length_drop] at h2 h3
      refine ⟨.inr ?_, ⟨q + 1, by rw [Nat.succ_mul]; omega⟩, fun h4 h5 => h3 h4 (by omega)⟩
      rcases h1 with rfl | ⟨ch', hc', rfl⟩
      · exact ⟨ch, hc, rfl⟩
      · exact ⟨ch', hc', rfl⟩
    · cases h
      exact ⟨.inl rfl, ⟨0, by simp⟩, fun h1 h2 => by omega⟩

/-- A write path that succeeds was below the limit, counts its bytes, keeps `SALTED`, `SALT` and `CSEL`, and leaves as
carry what is left of the carry and the bytes after whole blocks. -/
theorem writePath_inv {s : State} {v v' : View} {d : List Byte} (h : writePath s v d = .ok (some v')) :
    (v.totalLen.toNat + d.length) * 8 < lenLimitBits
      ∧ v'.totalLen = v.totalLen + BitVec.ofNat 64 d.length
      ∧ v'.salted = v.salted ∧ v'.salt = v.salt ∧ v'.csel = v.csel
      ∧ (v'.chain = v.chain ∨ ∃ ch : List Byte, ch.length = s.params.outputLen ∧ v'.chain = Mem.ofList ch)
      ∧ v'.carry.dense ∧ v'.carry.length = v'.carryLen
      ∧ (∃ q, v.carryLen + d.length = q * s.params.blockSize + v'.carryLen)
      ∧ (0 < s.params.blockSize → v'.carryLen < s.params.blockSize) := by
  unfold writePath at h
  split at h
  · cases h
  · rename_i hl
    obtain ⟨carry, hc, h⟩ := bind_ok h
    obtain ⟨⟨v1, rest⟩, ha, h⟩ := bind_ok h
    have h := pure_ok h
    simp only [Option.some.injEq] at h
    subst h
    obtain ⟨h1, ⟨q, h2⟩, h3⟩ := absorb_inv _ ha
    have hcl := Mem.readRange_length hc
    refine ⟨by simpa [lengthExceeded] using hl, ?_, ?_, ?_, ?_, ?_, Mem.ofList_dense _, Mem.ofList_length _,
      ⟨q, by simpa [hcl] using h2⟩, fun hp => h3 hp (le_refl _)⟩
    all_goals rcases h1 with rfl | ⟨ch, hch, rfl⟩
    all_goals try rfl
    · exact .inl rfl
    · exact .inr ⟨ch, hch, rfl⟩

/-- The count after a successful write does not wrap. -/
theorem writePath_total {s : State} {v v' : View} {d : List Byte} (h : writePath s v d = .ok (some v')) :
    v'.totalLen.toNat = v.totalLen.toNat + d.length := by
  obtain ⟨h1, h2, -⟩ := writePath_inv h
  unfold lenLimitBits at h1
  rw [h2, BitVec.toNat_add, BitVec.toNat_ofNat]
  omega

/-- What `ResetCtx` leaves: the cleared view, or the cleared view after one successful write of `BS` zeros. -/
theorem resetView_inv {s : State} {v v' : View} (h : resetView s v = .ok v') :
    v' = clearView s.params v
      ∨ (v.salted = true ∧ writePath s (clearView s.params v) (zeros s.params.blockSize) = .ok (some v')) := by
  unfold resetView at h
  dsimp only at h
  split at h
  · rename_i hs
    obtain ⟨r, hr, h⟩ := bind_ok h
    have h := pure_ok h
    cases r with
    | none => exact .inl h
    | some w => exact .inr ⟨hs, by rw [hr]; simp at h; rw [h]⟩
  · cases h; exact .inl rfl

/-! ### Forwards, over a compressor that answers the closed sums -/

/-- What the streaming procedures need of the compressor they use: on every input it answers the closed sums. -/
abbrev AnswersSums (s : State) (csel : Compressor) : Prop :=
  ∀ x : List Byte, x.length = s.params.inputLen → compress s csel x = .ok (refCompress (matrixOf s) s.params.nRows x)

/-- A view a block can be compressed on. -/
structure Ready (s : State) (v : View) : Prop where
  sums : AnswersSums s v.csel
  chain_dense : v.chain.dense
  chain_length : v.chain.length = s.params.outputLen
  salt_dense : v.salt.dense
  salt_length : v.salted = true → v.salt.length = s.params.blockSize
  sizes : s.params.outputLen + s.params.blockSize = s.params.inputLen

/-- One block, in the closed form. -/
theorem block_eq {s : State} {v : View} (h : Ready s v) {blk : List Byte} (hb : blk.length = s.params.blockSize) :
    block s v blk = .ok { v with chain := Mem.ofList (refBlock (matrixOf s) s.params.nRows (saltOf v)
      (v.chain.map Prod.snd) blk) } := by
  have hch : v.chain.readRange .chain 0 s.params.outputLen = .ok (v.chain.map Prod.snd) := by
    rw [Mem.readRange_dense h.chain_dense _ (by simp [h.chain_length])]
    simp [← h.chain_length, List.take_of_length_le]
  unfold block saltBlock
  cases hs : v.salted with
  | false =>
    rw [if_neg (by simp)]
    simp only [bind, Except.bind, hch]
    rw [h.sums _ (by simp [h.chain_length, hb, h.sizes])]
    simp only [saltOf, hs, refBlock]
    rfl
  | true =>
    have hsl := h.salt_length hs
    have hsr : v.salt.readRange .salt 0 s.params.blockSize = .ok (v.salt.map Prod.snd) := by
      rw [Mem.readRange_dense h.salt_dense _ (by simp [hsl])]
      simp [← hsl, List.take_of_length_le]
    rw [if_pos rfl, hsr]
    simp only [bind, Except.bind, pure, Except.pure, hch]
    rw [h.sums _ (by simp [xorBytes, h.chain_length, hb, hsl, h.sizes])]
    simp only [saltOf, hs, refBlock, xorBytes, if_true]

theorem Ready.chain {s : State} {v : View} (h : Ready s v) {ch : List Byte} (hc : ch.length = s.params.outputLen) :
    Ready s { v with chain := Mem.ofList ch } :=
  ⟨h.sums, Mem.ofList_dense _, by simp [hc], h.salt_dense, h.salt_length, h.sizes⟩

/-- Readiness does not look at the counters and the carry. -/
theorem Ready.of_eq {s : State} {v v' : View} (h : Ready s v) (h1 : v'.csel = v.csel) (h2 : v'.chain = v.chain)
    (h3 : v'.salt = v.salt) (h4 : v'.salted = v.salted) : Ready s v' := by
  obtain ⟨a, b, c, d, e, f⟩ := h
  exact ⟨h1 ▸ a, h2 ▸ b, h2 ▸ c, h3 ▸ d, h4 ▸ h3 ▸ e, f⟩

/-- The loop, in the closed form: every whole block goes into the chain. -/
theorem absorb_eq {s : State} (hp : 0 < s.params.blockSize) (n : Nat) : ∀ {v : View} {buf : List Byte}, Ready s v →
    buf.length ≤ n →
    absorb s n v buf =
      .ok ({ v with chain := Mem.ofList (refChain (matrixOf s) s.params.nRows s.params.blockSize (saltOf v)
              (buf.length / s.params.blockSize) (v.chain.map Prod.snd) buf) },
           buf.drop (buf.length / s.params.blockSize * s.params.blockSize)) := by
  induction n with
  | zero =>
    intro v buf h hb
    have : buf = [] := List.eq_nil_of_length_eq_zero (by omega)
    subst this
    simp only [absorb, List.length_nil, Nat.zero_div, refChain, Nat.zero_mul, List.drop_nil]
    rw [← Mem.dense_eq h.chain_dense]
  | succ n ih =>
    intro v buf h hb
    unfold absorb
    split
    · rename_i hl
      have ht : (buf.take s.params.blockSize).length = s.params.blockSize := by simp; omega
      rw [block_eq h ht]
      simp only [bind, Except.bind]
      rw [ih (h.chain (by simp [Params.outputLen])) (by simp; omega)]
      obtain ⟨q, hq⟩ : ∃ q, buf.length / s.params.blockSize = q + 1 :=
        ⟨_, (Nat.succ_pred_eq_of_pos (Nat.div_pos hl hp)).symm⟩
      have hq' : (buf.drop s.params.blockSize).length / s.params.blockSize = q := by
        rw [List.length_drop]
        have := Nat.sub_mul_div buf.length s.params.blockSize 1
        rw [Nat.mul_one] at this
        rw [this, hq]; rfl
      rw [hq', hq]
      simp only [refChain, Mem.ofList_values, List.drop_drop, saltOf]
      congr 3
      rw [Nat.succ_mul, Nat.add_comm]
    · rename_i hl
      have : buf.length / s.params.blockSize = 0 := Nat.div_eq_of_lt (by omega)
      simp only [this, refChain, Nat.zero_mul, List.drop_zero]
      rw [← Mem.dense_eq h.chain_dense]

/-- The write path below the limit, in the closed form. -/
theorem writePath_eq {s : State} (hp : 0 < s.params.blockSize) {v : View} (h : Ready s v) (hc : v.carry.dense)
    (hl : v.carry.length = v.carryLen) {d buf : List Byte} (hbuf : buf = v.carry.map Prod.snd ++ d)
    (hlim : (v.totalLen.toNat + d.length) * 8 < lenLimitBits) :
    writePath s v d = .ok (some { v with
      totalLen := v.totalLen + BitVec.ofNat 64 d.length,
      chain := Mem.ofList (refChain (matrixOf s) s.params.nRows s.params.blockSize (saltOf v)
        (buf.length / s.params.blockSize) (v.chain.map Prod.snd) buf),
      carry := Mem.ofList (buf.drop (buf.length / s.params.blockSize * s.params.blockSize)),
      carryLen := buf.length % s.params.blockSize }) := by
  have hcar : v.carry.readRange .carry 0 v.carryLen = .ok (v.carry.map Prod.snd) := by
    rw [Mem.readRange_dense hc _ (by simp [hl])]
    simp [← hl, List.take_of_length_le]
  unfold writePath
  rw [if_neg (by simpa [lengthExceeded] using hlim), hcar]
  simp only [bind, Except.bind, ← hbuf]
  rw [absorb_eq hp buf.length (v := { v with totalLen := v.totalLen + BitVec.ofNat 64 d.length })
    (h.of_eq rfl rfl rfl rfl) (le_refl _)]
  simp only [pure, Except.pure, saltOf]
  have hmod : (buf.drop (buf.length / s.params.blockSize * s.params.blockSize)).length
      = buf.length % s.params.blockSize := by
    rw [List.length_drop]
    have := Nat.div_add_mod buf.length s.params.blockSize
    rw [Nat.mul_comm] at this
    omega
  rw [hmod]

/-- At the limit the write path fails and changes nothing. -/
theorem writePath_fail {s : State} {v : View} {d : List Byte} (h : lenLimitBits ≤ (v.totalLen.toNat + d.length) * 8) :
    writePath s v d = .ok none := by
  unfold writePath
  rw [if_pos (by simpa [lengthExceeded] using h)]

end Sys2Proof.Machine
end

