-- ==== Sys2Proof/Laws/Step.lean ====
section
/-! SUPPORT. What the decoder, the sequencer and a step can do, said once. Later proofs cite these and unfold none of
them. -/

namespace Sys2Proof.Machine

/-! ### The decoder -/

/-- What a header that decodes says: its opcode is in the map, its reserved bits are clear, and its fields are the
operands (30_encoding.md R81, R84). -/
theorem decodeFrame_ok {h w : Word} {i : Instr} (hd : decodeFrame h w = .ok i) :
    ∃ op, Opcode.ofByte (headerOpc h) = some op ∧ reservedSet op h = false ∧ i = assemble op h w ∧ i.opcode = op := by
  unfold decodeFrame at hd
  split at hd
  · cases hd
  · rename_i op ho
    split at hd
    · cases hd
    · cases hd
      refine ⟨op, ho, by simp_all, rfl, ?_⟩
      cases op <;> rfl

/-! ### Room for a response (70_reset_and_hazards.md R272) -/

theorem hasRoom_iff (s : State) (h : Word) :
    hasRoom s h = true ↔ s.respq.length + responseBeats s.params h ≤ s.params.respDepth := by simp [hasRoom]

theorem responseBeats_of_opcode {h : Word} {op : Opcode} (ho : Opcode.ofByte (headerOpc h) = some op) (p : Params) :
    responseBeats p h = 1 + ndataOf p op := by simp [responseBeats, ho]

theorem responseBeats_of_illegal {h : Word} (ho : Opcode.ofByte (headerOpc h) = none) (p : Params) :
    responseBeats p h = 1 := by simp [responseBeats, ho]

theorem responseBeats_pos (p : Params) (h : Word) : 1 ≤ responseBeats p h := by
  cases ho : Opcode.ofByte (headerOpc h) with
  | none => simp [responseBeats_of_illegal ho]
  | some op => simp [responseBeats_of_opcode ho]

/-! ### Responses, in the layout of the table (30_encoding.md R95) -/

/-- A response field holds a number that fits it. -/
theorem fieldOf_toNat {w v : Nat} (h : v < 2 ^ w) : (fieldOf w v).toNat = v := by
  simp [fieldOf, h, Nat.mod_eq_of_lt]

@[simp] theorem fieldOf_zero : fieldOf 16 0 = 0#16 := by simp [fieldOf]

/-- A status beat is the fields of the table, one above the other. -/
theorem statusBeat_eq (st : Status) (opc : Byte) (n : Nat) :
    statusBeat st opc n = refBeat (fieldOf 16 n) opc st.code := by
  unfold statusBeat refBeat
  generalize fieldOf 16 n = f
  generalize st.code = b
  apply BitVec.eq_of_getLsbD_eq
  intro i hi
  simp only [BitVec.getLsbD_or, BitVec.getLsbD_shiftLeft, BitVec.getLsbD_setWidth, BitVec.getLsbD_append]
  by_cases h1 : i < 8
  · simp [h1, hi, show i < 16 by omega]
  · by_cases h2 : i < 16
    · simp [h1, h2, hi, show i - 8 < 8 by omega, show i - 8 < 64 by omega, BitVec.getLsbD_of_ge b i (by omega)]
    · by_cases h3 : i < 32
      · simp [h1, h2, hi, show ¬ (i - 8 < 8) by omega, show i - 16 < 64 by omega, show i - 16 < 16 by omega,
          Nat.sub_sub, BitVec.getLsbD_of_ge b i (by omega), BitVec.getLsbD_of_ge opc (i - 8) (by omega)]
      · simp [h1, h2, hi, show ¬ (i - 8 < 8) by omega, show i - 16 < 64 by omega, show ¬ (i - 16 < 16) by omega,
          Nat.sub_sub, BitVec.getLsbD_of_ge b i (by omega), BitVec.getLsbD_of_ge opc (i - 8) (by omega),
          BitVec.getLsbD_of_ge f (i - 16) (by omega)]

/-- `respond` appends one response and changes nothing else. -/
theorem respond_eq_answered (opc : Byte) (st : Status) (data : List Word) (s : State) :
    respond opc st data s = answered s (fieldOf 16 data.length) opc st.code data := by
  simp [respond, answered, statusBeat_eq]

/-- A response without data. -/
theorem respond_nil (opc : Byte) (st : Status) (s : State) :
    respond opc st [] s = answered s 0#16 opc st.code [] := by
  simp [respond_eq_answered]

/-- The trap taken while `FATAL = 0` (60_exceptions.md R228). -/
theorem raise_eq_trapState {s : State} (h : s.fatal = false) (opc : Byte) (st : Status) :
    raise opc st s = trapState s opc st.code := by
  simp [raise_of_not_fatal _ _ _ h, trapState, answered, statusBeat_eq]

/-! ### A command's response -/

/-- A command that completes leaves `RESPQ` to its response, which has the `NDATA` of the opcode map
(30_encoding.md R89, R95). -/
theorem completed_data {i : Instr} {s u : State} {data : List Word} (hc : Completed s i u data) :
    data.length = ndataOf s.params i.opcode ∧ u.respq = s.respq ∧ u.params = s.params := by
  cases i with
  | nop => obtain ⟨rfl, rfl⟩ := hc; exact ⟨rfl, rfl, rfl⟩
  | info => obtain ⟨rfl, rfl⟩ := hc; exact ⟨rfl, rfl, rfl⟩
  | stat c => obtain ⟨rfl, rfl⟩ := hc; exact ⟨rfl, rfl, rfl⟩
  | final c => obtain ⟨_, rfl, v, b, _, _, _, rfl⟩ := hc; exact ⟨by simp [ndataOf, Instr.opcode], rfl, rfl⟩
  | mload w => obtain ⟨hne, rfl, rfl⟩ := hc; exact ⟨rfl, rfl, rfl⟩
  | tderive => obtain ⟨hm, rfl, t, ht, rfl⟩ := hc; exact ⟨rfl, rfl, rfl⟩
  | sload c cnt w => obtain ⟨hl, rfl, rfl⟩ := hc; exact ⟨rfl, rfl, rfl⟩
  | init c csel salted => obtain ⟨hr, hs, rfl, salt, v, hsalt, hv, rfl⟩ := hc; exact ⟨rfl, rfl, rfl⟩
  | reset c => obtain ⟨hb, rfl, v, hv, rfl⟩ := hc; exact ⟨rfl, rfl, rfl⟩
  | write c cnt w => obtain ⟨hb, rfl, v, hv, rfl⟩ := hc; exact ⟨rfl, rfl, rfl⟩
  | cload cnt w => obtain ⟨hl, rfl, rfl⟩ := hc; exact ⟨rfl, rfl, rfl⟩
  | crun csel => obtain ⟨_, _, x, _, hd, rfl⟩ := hc; exact ⟨compress_length hd, rfl, rfl⟩

/-- Every command appends at most the whole response of the opcode map (30_encoding.md R89, 70_reset_and_hazards.md
R272). -/
theorem exec_queue {i : Instr} {s t : State} (he : exec i s = .next t) :
    t.respq.length ≤ s.respq.length + (1 + ndataOf s.params i.opcode) ∧ t.params = s.params := by
  rcases exec_cases he with ⟨_, _, rfl⟩ | ⟨st, hs, _, rfl⟩ | ⟨_, rfl⟩ | ⟨u, data, _, hw, hc, rfl⟩
  · simp [refuseFatal]
  · simp
  · simp
  · obtain ⟨h1, h2, h3⟩ := completed_data hc
    simp [h1, h2, h3]

/-- A rejected header is refused while fatal, or a contract violation (30_encoding.md R100). -/
theorem rejectHeader_cases (opc : Byte) (e : HeaderError) (s : State) :
    (s.fatal = true ∧ rejectHeader opc e s = refuseFatal opc s)
    ∨ ∃ st : Status, st.isContract = true ∧ rejectHeader opc e s = raise opc st s := by
  cases e with
  | illegalOpcode =>
    simp only [rejectHeader]; split
    · exact .inl ⟨‹_›, rfl⟩
    · exact .inr ⟨_, rfl, rfl⟩
  | reservedBits =>
    simp only [rejectHeader]; split
    · rename_i h; simp at h; exact .inl ⟨h.1, rfl⟩
    · exact .inr ⟨_, rfl, rfl⟩

/-! ### The step -/

/-- Everything the sequencer's turn can do: nothing, a decoded command, or a rejected header. -/
theorem sequencerTurn_cases {s t : State} (h : sequencerTurn s = .next t) :
    t = s ∨ ∃ hd w rest, nextFrame s.cmdq = some (hd, w, rest) ∧ hasRoom s hd = true ∧
      ((∃ i, decodeFrame hd w = .ok i ∧ exec i { s with cmdq := rest } = .next t)
       ∨ ∃ e, decodeFrame hd w = .error e ∧ t = rejectHeader (headerOpc hd) e { s with cmdq := rest }) := by
  unfold sequencerTurn at h
  split at h
  · cases h; exact .inl rfl
  · rename_i hd w rest hf
    right
    unfold fetch at hf
    split at hf
    · cases hf
    · rename_i hd' w' rest' hn
      split at hf
      · rename_i hr
        cases hf
        refine ⟨_, _, _, hn, hr, ?_⟩
        split at h
        · exact .inl ⟨_, ‹_›, h⟩
        · cases h; exact .inr ⟨_, ‹_›, rfl⟩
      · cases hf

/-- Everything a step can do. -/
theorem step_cases {s t : State} (h : step s = .next t) : s.params.Buildable ∧
    ((∃ ts, (s.turns = ts ∨ s.turns = .block :: ts) ∧ s.turns.head? ≠ some .powerOn
        ∧ sequencerTurn { s with turns := ts } = .next t)
    ∨ (∃ w ts, s.turns = .send w :: ts ∧ t = sendBeat w { s with turns := ts })
    ∨ (∃ ts, s.turns = .take :: ts ∧ t = takeBeat { s with turns := ts })
    ∨ (∃ ts, s.turns = .powerOn :: ts ∧ t = powerOnReset { s with turns := ts })) := by
  unfold step at h
  split at h
  · rename_i hb
    refine ⟨hb, ?_⟩
    split at h
    · rename_i ht; exact .inl ⟨[], .inl ht, by simp [ht], by rw [← ht]; exact h⟩
    · rename_i ts ht; exact .inl ⟨ts, .inr ht, by simp [ht], h⟩
    · rename_i w ts ht; cases h; exact .inr (.inl ⟨w, ts, ht, rfl⟩)
    · rename_i ts ht; cases h; exact .inr (.inr (.inl ⟨ts, ht, rfl⟩))
    · rename_i ts ht; cases h; exact .inr (.inr (.inr ⟨ts, ht, rfl⟩))
  · cases h

end Sys2Proof.Machine
end

