-- ==== Sys2Proof/Laws/Invariant.lean ====
section
/-! SUPPORT. What the streaming procedures keep of the invariant, and how the chain of a stream splits. -/

namespace Sys2Proof.Machine

/-! ### Contexts under a state that stays ready -/

/-- A context keeps its invariant where every compressor that was ready stays ready. -/
theorem ctxInv_ready {s s' : State} (hp : s.params = s'.params)
    (hr : ∀ c, compressorReady s c = true → compressorReady s' c = true) {k : Context} (h : CtxInv s k) :
    CtxInv s' k := by
  obtain ⟨a, b, c, d, e, f, g⟩ := h
  refine ⟨a, hp ▸ b, c, d, fun hb => ?_, f, g⟩
  obtain ⟨v1, v2, v3, v4, v5, v6, v7, v8, v9⟩ := e hb
  exact ⟨v1, hp ▸ v2, v3, v4, hp ▸ v5, v6, v7, hp ▸ v8, hr _ v9⟩

/-- The same, where nothing a compressor's readiness looks at has changed. -/
theorem ctxInv_congr {s s' : State} (hp : s.params = s'.params) (hm : s.mptr = s'.mptr)
    (ht : s.tableValid = s'.tableValid) {k : Context} (h : CtxInv s k) : CtxInv s' k :=
  ctxInv_ready hp
    (fun c hr => by cases c <;> simpa [compressorReady, matrixValid, ← hp, ← hm, ← ht] using hr) h

/-! ### Views -/

theorem blockSize_pos {p : Params} (h : p.Buildable) : 0 < p.blockSize := by have := h.2.2.1; omega

/-- The view `ResetCtx` starts from (42_streaming_engine.md R165). -/
theorem viewInv_clear {s : State} {v : View} (h1 : v.salt.dense)
    (h2 : v.salted = true → v.salt.length = s.params.blockSize) (h3 : compressorReady s v.csel = true) :
    ViewInv s (clearView s.params v) :=
  ⟨Mem.ofList_dense _, by simp, rfl, rfl, by simp, by simp [lenLimitBits], h1, h2, h3⟩

/-- A write path that succeeds keeps the invariant of the view (42_streaming_engine.md R168; 10_state.md R47, R49). -/
theorem viewInv_writePath {s : State} (hb : s.params.Buildable) {v v' : View} {d : List Byte} (h : ViewInv s v)
    (hw : writePath s v d = .ok (some v')) : ViewInv s v' := by
  have ht := writePath_total hw
  obtain ⟨w1, w2, w3, w4, w5, w6, w7, w8, ⟨q, w9⟩, w10⟩ := writePath_inv hw
  have hlt := w10 (blockSize_pos hb)
  refine ⟨?_, ?_, w7, w8, ?_, by rw [ht]; exact w1, by rw [w4]; exact h.salt_dense,
    by rw [w3, w4]; exact h.salt_length, by rw [w5]; exact h.ready⟩
  · rcases w6 with e | ⟨ch, _, e⟩ <;> rw [e]
    · exact h.chain_dense
    · exact Mem.ofList_dense _
  · rcases w6 with e | ⟨ch, hl, e⟩ <;> rw [e]
    · exact h.chain_length
    · simpa using hl
  · have hmod : v'.carryLen = (v.carryLen + d.length) % s.params.blockSize := by
      rw [w9, Nat.mul_comm, Nat.mul_add_mod, Nat.mod_eq_of_lt hlt]
    rw [ht, hmod, h.carry_mod, Nat.mod_add_mod]

/-- `ResetCtx` leaves a view that meets the invariant (42_streaming_engine.md R165). -/
theorem viewInv_reset {s : State} (hb : s.params.Buildable) {v v' : View} (h1 : v.salt.dense)
    (h2 : v.salted = true → v.salt.length = s.params.blockSize) (h3 : compressorReady s v.csel = true)
    (h : resetView s v = .ok v') : ViewInv s v' := by
  rcases resetView_inv h with rfl | ⟨_, hw⟩
  · exact viewInv_clear h1 h2 h3
  · exact viewInv_writePath hb (viewInv_clear h1 h2 h3) hw

/-- A view of the invariant, over a compressor that answers the closed sums, is ready for a block. -/
theorem ready_of_viewInv {s : State} (hb : s.params.Buildable) {v : View} (h : ViewInv s v)
    (hc : AnswersSums s v.csel) : Ready s v :=
  ⟨hc, h.chain_dense, h.chain_length, h.salt_dense, h.salt_length, by
    have := hb.2.2.1; unfold Params.blockSize at *; omega⟩

/-! ### The chain of a stream -/

/-- The blocks of a stream do not depend on what follows them. -/
theorem refChain_append (A : Nat → Nat → Word) (n bs : Nat) (salt : Option (List Byte)) : ∀ q ch (m m' : List Byte),
    q * bs ≤ m.length → refChain A n bs salt q ch (m ++ m') = refChain A n bs salt q ch m := by
  intro q
  induction q with
  | zero => intros; rfl
  | succ q ih =>
    intro ch m m' h
    rw [Nat.succ_mul] at h
    simp only [refChain]
    rw [List.take_append_of_le_length (by omega), List.drop_append_of_le_length (by omega), ih _ _ _ (by simp; omega)]

/-- The chain over `q + q'` blocks is the chain over the last `q'` from the chain over the first `q`. -/
theorem refChain_add (A : Nat → Nat → Word) (n bs : Nat) (salt : Option (List Byte)) : ∀ q q' ch (m : List Byte),
    refChain A n bs salt (q + q') ch m
      = refChain A n bs salt q' (refChain A n bs salt q ch m) (m.drop (q * bs)) := by
  intro q
  induction q with
  | zero => intros; simp [refChain]
  | succ q ih =>
    intro q' ch m
    rw [show q + 1 + q' = (q + q') + 1 by omega]
    simp only [refChain]
    rw [ih, List.drop_drop, Nat.succ_mul, Nat.add_comm bs]

/-- A write in two parts is the write of the whole, at the level of the write path (42_streaming_engine.md R168). -/
theorem writePath_append {s : State} (hb : s.params.Buildable) {v : View} (hv : ViewInv s v)
    (hc : AnswersSums s v.csel) {d d' : List Byte}
    (hlim : (v.totalLen.toNat + (d.length + d'.length)) * 8 < lenLimitBits) :
    ∃ v1 v2, writePath s v d = .ok (some v1) ∧ writePath s v1 d' = .ok (some v2)
      ∧ writePath s v (d ++ d') = .ok (some v2) := by
  have hp := blockSize_pos hb
  have e1 := writePath_eq hp (ready_of_viewInv hb hv hc) hv.carry_dense hv.carry_length (d := d) rfl (by omega)
  have hv1 := viewInv_writePath hb hv e1
  have ht := writePath_total e1
  have e2 := writePath_eq hp (ready_of_viewInv hb hv1 hc) hv1.carry_dense hv1.carry_length (d := d') rfl
    (by rw [ht]; omega)
  have e3 := writePath_eq hp (ready_of_viewInv hb hv hc) hv.carry_dense hv.carry_length (d := d ++ d') rfl
    (by simp; omega)
  refine ⟨_, _, e1, e2, ?_⟩
  rw [e3]
  generalize hbuf : v.carry.map Prod.snd ++ d = b at *
  have hbuf3 : v.carry.map Prod.snd ++ (d ++ d') = b ++ d' := by rw [← List.append_assoc, hbuf]
  rw [hbuf3]
  simp only [Mem.ofList_values]
  generalize s.params.blockSize = bs at *
  have hq : b.length / bs * bs ≤ b.length := Nat.div_mul_le_self _ _
  have hdrop : b.drop (b.length / bs * bs) ++ d' = (b ++ d').drop (b.length / bs * bs) := by
    rw [List.drop_append_of_le_length hq]
  rw [hdrop]
  have hlen : ((b ++ d').drop (b.length / bs * bs)).length = (b ++ d').length - b.length / bs * bs := by simp
  have hqd : (b ++ d').length / bs = b.length / bs + ((b ++ d').drop (b.length / bs * bs)).length / bs := by
    rw [hlen, Nat.mul_comm (b.length / bs) bs, Nat.sub_mul_div]
    have : b.length / bs ≤ (b ++ d').length / bs := Nat.div_le_div_right (by simp)
    omega
  have hmod : ((b ++ d').drop (b.length / bs * bs)).length % bs = (b ++ d').length % bs := by
    rw [hlen]
    have e := Nat.sub_mul_mod (x := (b ++ d').length) (k := b.length / bs) (n := bs) (by simp; rw [Nat.mul_comm]; omega)
    rw [Nat.mul_comm] at e; exact e
  rw [hmod]
  congr 2
  have hs : ∀ x y : View, x.salted = y.salted → x.salt = y.salt → saltOf x = saltOf y := by
    intro x y h1 h2; simp [saltOf, h1, h2]
  rw [hs { v with totalLen := _, chain := _, carry := _, carryLen := _ } v rfl rfl]
  rw [hqd, refChain_add, List.drop_drop, refChain_append _ _ _ _ _ _ _ _ hq]
  congr 1
  · rw [Nat.add_mul]
  · simp [BitVec.add_assoc, BitVec.ofNat_add]

end Sys2Proof.Machine
end

