-- ==== Sys2Proof/Laws/PerInstr.lean ====
section
/-! SUPPORT. The per-instruction family `HeaderFields`: one lemma for each command. -/

namespace Sys2Proof.Laws.HeaderFields

/-- The header the encoder writes for a command carries that command's opcode, and no bit of it is reserved, undefined
or in a field the command does not use (30_encoding.md R81, R84, R89). -/
def Statement (i : Instr) : Prop :=
  headerOpc (encodeHeader i) = i.opcode.byte ∧ reservedSet i.opcode (encodeHeader i) = false

/-- A packed header is as the statement asks when its flags are defined and the fields its opcode does not use are 0. -/
theorem of_pack (op : Opcode) (cnt flg : BitVec 4) (c : BitVec 8) (hf : flg &&& ~~~op.definedFlags = 0#4)
    (hn : op.isData = true ∨ cnt = 0#4) (hc : op.isCtx = true ∨ c = 0#8) :
    headerOpc (packHeader op.byte cnt flg c) = op.byte
      ∧ reservedSet op (packHeader op.byte cnt flg c) = false := by
  obtain ⟨h1, h2, h3, h4, h5⟩ := packHeader_fields op.byte cnt flg c
  refine ⟨h1, ?_⟩
  simp only [reservedSet, h2, h3, h4, h5, hf]
  rcases hn with hn | hn <;> rcases hc with hc | hc <;> simp [hn, hc]

theorem nop : Statement .nop := of_pack .nop 0 0 0 (by decide) (.inr rfl) (.inr rfl)
theorem info : Statement .info := of_pack .info 0 0 0 (by decide) (.inr rfl) (.inr rfl)
theorem stat (c : BitVec 8) : Statement (.stat c) := of_pack .stat 0 0 c (by decide) (.inr rfl) (.inl rfl)
theorem mload (w : Word) : Statement (.mload w) := of_pack .mload 0 0 0 (by decide) (.inr rfl) (.inr rfl)
theorem tderive : Statement .tderive := of_pack .tderive 0 0 0 (by decide) (.inr rfl) (.inr rfl)
theorem sload (c : BitVec 8) (cnt : BitVec 4) (w : Word) : Statement (.sload c cnt w) :=
  of_pack .sload cnt 0 c (by simp) (.inl rfl) (.inl rfl)
theorem init (c : BitVec 8) (csel : Compressor) (salted : Bool) : Statement (.init c csel salted) :=
  of_pack .init 0 (packFlags csel salted) c (by cases csel <;> cases salted <;> decide) (.inr rfl) (.inl rfl)
theorem reset (c : BitVec 8) : Statement (.reset c) := of_pack .reset 0 0 c (by decide) (.inr rfl) (.inl rfl)
theorem write (c : BitVec 8) (cnt : BitVec 4) (w : Word) : Statement (.write c cnt w) :=
  of_pack .write cnt 0 c (by simp) (.inl rfl) (.inl rfl)
theorem final (c : BitVec 8) : Statement (.final c) := of_pack .final 0 0 c (by decide) (.inr rfl) (.inl rfl)
theorem cload (cnt : BitVec 4) (w : Word) : Statement (.cload cnt w) :=
  of_pack .cload cnt 0 0 (by simp) (.inl rfl) (.inr rfl)
theorem crun (csel : Compressor) : Statement (.crun csel) :=
  of_pack .crun 0 (packFlags csel false) 0 (by cases csel <;> decide) (.inr rfl) (.inr rfl)

end Sys2Proof.Laws.HeaderFields
end

