-- ==== Sys2Proof/Tests/Slice0.lean ====
section
/-! SUPPORT. Tests, with values from the spec (30_encoding.md, 95_test_vectors.md), and for every statement with
hypotheses a witness that meets them. -/

namespace Sys2Proof.Tests

open Sys2Proof Sys2Proof.Machine

/-! ### Well-formedness: for each check an ill-formed term it refuses -/

theorem test_cntLegal_refuses : cntLegal 9#4 = false ∧ cntLegal 8#4 = true := by decide
theorem test_ctxLegal_refuses : ctxLegal Params.sumhash512 1#8 = false ∧ ctxLegal Params.sumhash512 0#8 = true := by
  decide
theorem test_wellFormed_refuses :
    (Instr.stat 1#8).wellFormed Params.sumhash512 = false
      ∧ (Instr.sload 1#8 8#4 0#64).wellFormed Params.sumhash512 = false
      ∧ (Instr.sload 0#8 9#4 0#64).wellFormed Params.sumhash512 = false
      ∧ (Instr.init 1#8 .matrix false).wellFormed Params.sumhash512 = false
      ∧ (Instr.reset 1#8).wellFormed Params.sumhash512 = false
      ∧ (Instr.write 1#8 8#4 0#64).wellFormed Params.sumhash512 = false
      ∧ (Instr.write 0#8 9#4 0#64).wellFormed Params.sumhash512 = false
      ∧ (Instr.final 255#8).wellFormed Params.sumhash512 = false
      ∧ (Instr.cload 15#4 0#64).wellFormed Params.sumhash512 = false := by decide

/-! ### Decoding: one word written out from R81 and R89 for each command -/

theorem test_decode_nop : decode [0x0000000000000000#64] = .ok (.nop, []) := by decide
theorem test_decode_info : decode [0x0000000000000001#64] = .ok (.info, []) := by decide
theorem test_decode_stat : decode [0x0000000000A50002#64] = .ok (.stat 0xA5#8, []) := by decide
theorem test_decode_mload : decode [0x10#64, 0x8000000000000001#64] = .ok (.mload 0x8000000000000001#64, []) := by decide
theorem test_decode_tderive : decode [0x0000000000000011#64] = .ok (.tderive, []) := by decide
theorem test_decode_sload : decode [0x0000000000070820#64, 5#64, 6#64] = .ok (.sload 7#8 8#4 5#64, [6#64]) := by decide
theorem test_decode_init :
    decode [0x21#64] = .ok (.init 0#8 .matrix false, []) ∧ decode [0x1021#64] = .ok (.init 0#8 .table false, [])
      ∧ decode [0x022021#64] = .ok (.init 2#8 .matrix true, []) := by decide
theorem test_decode_reset : decode [0x0000000000FF0022#64] = .ok (.reset 0xFF#8, []) := by decide
theorem test_decode_write : decode [0x0000000000010123#64, 0xFF#64] = .ok (.write 1#8 1#4 0xFF#64, []) := by decide
theorem test_decode_final : decode [0x0000000000000024#64] = .ok (.final 0#8, []) := by decide
theorem test_decode_cload : decode [0x0000000000000F30#64, 1#64] = .ok (.cload 15#4 1#64, []) := by decide
theorem test_decode_crun :
    decode [0x31#64] = .ok (.crun .matrix, []) ∧ decode [0x1031#64] = .ok (.crun .table, []) := by decide

/-- Reserved and illegal headers are rejected by name (R84, R91), and a missing payload is no command (R82). -/
theorem test_decode_rejects :
    decode [0x03#64] = .error (.header .illegalOpcode) ∧ decode [0x2031#64] = .error (.header .reservedBits)
      ∧ decode [0x4021#64] = .error (.header .reservedBits) ∧ decode [0x10#64] = .error .noPayload
      ∧ decode [] = .error .noHeader := by decide
theorem test_decode_rejects_unused_fields :
    decode [0x1000000#64] = .error (.header .reservedBits) ∧ decode [0x100#64] = .error (.header .reservedBits)
      ∧ decode [0x10010#64, 0#64] = .error (.header .reservedBits) := by decide

theorem test_decodeTableWord :
    decodeTableWord 64 0x3021 = some (.init 0#8 .table true)
      ∧ decodeTableWord 128 (7 * 2 ^ 64 + 0x0323) = some (.write 0#8 3#4 7#64) := by decide

/-! ### Test instance T1 of 95_test_vectors.md: one row, 192 columns, `A[0][j] = j + 1` -/

def t1 : Params := { nRows := 1, mCols := 192, nCtx := 1, respDepth := 5 }

@[irreducible] def t1Matrix : Mem Word := Mem.ofList ((List.range 192).map fun j => BitVec.ofNat 64 (j + 1))

@[irreducible] def t1Table : Mem Word := (List.range (t1.nRows * t1.inputLen * 256)).map fun k => (k, tableWord t1 t1Matrix k)

/-- T1 with the matrix loaded, the table derived, a source of 24 bytes, and one context. -/
def sample (k : Context) : State :=
  { State.powerOn t1 with
    mptr := 192, a := t1Matrix, tableValid := true, t := t1Table, src := Mem.ofList (0x41#8 :: zeros 23),
    srcCnt := 24, ctx := [k] }

/-- A bound, unsalted context of T1 with carry `b`, its stream as long as `t` says. -/
def streamContext (b : List Byte) (t : BitVec 64) : Context :=
  { bound := true, phase := .accumulating, saltStage := [], saltCnt := 0,
    view := { chain := Mem.ofList (zeros 8), carry := Mem.ofList b, carryLen := b.length, totalLen := t,
              salted := false, salt := [], csel := .matrix } }

/-- A bound context after the bytes `abc`. -/
def abcContext : Context := streamContext [0x61#8, 0x62#8, 0x63#8] 3#64

/-- A bound, salted context. -/
def saltedContext : Context :=
  { abcContext with
    view := { abcContext.view with carry := [], carryLen := 0, totalLen := 16#64, salted := true,
                                   salt := Mem.ofList (zeros 16) } }

/-- A context that is not bound, with `n` staged salt bytes. -/
def stagedContext (n : Nat) : Context :=
  { Context.powerOn with saltStage := Mem.ofList (zeros n), saltCnt := n }

/-- What `exec` leaves in `RESPQ`. -/
def answer (i : Instr) (s : State) : List Word :=
  match exec i s with
  | .next t => t.respq
  | .fault _ => []
  | .refused _ => []

/-! ### The data path and single commands, against 95_test_vectors.md -/

/-- R111: bits 0 and 6 select 1 and 7. -/
theorem test_maskedSelect : maskedSelect [1#64, 2#64, 3#64, 4#64, 5#64, 6#64, 7#64, 8#64] 0x41#8 = 8#64 := by decide
/-- R12, R120: the sum wraps. -/
theorem test_maskedSelect_wraps :
    maskedSelect [0xFFFFFFFFFFFFFFFF#64, 0x8000000000000000#64, 2#64] 0x05#8 = 1#64 := by decide
theorem test_le64 : le64 0x0807060504030201#64 = [1#8, 2#8, 3#8, 4#8, 5#8, 6#8, 7#8, 8#8] := by decide
theorem test_payloadBytes : payloadBytes 3#4 0xFFFFFFFFFF636261#64 = [0x61#8, 0x62#8, 0x63#8] := by decide
/-- Section 2.3: on T1, `t = 0` pads 15 zeros, `t = 15` none, `t = 16` fifteen. -/
theorem test_padZeros : padZeros t1 0 = 15 ∧ padZeros t1 15 = 0 ∧ padZeros t1 16 = 15 := by decide

theorem test_nop_answers : answer .nop (State.powerOn t1) = [0x0#64] := by decide
/-- Section 2.8: `INFO` on T1. -/
theorem test_info_answers : answer .info (State.powerOn t1) = [0x40100#64, 8#64, 16#64, 1#64, 192#64] := by decide
theorem test_stat_answers : answer (.stat 0#8) (State.powerOn t1) = [0x40200#64, 0#64, 0#64, 0#64, 0#64] := by decide
theorem test_mload_counts :
    exec (.mload 7#64) (State.powerOn t1) =
      .next { State.powerOn t1 with a := [(0, 7#64)], mptr := 1, respq := [0x1000#64] } := rfl
theorem test_tderive_not_ready : answer .tderive (State.powerOn t1) = [0x1185#64] := by decide
theorem test_cload_appends :
    answer (.cload 0#4 0#64) (State.powerOn t1) = [0x3000#64]
      ∧ answer (.cload 9#4 0#64) (State.powerOn t1) = [0x3083#64] := by decide
/-- Log 4: in the fatal state a STAT of a context that is not there answers its own code and the record stays. -/
theorem test_stat_fatal_keeps_record :
    exec (.stat 1#8) { State.powerOn t1 with fatal := true, errcode := 0x81#8, erropc := 0x12#8 } =
      .next { State.powerOn t1 with fatal := true, errcode := 0x81#8, erropc := 0x12#8, respq := [0x0284#64] } := rfl
theorem test_sload_checks_count_first : answer (.sload 1#8 9#4 0#64) (State.powerOn t1) = [0x2083#64] := by decide
theorem test_init_not_ready : answer (.init 0#8 .table true) (State.powerOn t1) = [0x2185#64] := by decide
theorem test_reset_not_bound : answer (.reset 0#8) (State.powerOn t1) = [0x2288#64] := by decide
theorem test_write_not_bound : answer (.write 0#8 3#4 0#64) (State.powerOn t1) = [0x2388#64] := by decide

set_option maxRecDepth 20000 in
/-- Section 2.1: `x[0] = 41`, rest 00, gives 8. -/
theorem test_crun_columns_0_and_6 : answer (.crun .matrix) (sample abcContext) = [0x13100#64, 8#64] := by
  decide +kernel
set_option maxRecDepth 20000 in
/-- Section 3, P2: the digest of `abc` on T1 is 0xB1. -/
theorem test_final_abc : answer (.final 0#8) (sample abcContext) = [0x12400#64, 0xB1#64] := by decide +kernel

/-! ### Steps -/

/-- From power-on a step with nothing in the channel changes nothing (R241). -/
theorem test_step_idles : step State.reset = .next State.reset := rfl
theorem test_step_runs_nop :
    step (State.reset.withFetchWord 64 0x0) = .next { State.reset with respq := [0x0#64] } := rfl
theorem test_step_runs_mload :
    step (State.reset.withFetchWord 128 (5 * 2 ^ 64 + 0x10)) =
      .next { State.reset with a := [(0, 5#64)], mptr := 1, respq := [0x1000#64] } := rfl
/-- R82, R91: an illegal opcode takes its header alone; the beat after it is the next header. -/
theorem test_step_illegal :
    step { State.reset with cmdq := [0x12#64, 0x00#64] } =
      .next { State.reset with cmdq := [0x00#64], fatal := true, errcode := 0x81#8, erropc := 0x12#8,
                               respq := [0x1281#64] } := rfl

/-! ### Witnesses: the samples meet the invariant -/

theorem t1_buildable : t1.Buildable := by decide

theorem t1Matrix_length : t1Matrix.length = 192 := by simp [t1Matrix]

theorem t1Matrix_dense : t1Matrix.dense := by unfold t1Matrix; exact Mem.ofList_dense _

theorem t1Table_derived : deriveTable t1 t1Matrix = .ok t1Table := by
  unfold t1Table
  exact deriveTable_eq t1Matrix_dense (by decide) t1Matrix_length

theorem sample_blockSize (k : Context) : (sample k).params.blockSize = 16 := by
  show t1.blockSize = 16
  decide

theorem sample_outputLen (k : Context) : (sample k).params.outputLen = 8 := rfl

/-- A sample meets the invariant when its context does, whatever the channel holds. -/
theorem sample_inv {k : Context} (hk : CtxInv (sample k) k) (turns : List Turn) (cmdq : List Word) :
    Inv { sample k with turns := turns, cmdq := cmdq } := by
  have hsrc : (Mem.ofList (0x41#8 :: zeros 23)).length = 24 := by simp
  refine { buildable := t1_buildable, no_error := fun _ => ⟨rfl, rfl⟩, error_code := fun h => ?_,
           mptr_le := (by decide : 192 ≤ t1.matrixWords), a_dense := t1Matrix_dense, a_length := t1Matrix_length, table_matrix := fun _ => ?_,
           table_derived := fun _ => t1Table_derived, table_absent := fun h => ?_, src_dense := Mem.ofList_dense _,
           src_length := ?_, src_count := ?_, respq_le := Nat.zero_le _, ctx_length := rfl, ctx_inv := fun k' h => ?_ }
  · cases h
  · rfl
  · cases h
  · show (Mem.ofList (0x41#8 :: zeros 23)).length ≤ t1.inputLen
    rw [hsrc]; decide
  · show 24 ≤ (Mem.ofList (0x41#8 :: zeros 23)).length
    rw [hsrc]
  · have e : k' = k := by simpa [sample] using h
    subst e
    exact ctxInv_congr (s := sample k') (by rfl) (by rfl) (by rfl) hk

theorem streamContext_inv (b : List Byte) (t : BitVec 64) (hb : b.length = t.toNat % 16)
    (h : t.toNat * 8 < lenLimitBits) (k : Context) : CtxInv (sample k) (streamContext b t) := by
  refine { stage_dense := rfl, stage_length := Nat.zero_le _, stage_count := Nat.zero_le _,
           bound_phase := fun _ => (by simp [streamContext]), unbound_phase := fun h => (by cases h),
           unbound_view := fun h => (by cases h), bound_view := fun _ => ?_ }
  refine { chain_dense := Mem.ofList_dense _, chain_length := ?_, carry_dense := Mem.ofList_dense _,
           carry_length := ?_, carry_mod := ?_, total_limit := h, salt_dense := rfl,
           salt_length := fun h => (by cases h), ready := rfl }
  · rw [sample_outputLen]; rfl
  · simp [streamContext]
  · rw [sample_blockSize]; exact hb

theorem abcContext_inv (k : Context) : CtxInv (sample k) abcContext :=
  streamContext_inv _ _ (by decide) (by decide) k

theorem saltedContext_inv (k : Context) : CtxInv (sample k) saltedContext := by
  refine { stage_dense := rfl, stage_length := Nat.zero_le _, stage_count := Nat.zero_le _,
           bound_phase := fun _ => (by simp [saltedContext, abcContext, streamContext]), unbound_phase := fun h => (by cases h),
           unbound_view := fun h => (by cases h), bound_view := fun _ => ?_ }
  refine { chain_dense := Mem.ofList_dense _, chain_length := ?_, carry_dense := rfl, carry_length := rfl,
           carry_mod := ?_, total_limit := by decide, salt_dense := Mem.ofList_dense _, salt_length := fun _ => ?_,
           ready := rfl }
  · rw [sample_outputLen]; rfl
  · rw [sample_blockSize]; rfl
  · rw [sample_blockSize]; simp [saltedContext]

theorem stagedContext_inv (n : Nat) (hn : n ≤ 16) (k : Context) : CtxInv (sample k) (stagedContext n) := by
  refine { stage_dense := Mem.ofList_dense _, stage_length := ?_, stage_count := ?_, bound_phase := fun h => (by cases h),
           bound_view := fun h => (by cases h), unbound_phase := fun _ => rfl, unbound_view := fun _ => rfl }
  · rw [sample_blockSize]; simpa [stagedContext] using hn
  · simp [stagedContext]

/-- An instance with one context and a matrix loaded as far as `m` goes. -/
def loaded (p : Params) (m : Mem Word) (k : Context) : State :=
  { State.powerOn p with mptr := m.length, a := m, ctx := [k] }

theorem loaded_inv {p : Params} {m : Mem Word} {k : Context} (hp : p.Buildable) (hc : p.nCtx = 1) (hd : m.dense)
    (hl : m.length ≤ p.matrixWords) (hk : CtxInv (loaded p m k) k) : Inv (loaded p m k) := by
  refine { buildable := hp, no_error := fun _ => ⟨rfl, rfl⟩, error_code := fun h => (by cases h), mptr_le := hl,
           a_dense := hd, a_length := rfl, table_matrix := fun h => (by cases h), table_derived := fun h => (by cases h),
           table_absent := fun _ => rfl, src_dense := rfl, src_length := Nat.zero_le _, src_count := Nat.zero_le _,
           respq_le := Nat.zero_le _, ctx_length := hc.symm, ctx_inv := fun k' h => ?_ }
  have e : k' = k := by simpa [loaded] using h
  subst e
  exact hk

/-- An unbound context with `n` staged salt bytes meets the invariant wherever a block holds them. -/
theorem stagedContext_loaded {p : Params} {m : Mem Word} {n : Nat} (hn : n ≤ p.blockSize) :
    CtxInv (loaded p m (stagedContext n)) (stagedContext n) := by
  refine { stage_dense := Mem.ofList_dense _, stage_length := ?_, stage_count := ?_, bound_phase := fun h => (by cases h),
           bound_view := fun h => (by cases h), unbound_phase := fun _ => rfl, unbound_view := fun _ => rfl }
  · show (Mem.ofList (zeros n)).length ≤ p.blockSize
    simpa using hn
  · simp [stagedContext]

/-- A matrix of `n` zero words. -/
@[irreducible] def zeroMatrix (n : Nat) : Mem Word := Mem.ofList (List.replicate n 0#64)

theorem zeroMatrix_dense (n : Nat) : (zeroMatrix n).dense := by unfold zeroMatrix; exact Mem.ofList_dense _

theorem zeroMatrix_length (n : Nat) : (zeroMatrix n).length = n := by simp [zeroMatrix]

/-- An instance whose one block reaches the length limit. -/
def huge : Params := { nRows := 1, mCols := 8 * (2 ^ 58 + 8), nCtx := 1, respDepth := 2 }

theorem sample_inv' {k : Context} (hk : CtxInv (sample k) k) : Inv (sample k) := sample_inv hk [] []

theorem powerOn_t1_inv : Inv (loaded t1 [] (stagedContext 0)) :=
  loaded_inv t1_buildable rfl rfl (Nat.zero_le _) (stagedContext_loaded (Nat.zero_le _))

/-! ### Witnesses: reset, steps, the channel -/

/-- `PowerOnStateIsTheResetTable`, `PowerOnStateMeetsInvariant`, `InfoAnswersSizes`, `PaddingBounds`. -/
theorem witness_buildable : t1.Buildable ∧ Params.sumhash512.Buildable ∧ t1.mCols < 2 ^ 64
    ∧ Context.powerOn ∈ (State.powerOn t1).ctx := by decide

theorem sample_memWf : MemWf { sample abcContext with cmdq := [0#64] } := by
  have hctx : ∀ k ∈ (sample abcContext).ctx, k = abcContext := by intro k h; simpa [sample] using h
  refine { a_wf := Mem.dense_wf t1Matrix_dense, t_wf := ?_, src_wf := Mem.ofList_wf _, stage_wf := fun k h => ?_,
           salt_wf := fun k h => ?_, chain_wf := fun k h => ?_, carry_wf := fun k h => ?_ }
  · show List.Pairwise (· < ·) (t1Table.map Prod.fst)
    rw [deriveTable_keys t1Table_derived]
    exact List.pairwise_lt_range
  all_goals rw [hctx k h]
  · exact List.Pairwise.nil
  · exact List.Pairwise.nil
  · exact Mem.ofList_wf _
  · exact Mem.ofList_wf _

/-- `StepKeepsInvariant`, `StepFromInvariantAlwaysGoesOn`, `BoundContextCounters`, `StepKeepsMemoriesCanonical`,
`StepKeepsQueueWithinCapacity`, `MatrixAndTableAreImmutable`, `ResponsesComeInCommandOrder` (its second case; its first
is `test_step_idles`), `EveryCommandAnswersOnce`. -/
theorem witness_step : ∃ s t : State, Inv s ∧ MemWf s ∧ step s = .next t ∧ s.turns.head? ≠ some .powerOn
    ∧ matrixValid s = true ∧ s.tableValid = true ∧ s.respq.length ≤ s.params.respDepth
    ∧ nextFrame s.cmdq = some (0#64, 0#64, []) ∧ (∃ k ∈ t.ctx, k.bound = true)
    ∧ exec .nop { s with cmdq := [] } = .next t :=
  ⟨{ sample abcContext with cmdq := [0#64] }, { sample abcContext with respq := [0#64] },
    sample_inv (abcContext_inv _) [] _, sample_memWf, rfl, by simp [sample, State.powerOn], rfl, rfl, Nat.zero_le _, rfl,
    ⟨abcContext, List.mem_singleton.2 rfl, rfl⟩, rfl⟩

/-- `StepRunsTheDecodedCommand`, with just enough room, in both its forms. -/
theorem witness_room : ∃ s : State, s.params.Buildable ∧ decode s.cmdq = .ok (.stat 0#8, [])
    ∧ s.respq.length + (1 + ndataOf s.params (Instr.stat 0#8).opcode) = s.params.respDepth
    ∧ s.turns = [] ∧ ({ s with turns := [.block] } : State).turns = .block :: [] :=
  ⟨{ State.powerOn t1 with cmdq := [0x02#64] }, t1_buildable, by decide, rfl, rfl, rfl⟩

/-- `BlockHoldsOrIdlesWithoutChange`: an empty channel and a header whose payload is missing; one beat too little room for
a legal header, for one with a reserved bit and for an illegal one; and both kinds of the block's turn. -/
theorem witness_holds : t1.Buildable ∧ nextFrame [] = none ∧ nextFrame [0x10#64] = none
    ∧ nextFrame [0x02#64] = some (0x02#64, 0#64, []) ∧ headerOpc 0x02#64 = Opcode.stat.byte
    ∧ nextFrame [0x1000002#64] = some (0x1000002#64, 0#64, []) ∧ headerOpc 0x1000002#64 = Opcode.stat.byte
    ∧ t1.respDepth + 1 = [0#64].length + (1 + ndataOf t1 .stat)
    ∧ nextFrame [0x03#64, 7#64] = some (0x03#64, 0#64, [7#64]) ∧ Opcode.ofByte (headerOpc 0x03#64) = none
    ∧ t1.respDepth + 1 = [0#64, 0#64, 0#64, 0#64, 0#64].length + 1
    ∧ (State.powerOn t1).turns = [] ∧ ({ State.powerOn t1 with turns := [.block] } : State).turns = .block :: [] :=
  ⟨t1_buildable, rfl, rfl, rfl, rfl, rfl, rfl, rfl, rfl, rfl, rfl, rfl, rfl⟩

/-- `HostSendsAndTakes`, `OnlyPowerOnResetClears`, `FatalStateIsSticky`: each kind of turn, and a fatal state that steps. -/
theorem witness_host : ∃ s : State, s.params.Buildable ∧ s.respq = 7#64 :: [] ∧ s.fatal = true
    ∧ step { s with turns := [.send 3#64] } = .next { s with turns := [], cmdq := [3#64] }
    ∧ step { s with turns := [.take] } = .next { s with turns := [], respq := [], received := [7#64] }
    ∧ step { s with turns := [.powerOn] } = .next { State.powerOn s.params with turns := [] }
    ∧ step { s with turns := [], cmdq := [0x11#64] } = .next { s with respq := [7#64, 0x1180#64] } :=
  ⟨{ State.powerOn t1 with fatal := true, errcode := 0x81#8, erropc := 0x12#8, respq := [7#64] }, t1_buildable, rfl,
    rfl, rfl, rfl, rfl, rfl⟩

/-- `UnbuildableInstanceIsRefused`: each condition at its boundary. -/
theorem witness_unbuildable : 193 % 8 ≠ 0 ∧ 0 < 1 ∧ 184 / 8 < 8 * 1 + 16 ∧ ¬ 192 / 8 < 8 * 1 + 16
    ∧ step (State.powerOn { t1 with mCols := 184 }) = .refused .notBuildable :=
  ⟨by decide, by decide, by decide, by decide, rfl⟩

/-! ### Witnesses: encodings -/

/-- `EncodeOfDecode`, `IllegalOpcodeTraps`: the bounds of the illegal ranges, with just enough room. -/
theorem witness_illegal : decode [0x10#64, 5#64, 6#64] = .ok (.mload 5#64, [6#64]) ∧ t1.Buildable
    ∧ (∀ h ∈ [0x03#64, 0x0F#64, 0x12#64, 0x1F#64, 0x25#64, 0x2F#64, 0x32#64, 0xFF#64],
        Opcode.ofByte (headerOpc h) = none)
    ∧ [0#64, 0#64, 0#64, 0#64].length + 1 = t1.respDepth :=
  ⟨rfl, by decide, by simp; decide, by decide⟩

/-- `ReservedBitsTrap`: a header for each of its cases; NOP's and MLOAD's do for both values of `FATAL`. -/
theorem witness_reserved :
    (headerOpc 0x1000000#64 = Opcode.nop.byte ∧ (0x1000000#64 : Word).extractLsb' 24 40 ≠ 0#40)
      ∧ (headerOpc 0x8000000000000031#64 = Opcode.crun.byte
          ∧ (0x8000000000000031#64 : Word).extractLsb' 24 40 ≠ 0#40)
      ∧ (headerOpc 0x4021#64 = Opcode.init.byte ∧ (0x4021#64 : Word).extractLsb' 14 2 ≠ 0#2)
      ∧ (headerOpc 0x8021#64 = Opcode.init.byte ∧ (0x8021#64 : Word).extractLsb' 14 2 ≠ 0#2)
      ∧ (headerOpc 0x2031#64 = Opcode.crun.byte ∧ (0x2031#64 : Word).extractLsb' 13 1 ≠ 0#1)
      ∧ (headerOpc 0x1023#64 = Opcode.write.byte ∧ (0x1023#64 : Word).extractLsb' 12 1 ≠ 0#1)
      ∧ (headerOpc 0x131#64 = Opcode.crun.byte ∧ (0x131#64 : Word).extractLsb' 8 4 ≠ 0#4)
      ∧ (headerOpc 0x10010#64 = Opcode.mload.byte ∧ (0x10010#64 : Word).extractLsb' 16 8 ≠ 0#8)
      ∧ ([] : List Word).length + (1 + ndataOf t1 .stat) ≤ t1.respDepth := by decide

/-! ### Witnesses: traps and refusals -/

/-- A stream one byte below the length limit. -/
def fullContext : Context := streamContext (zeros 15) (BitVec.ofNat 64 (2 ^ 58 - 1))

theorem fullContext_inv (k : Context) : CtxInv (sample k) fullContext :=
  streamContext_inv _ _ (by decide) (by decide) k

/-- `TrapsArePrecise`: a violation, and `ERR_LENGTH` (`WriteAtTheLengthLimitChangesNothing`, at the limit exactly). -/
theorem witness_trap :
    (∃ t, exec (.reset 0#8) (State.powerOn t1) = .next t ∧ responseStatus (State.powerOn t1) t = 0x88#8)
      ∧ (∃ t, exec (.write 0#8 1#4 0#64) (sample fullContext) = .next t
          ∧ responseStatus (sample fullContext) t = 0x01#8)
      ∧ (fullContext.view.totalLen.toNat + (1#4).toNat) * 8 = lenLimitBits :=
  ⟨⟨_, rfl, rfl⟩, ⟨_, rfl, rfl⟩, by decide⟩

/-- `FatalStateRefusesCommands`. -/
theorem witness_fatal : ({ State.powerOn t1 with fatal := true } : State).fatal = true ∧ Instr.tderive ≠ .nop
    ∧ Instr.tderive ≠ .info ∧ ∀ c, Instr.tderive ≠ .stat c := ⟨rfl, by decide, by decide, fun c => by simp⟩

/-- `IllegalOperandsTrap`: the least illegal count, the greatest legal one, and the least context that is not there,
with `FATAL` at either value. -/
theorem witness_operands : (State.powerOn t1).fatal = false ∧ 8 < (9#4).toNat ∧ (8#4).toNat ≤ 8
    ∧ (State.powerOn t1).params.nCtx = (1#8).toNat
    ∧ ({ State.powerOn t1 with fatal := true } : State).fatal = true := by decide

/-- `ContextsAreIsolated`: a command on context 0 of two, seen from context 1. -/
theorem witness_isolated :
    (∃ t, exec (.sload 0#8 8#4 5#64) (State.powerOn { t1 with nCtx := 2 }) = .next t)
      ∧ namedCtx (.sload 0#8 8#4 5#64) ≠ some 1#8 := ⟨⟨_, rfl⟩, by decide⟩

/-! ### Witnesses: the matrix and the table -/

/-- `MloadWritesTheNextWord`: empty, one word short, full. -/
theorem witness_mload : (State.powerOn t1).fatal = false ∧ 0 ≠ t1.nRows * t1.mCols ∧ 191 ≠ t1.nRows * t1.mCols
    ∧ (sample abcContext).mptr = t1.nRows * t1.mCols := ⟨rfl, by decide, by decide, by decide⟩

/-- `MatrixLoadIsRowMajor`: no word, and all of them. -/
theorem witness_load : t1.Buildable ∧ ([] : List Word).length ≤ t1.nRows * t1.mCols
    ∧ (List.replicate 192 5#64).length = t1.nRows * t1.mCols ∧ 191 < (List.replicate 192 5#64).length := by
  refine ⟨by decide, Nat.zero_le _, ?_, ?_⟩ <;> rw [List.length_replicate] <;> decide

/-- `CompressAIsTheMaskedSum`, `CompressALaws`, `TableCompressorEqualsMatrixCompressor`, `TderiveIsIdempotent`,
`DerivedTableLaws`, `CrunAnswersRowSums` for both compressors, the second case of `TderiveFillsTheTable`. -/
theorem witness_compress : Inv (sample abcContext) ∧ (sample abcContext).fatal = false
    ∧ matrixValid (sample abcContext) = true ∧ (sample abcContext).tableValid = true
    ∧ (∀ csel, compressorReady (sample abcContext) csel = true)
    ∧ (sample abcContext).srcCnt = (sample abcContext).params.inputLen
    ∧ (0xF0#8 :: zeros 23).length = t1.inputLen ∧ (0x0F#8 :: zeros 23).length = t1.inputLen
    ∧ List.zipWith (· &&& ·) (0xF0#8 :: zeros 23) (0x0F#8 :: zeros 23) = zeros t1.inputLen
    ∧ 23 < t1.inputLen ∧ 0 < t1.nRows :=
  ⟨sample_inv' (abcContext_inv _), rfl, rfl, rfl, fun c => by cases c <;> rfl, rfl, by decide, by decide, by decide,
    by decide, by decide⟩

/-- `TderiveFillsTheTable`, first case; `CrunTraps` and `InitTraps` with no matrix and no table. -/
theorem witness_not_ready : Inv (loaded t1 [] (stagedContext 0)) ∧ (loaded t1 [] (stagedContext 0)).fatal = false
    ∧ matrixValid (loaded t1 [] (stagedContext 0)) = false
    ∧ (loaded t1 [] (stagedContext 0)).mptr ≠ t1.nRows * t1.mCols
    ∧ (loaded t1 [] (stagedContext 0)).tableValid = false :=
  ⟨powerOn_t1_inv, rfl, by decide, by decide, rfl⟩

/-- `CrunTraps`, last case: one byte short. -/
theorem witness_crun_length : compressorReady { sample abcContext with srcCnt := 23 } .table = true
    ∧ 23 ≠ t1.inputLen := ⟨rfl, by decide⟩

/-- `CloadAppendsBytes`: exactly full, and one byte too many. -/
theorem witness_cload : (State.powerOn t1).fatal = false ∧ (8#4).toNat ≤ 8 ∧ 16 + (8#4).toNat = t1.inputLen
    ∧ t1.inputLen < 17 + (8#4).toNat := by decide

/-! ### Witnesses: streaming -/

/-- `SloadStagesBytes`: exactly full, and one byte too many. `UnboundContextTraps`, `StatAnswersEveryField`. -/
theorem witness_sload : (sample (stagedContext 8)).fatal = false ∧ (0#8).toNat < t1.nCtx ∧ (8#4).toNat ≤ 8
    ∧ (sample (stagedContext 8)).ctx[(0#8).toNat]? = some (stagedContext 8) ∧ (stagedContext 8).bound = false
    ∧ (stagedContext 8).saltCnt + (8#4).toNat = t1.blockSize
    ∧ t1.blockSize < (stagedContext 9).saltCnt + (8#4).toNat :=
  ⟨rfl, by decide, by decide, rfl, rfl, by decide, by decide⟩

/-- `InitUnsaltedConstructs`, `InitSaltedFoldsTheSalt`, for both compressors, and `InitTraps`, one byte of salt short. -/
theorem witness_init : Inv (sample (stagedContext 16)) ∧ (sample (stagedContext 16)).fatal = false
    ∧ (0#8).toNat < t1.nCtx ∧ (sample (stagedContext 16)).ctx[(0#8).toNat]? = some (stagedContext 16)
    ∧ (∀ csel, compressorReady (sample (stagedContext 16)) csel = true)
    ∧ (stagedContext 16).saltCnt = t1.blockSize ∧ t1.blockSize * 8 < lenLimitBits
    ∧ (stagedContext 15).saltCnt ≠ t1.blockSize :=
  ⟨sample_inv' (stagedContext_inv 16 (le_refl _) _), rfl, by decide, rfl, fun c => by cases c <;> rfl, by decide,
    by decide, by decide⟩

/-- `InitSaltedAtTheLengthLimit`. -/
theorem witness_init_limit : ∃ s : State, ∃ k : Context, Inv s ∧ s.fatal = false ∧ (0#8).toNat < s.params.nCtx
    ∧ s.ctx[(0#8).toNat]? = some k ∧ compressorReady s .matrix = true ∧ k.saltCnt = s.params.blockSize
    ∧ lenLimitBits ≤ s.params.blockSize * 8 := by
  have hb : huge.blockSize = 2 ^ 58 := by decide
  have hl : (zeroMatrix huge.matrixWords).length = huge.matrixWords := zeroMatrix_length _
  refine ⟨loaded huge (zeroMatrix huge.matrixWords) (stagedContext huge.blockSize), stagedContext huge.blockSize,
    loaded_inv (by decide) rfl (zeroMatrix_dense _) (le_of_eq hl) (stagedContext_loaded (le_refl _)), rfl,
    Nat.zero_lt_one, rfl, ?_, rfl, ?_⟩
  · show ((zeroMatrix huge.matrixWords).length == huge.matrixWords) = true
    rw [hl]; exact beq_self_eq_true _
  · show lenLimitBits ≤ huge.blockSize * 8
    rw [hb]; decide

/-- A salted context right after an `INIT` whose fold-in failed. -/
def clearedSalted (p : Params) : Context :=
  { bound := true, phase := .fresh, saltStage := [], saltCnt := 0,
    view := { chain := Mem.ofList (zeros p.outputLen), carry := [], carryLen := 0, totalLen := 0#64, salted := true,
              salt := Mem.ofList (zeros p.blockSize), csel := .matrix } }

/-- `ResetReconstructs`, its last case. -/
theorem witness_reset_limit : ∃ s : State, ∃ k : Context, Inv s ∧ s.fatal = false ∧ (0#8).toNat < s.params.nCtx
    ∧ s.ctx[(0#8).toNat]? = some k ∧ k.bound = true ∧ k.view.salted = true
    ∧ lenLimitBits ≤ s.params.blockSize * 8 := by
  have hb : huge.blockSize = 2 ^ 58 := by decide
  have hl : (zeroMatrix huge.matrixWords).length = huge.matrixWords := zeroMatrix_length _
  refine ⟨loaded huge (zeroMatrix huge.matrixWords) (clearedSalted huge), clearedSalted huge,
    loaded_inv (by decide) rfl (zeroMatrix_dense _) (le_of_eq hl)
      { stage_dense := rfl, stage_length := Nat.zero_le _, stage_count := Nat.zero_le _,
        bound_phase := fun _ => (by simp [clearedSalted]), unbound_phase := fun h => (by cases h),
        unbound_view := fun h => (by cases h),
        bound_view := fun _ =>
          { chain_dense := Mem.ofList_dense _, chain_length := ?_, carry_dense := rfl, carry_length := rfl,
            carry_mod := (Nat.zero_mod _).symm, total_limit := by decide, salt_dense := Mem.ofList_dense _,
            salt_length := fun _ => ?_, ready := ?_ } },
    rfl, Nat.zero_lt_one, rfl, rfl, rfl, ?_⟩
  · show (Mem.ofList (zeros huge.outputLen)).length = huge.outputLen
    simp
  · show (Mem.ofList (zeros huge.blockSize)).length = huge.blockSize
    simp
  · show ((zeroMatrix huge.matrixWords).length == huge.matrixWords) = true
    rw [hl]; exact beq_self_eq_true _
  · show lenLimitBits ≤ huge.blockSize * 8
    rw [hb]; decide

/-- `ResetReconstructs` and `ResetEqualsFreshInit`, salted and not; `SaltFoldInEqualsSaltAsMessage`. -/
theorem witness_reset : Inv (sample abcContext) ∧ Inv (sample saltedContext)
    ∧ (sample abcContext).ctx[(0#8).toNat]? = some abcContext ∧ abcContext.bound = true
    ∧ abcContext.view.salted = false ∧ (sample saltedContext).ctx[(0#8).toNat]? = some saltedContext
    ∧ saltedContext.bound = true ∧ saltedContext.view.salted = true
    ∧ ViewInv (sample saltedContext) saltedContext.view :=
  ⟨sample_inv' (abcContext_inv _), sample_inv' (saltedContext_inv _), rfl, rfl, rfl, rfl, rfl, rfl,
    (saltedContext_inv _).bound_view rfl⟩

/-- `WriteAppendsToTheStream`: short of a block, exactly a block, and the last byte below the limit. -/
theorem witness_write : Inv (sample abcContext) ∧ Inv (sample (streamContext (zeros 8) 8#64))
    ∧ Inv (sample (streamContext (zeros 14) (BitVec.ofNat 64 (2 ^ 58 - 2))))
    ∧ (sample abcContext).fatal = false ∧ (0#8).toNat < t1.nCtx ∧ (8#4).toNat ≤ 8
    ∧ (abcContext.view.totalLen.toNat + (8#4).toNat) * 8 < lenLimitBits
    ∧ ((BitVec.ofNat 64 (2 ^ 58 - 2) : BitVec 64).toNat + (1#4).toNat) * 8 + 8 = lenLimitBits
    ∧ (abcContext.view.carry.map Prod.snd ++ payloadBytes 8#4 0#64).length < t1.blockSize
    ∧ (zeros 8 ++ payloadBytes 8#4 0#64).length = t1.blockSize :=
  ⟨sample_inv' (abcContext_inv _), sample_inv' (streamContext_inv _ _ (by decide) (by decide) _),
    sample_inv' (streamContext_inv _ _ (by decide) (by decide) _), rfl, by decide, by decide, by decide, by decide,
    by decide, by decide⟩

/-- `WriteAtTheLengthLimitChangesNothing`, at the limit exactly. -/
theorem witness_write_limit : (sample fullContext).fatal = false
    ∧ (sample fullContext).ctx[(0#8).toNat]? = some fullContext ∧ fullContext.bound = true
    ∧ lenLimitBits ≤ (fullContext.view.totalLen.toNat + (1#4).toNat) * 8 := ⟨rfl, rfl, rfl, by decide⟩

/-- `FinalAnswersThePaddedChain`: 32 bytes of padding reach the limit exactly; 17 bytes, from one byte less, stay below. -/
theorem witness_final : Inv (sample (streamContext [] (BitVec.ofNat 64 (2 ^ 58 - 32))))
    ∧ Inv (sample (streamContext (zeros 15) (BitVec.ofNat 64 (2 ^ 58 - 33))))
    ∧ 15 < t1.blockSize ∧ (2 ^ 58 - 32 + 1 + 15) % t1.blockSize = t1.blockSize - 16
    ∧ 8 * (2 ^ 58 - 32 + 1 + 15 + 16) = lenLimitBits
    ∧ 0 < t1.blockSize ∧ (2 ^ 58 - 33 + 1 + 0) % t1.blockSize = t1.blockSize - 16
    ∧ 8 * (2 ^ 58 - 33 + 1 + 0 + 16) < lenLimitBits :=
  ⟨sample_inv' (streamContext_inv _ _ (by decide) (by decide) _),
    sample_inv' (streamContext_inv _ _ (by decide) (by decide) _), by decide, by decide, by decide, by decide,
    by decide, by decide⟩

/-- `LittleEndianBytes`: eight bytes, a second word, and two payloads that differ above their count. -/
theorem witness_bytes : (le64 5#64).length = 8 ∧ [5#64, 6#64][1]? = some 6#64
    ∧ ∀ n, n < 8 * (1#4).toNat → (0x100#64 : Word).getLsbD n = (0x200#64 : Word).getLsbD n := by
  refine ⟨by decide, rfl, fun n h => ?_⟩
  have h : n < 8 := h
  interval_cases n <;> decide

/-- `SplitOfWritesDoesNotMatter`, `DigestIsThePaddedChainHash` (unsalted), `FinalIsNonDestructive`: `def` in one write
and in two, after `abc`. -/
theorem witness_split : Inv (sample abcContext) ∧ (sample abcContext).fatal = false ∧ (0#8).toNat < t1.nCtx
    ∧ (sample abcContext).ctx[(0#8).toNat]? = some abcContext ∧ abcContext.bound = true
    ∧ (∀ x ∈ [(3#4, 0x666564#64)], x.1.toNat ≤ 8) ∧ (∀ x ∈ [(1#4, 0x64#64), (2#4, 0x6665#64)], x.1.toNat ≤ 8)
    ∧ messageOf [(3#4, 0x666564#64)] = messageOf [(1#4, 0x64#64), (2#4, 0x6665#64)]
    ∧ (abcContext.view.totalLen.toNat + (messageOf [(3#4, 0x666564#64)]).length) * 8 < lenLimitBits
    ∧ 8 * ((messageOf [(3#4, 0x666564#64)]).length
        + (pad1 t1 (messageOf [(3#4, 0x666564#64)]).length).length + 16) < lenLimitBits :=
  ⟨sample_inv' (abcContext_inv _), rfl, by decide, rfl, rfl, by simp, by simp, by decide, by decide, by decide⟩

/-- `DigestIsThePaddedChainHash`, salted: the salt is staged, and the stream begins with a block of zeros. -/
theorem witness_digest_salted : Inv (sample (stagedContext 16)) ∧ (stagedContext 16).saltCnt = t1.blockSize
    ∧ 8 * ((zeros t1.blockSize ++ messageOf [(3#4, 0x666564#64)]).length
        + (pad1 t1 (zeros t1.blockSize ++ messageOf [(3#4, 0x666564#64)]).length).length + 16) < lenLimitBits :=
  ⟨sample_inv' (stagedContext_inv 16 (le_refl _) _), by decide, by decide⟩

/-- `CompressorChoiceIsInvisible`: FINAL of the context is neither its STAT nor its INIT. -/
theorem witness_choice : Inv (sample abcContext) ∧ (sample abcContext).tableValid = true ∧ (0#8).toNat < t1.nCtx
    ∧ Instr.final 0#8 ≠ .stat 0#8 ∧ ∀ csel salted, Instr.final 0#8 ≠ .init 0#8 csel salted :=
  ⟨sample_inv' (abcContext_inv _), rfl, by decide, by decide, fun _ _ => Instr.noConfusion⟩

/-- `EmptyDigestOfSumhash512`. -/
theorem witness_sumhash512 : ∃ s : State, Inv s ∧ s.fatal = false ∧ s.params.nRows = 8 ∧ s.params.mCols = 1024
    ∧ (0#8).toNat < s.params.nCtx ∧ compressorReady s .matrix = true := by
  have hl : (zeroMatrix Params.sumhash512.matrixWords).length = Params.sumhash512.matrixWords := zeroMatrix_length _
  refine ⟨loaded Params.sumhash512 (zeroMatrix Params.sumhash512.matrixWords) (stagedContext 0),
    loaded_inv (by decide) rfl (zeroMatrix_dense _) (le_of_eq hl) (stagedContext_loaded (Nat.zero_le _)), rfl, rfl, rfl,
    Nat.zero_lt_one, ?_⟩
  show ((zeroMatrix Params.sumhash512.matrixWords).length == Params.sumhash512.matrixWords) = true
  rw [hl]; exact beq_self_eq_true _

/-- `TimingIsDataIndependent`: two carries that differ, and two payloads that differ. -/
theorem witness_timing : Inv (sample (streamContext [1#8] 1#64)) ∧ Inv (sample (streamContext [2#8] 1#64))
    ∧ SameControl (sample (streamContext [1#8] 1#64)) (sample (streamContext [2#8] 1#64))
    ∧ encodeHeader (.write 0#8 3#4 5#64) = encodeHeader (.write 0#8 3#4 6#64) :=
  ⟨sample_inv' (streamContext_inv _ _ (by decide) (by decide) _),
    sample_inv' (streamContext_inv _ _ (by decide) (by decide) _),
    { params := rfl, fatal := rfl, errcode := rfl, erropc := rfl, mptr := rfl, tableValid := rfl, srcCnt := rfl,
      respq := rfl, ctx := .cons (by simp [sameCtxControl, streamContext]) .nil }, by decide⟩

end Sys2Proof.Tests
end

/-! # Proofs of the family 00_scope: an instance that cannot be built (R8), and byte order (R11, R62 to R65, R83). -/

namespace Sys2Proof.Machine

/-! ### An instance that breaks R8 -/

/-- The only refusal a step makes: no turn is taken on an instance that cannot be built (R8, log 1). -/
theorem step_of_not_buildable {s : State} (h : ¬ s.params.Buildable) : step s = .refused .notBuildable := if_neg h

/-- R8's third condition over naturals: `BS` is at least 16 only where `IL` reaches `OL + 16`. -/
theorem outputLen_add_le_of_buildable {p : Params} (h : p.Buildable) : 8 * p.nRows + 16 ≤ p.mCols / 8 := by
  obtain ⟨-, -, hbs, -⟩ := h
  simp only [Params.blockSize, Params.inputLen, Params.outputLen] at hbs
  omega

/-- Settles O14: each of the three conditions denies one conjunct of `Params.Buildable`. -/
theorem unbuildableInstanceIsRefused : Obligations.UnbuildableInstanceIsRefused := by
  intro s hbreaks
  refine step_of_not_buildable fun hb => ?_
  have hblock := outputLen_add_le_of_buildable hb
  obtain ⟨hcols, hrows, -⟩ := hb
  omega

/-! ### Bytes of a word -/

/-- Bit `j` of byte `n` is bit `8n + j` of the word (R64). -/
theorem getLsbD_byteOf (w : Word) (n : Nat) {j : Nat} (hj : j < 8) :
    (byteOf w n).getLsbD j = w.getLsbD (8 * n + j) := by
  simp [byteOf, hj]

theorem getElem?_le64 (w : Word) {n : Nat} (hn : n < 8) : (le64 w)[n]? = some (byteOf w n) := by
  simp [le64, hn]

theorem getElem?_payloadBytes (cnt : BitVec 4) (w : Word) {n : Nat} (hn : n < cnt.toNat) :
    (payloadBytes cnt w)[n]? = some (byteOf w n) := by
  simp [payloadBytes, hn]

/-- Bit `i` of `W64(b)` is bit `i mod 8` of byte `i / 8`; a byte that is not there counts as zero (R11). -/
theorem getLsbD_w64 (b : List Byte) {i : Nat} (hi : i < 64) :
    (w64 b).getLsbD i = (b[i / 8]?.getD 0#8).getLsbD (i % 8) := by
  induction b generalizing i with
  | nil => simp [w64]
  | cons x xs ih =>
    by_cases hlow : i < 8
    · simp [w64, hi, hlow, Nat.div_eq_of_lt hlow, Nat.mod_eq_of_lt hlow]
    · have hdiv : i / 8 = (i - 8) / 8 + 1 := by omega
      have hmod : (i - 8) % 8 = i % 8 := by omega
      have hx : x.getLsbD i = false := x.getLsbD_of_ge i (by omega)
      have hrest := ih (show i - 8 < 64 by omega)
      rw [hdiv, List.getElem?_cons_succ, ← hmod, ← hrest]
      simp [w64, hi, hlow, hx, -BitVec.getLsbD_eq_getElem]

/-- `W64` undoes `LE64` (R11): both read bit `i` in byte `i / 8` at bit `i mod 8`. -/
theorem w64_le64 (w : Word) : w64 (le64 w) = w := by
  refine BitVec.eq_of_getLsbD_eq fun i hi => ?_
  have hbyte : i / 8 < 8 := by omega
  rw [getLsbD_w64 _ hi, getElem?_le64 w hbyte, Option.getD_some, getLsbD_byteOf w _ (Nat.mod_lt i (by omega)),
    Nat.div_add_mod]

/-- Byte `n` of `W64(b)` is `b[n]` (R11). -/
theorem byteOf_w64 (b : List Byte) {n : Nat} (hn : n < 8) : byteOf (w64 b) n = b[n]?.getD 0#8 := by
  refine BitVec.eq_of_getLsbD_eq fun j hj => ?_
  have hdiv : (8 * n + j) / 8 = n := by omega
  have hmod : (8 * n + j) % 8 = j := by omega
  rw [getLsbD_byteOf _ n hj, getLsbD_w64 b (by omega), hdiv, hmod]

/-- `LE64` undoes `W64` on eight bytes (R11). -/
theorem le64_w64 {b : List Byte} (hb : b.length = 8) : le64 (w64 b) = b := by
  refine List.ext_getElem? fun n => ?_
  by_cases hn : n < 8
  · rw [getElem?_le64 _ hn, byteOf_w64 b hn, List.getElem?_eq_getElem (hb ▸ hn), Option.getD_some]
  · rw [List.getElem?_eq_none (by simpa using hn), List.getElem?_eq_none (by omega)]

/-! ### Byte strings laid out from words -/

/-- Byte `8i + n` of the rows of a chain is byte `n` of row `i` (R62). -/
theorem getElem?_bytesOfWords {ws : List Word} {i n : Nat} {w : Word} (hw : ws[i]? = some w) (hn : n < 8) :
    (bytesOfWords ws)[8 * i + n]? = some (byteOf w n) := by
  induction ws generalizing i with
  | nil => simp at hw
  | cons v vs ih =>
    have hcons : bytesOfWords (v :: vs) = le64 v ++ bytesOfWords vs := rfl
    cases i with
    | zero =>
      obtain rfl : v = w := by simpa using hw
      rw [hcons, Nat.mul_zero, Nat.zero_add, List.getElem?_append_left (by simpa using hn), getElem?_le64 v hn]
    | succ i =>
      have hrest : 8 * (i + 1) + n - (le64 v).length = 8 * i + n := by simp; omega
      rw [hcons, List.getElem?_append_right (by simp; omega), hrest]
      exact ih hw

/-- The length suffix: eight bytes of the bit length, then eight zeros (R63, R181). -/
theorem getElem?_padSuffix (t : Nat) {n : Nat} (hn : n < 16) :
    (padSuffix t)[n]? = some (if n < 8 then byteOf (BitVec.ofNat 64 (8 * t)) n else 0#8) := by
  by_cases hlow : n < 8
  · rw [padSuffix, List.getElem?_append_left (by simpa using hlow), getElem?_le64 _ hlow, if_pos hlow]
  · have hzero : n - 8 < 8 := by omega
    rw [padSuffix, List.getElem?_append_right (by simpa using hlow), le64_length, if_neg hlow, zeros,
      List.getElem?_replicate, if_pos hzero]

/-- The payload's bits from `8 * CNT` up are ignored (R83). -/
theorem payloadBytes_congr {cnt : BitVec 4} {w w' : Word}
    (h : ∀ n, n < 8 * cnt.toNat → w.getLsbD n = w'.getLsbD n) : payloadBytes cnt w = payloadBytes cnt w' := by
  refine List.map_congr_left fun n hn => BitVec.eq_of_getLsbD_eq fun j hj => ?_
  have hn : n < cnt.toNat := List.mem_range.mp hn
  rw [getLsbD_byteOf w n hj, getLsbD_byteOf w' n hj, h (8 * n + j) (by omega)]

/-- Settles O52: one layout lemma for each kind of byte string. -/
theorem littleEndianBytes : Obligations.LittleEndianBytes :=
  ⟨fun w => ⟨w64_le64 w, le64_length w, fun _ hn => getElem?_le64 w hn⟩,
    fun _ hb => le64_w64 hb,
    fun _ _ _ _ hw hn => getElem?_bytesOfWords hw hn,
    fun t _ hn => getElem?_padSuffix t hn,
    fun cnt w => ⟨payloadBytes_length cnt w, fun _ hn => getElem?_payloadBytes cnt w hn⟩,
    fun _ _ _ h => payloadBytes_congr h⟩

end Sys2Proof.Machine

/-! # Proofs of the family 10_state: power-on reset (R54), the invariant and what every step keeps (R22 to R54). -/

namespace Sys2Proof.Machine

/-! ### What a step can do to the state, said once -/

/-- What a completed command does to the context it names (42_streaming_engine.md R162 to R169). -/
inductive CtxEffect (s : State) (k : Context) : Context → Prop where
  /-- `SLOAD`. -/
  | stage (bytes : List Byte) : k.saltCnt + bytes.length ≤ s.params.blockSize →
      CtxEffect s k { k with saltStage := k.saltStage.writeRange k.saltCnt bytes, saltCnt := k.saltCnt + bytes.length }
  /-- `INIT`. -/
  | init (csel : Compressor) (salted : Bool) (salt : Mem Byte) (v : View) : compressorReady s csel = true →
      initSalt s k salted = .ok salt →
      resetView s { k.view with salt := salt, csel := csel, salted := salted } = .ok v →
      CtxEffect s k { k with saltCnt := 0, bound := true, phase := .fresh, view := v }
  /-- `RESET`. -/
  | reset (v : View) : k.bound = true → resetView s k.view = .ok v →
      CtxEffect s k { k with phase := .fresh, view := v }
  /-- `WRITE`. -/
  | write (d : List Byte) (v : View) : k.bound = true → writePath s k.view d = .ok (some v) →
      CtxEffect s k { k with phase := .accumulating, view := v }

/-- What a completed command does to the state, but for its response: at most one piece of it changes. -/
inductive Effect (s : State) : State → Prop where
  /-- The commands that only answer. -/
  | none : Effect s s
  /-- `MLOAD` (40_matrix_compressor.md R112). -/
  | matrixWord (w : Word) : s.mptr ≠ s.params.matrixWords →
      Effect s { s with a := s.a.write s.mptr w, mptr := s.mptr + 1 }
  /-- `TDERIVE` (41_lookup_table.md R141). -/
  | table (t : Mem Word) : matrixValid s = true → deriveTable s.params s.a = .ok t →
      Effect s { s with t := t, tableValid := true }
  /-- `CLOAD` (40_matrix_compressor.md R117). -/
  | source (bytes : List Byte) : s.srcCnt + bytes.length ≤ s.params.inputLen →
      Effect s { s with src := s.src.writeRange s.srcCnt bytes, srcCnt := s.srcCnt + bytes.length }
  /-- `CRUN` (40_matrix_compressor.md R118). -/
  | sourceUsed : Effect s { s with srcCnt := 0 }
  /-- A command to a context that exists. -/
  | context (c : BitVec 8) (k : Context) : c.toNat < s.params.nCtx → CtxEffect s (ctxAt s c) k →
      Effect s (setCtx s c k)

/-- The row-major index of the next matrix word is `MPTR` itself (40_matrix_compressor.md R113). -/
theorem cellA_div_mod (p : Params) (n : Nat) : cellA p (n / p.mCols) (n % p.mCols) = n := Nat.div_add_mod' n p.mCols

/-- Every completed command has one of these effects. -/
theorem effect_of_completed {i : Instr} {s u : State} {data : List Word} (hw : i.wellFormed s.params = true)
    (hc : Completed s i u data) : Effect s u := by
  cases i with
  | nop => obtain ⟨rfl, -⟩ := hc; exact .none
  | info => obtain ⟨rfl, -⟩ := hc; exact .none
  | stat c => obtain ⟨rfl, -⟩ := hc; exact .none
  | final c => obtain ⟨-, rfl, -⟩ := hc; exact .none
  | mload w => obtain ⟨hne, -, rfl⟩ := hc; rw [cellA_div_mod]; exact .matrixWord w hne
  | tderive => obtain ⟨hm, -, t, ht, rfl⟩ := hc; exact .table t hm ht
  | cload cnt w =>
    obtain ⟨hl, -, rfl⟩ := hc
    simpa using Effect.source (s := s) (payloadBytes cnt w) (by simpa using hl)
  | crun csel => obtain ⟨-, -, x, -, -, rfl⟩ := hc; exact .sourceUsed
  | sload c cnt w =>
    obtain ⟨hl, -, rfl⟩ := hc
    simp only [Instr.wellFormed, ctxLegal, Bool.and_eq_true, decide_eq_true_eq] at hw
    exact .context c _ hw.1 (by simpa using CtxEffect.stage (s := s) (payloadBytes cnt w) (by simpa using hl))
  | init c csel salted =>
    obtain ⟨hr, -, -, salt, v, hsalt, hv, rfl⟩ := hc
    exact .context c _ (by simpa [Instr.wellFormed, ctxLegal] using hw) (.init csel salted salt v hr hsalt hv)
  | reset c =>
    obtain ⟨hb, -, v, hv, rfl⟩ := hc
    exact .context c _ (by simpa [Instr.wellFormed, ctxLegal] using hw) (.reset v hb hv)
  | write c cnt w =>
    obtain ⟨hb, -, v, hv, rfl⟩ := hc
    simp only [Instr.wellFormed, ctxLegal, Bool.and_eq_true, decide_eq_true_eq] at hw
    exact .context c _ hw.1 (.write (payloadBytes cnt w) v hb hv)

/-- A command that completes while `FATAL = 1` is a status command, and changes nothing (30_encoding.md R100 step 2). -/
theorem completed_status {i : Instr} {s u : State} {data : List Word} (ho : i.opcode.isStatus = true)
    (hc : Completed s i u data) : u = s := by
  cases i with
  | nop | info | stat => exact hc.1
  | mload | tderive | sload | init | reset | write | final | cload | crun => cases ho

/-- `s` after the sequencer has taken a command's beats, or the turn alone, from what is still to come. -/
abbrev State.withInput (s : State) (beats : List Word) (ts : List Turn) : State := { s with cmdq := beats, turns := ts }

/-- Everything a step can do, with the room each response had (70_reset_and_hazards.md R272). -/
inductive StepEffect (s : State) : State → Prop where
  /-- The sequencer idles or holds, or the host sends a beat. -/
  | input (beats : List Word) (ts : List Turn) : StepEffect s (s.withInput beats ts)
  /-- A command or a header refused because `FATAL = 1` (60_exceptions.md R231). -/
  | refused (beats : List Word) (ts : List Turn) (opc : Byte) : s.fatal = true →
      s.respq.length + 1 ≤ s.params.respDepth → StepEffect s (refuseFatal opc (s.withInput beats ts))
  /-- A contract violation (60_exceptions.md R228). -/
  | violation (beats : List Word) (ts : List Turn) (opc : Byte) (st : Status) : st.isContract = true →
      s.respq.length + 1 ≤ s.params.respDepth → StepEffect s (raise opc st (s.withInput beats ts))
  /-- The length limit (60_exceptions.md R230). -/
  | length (beats : List Word) (ts : List Turn) (opc : Byte) :
      s.respq.length + 1 ≤ s.params.respDepth → StepEffect s (respond opc .errLength [] (s.withInput beats ts))
  /-- A command completes. -/
  | done (beats : List Word) (ts : List Turn) (i : Instr) (u : State) (data : List Word) :
      (s.fatal = false ∨ i.opcode.isStatus = true) → i.wellFormed s.params = true →
      Completed (s.withInput beats ts) i u data →
      s.respq.length + (1 + data.length) ≤ s.params.respDepth → StepEffect s (respond i.opcode.byte .ok data u)
  /-- The host takes a beat. -/
  | take (ts : List Turn) : StepEffect s (takeBeat { s with turns := ts })
  /-- Power-on reset. -/
  | powerOn (ts : List Turn) : s.turns.head? = some .powerOn → StepEffect s (powerOnReset { s with turns := ts })

/-- What a command the sequencer has decoded can do, where its whole response has room. -/
theorem stepEffect_of_exec {s t : State} {i : Instr} {beats : List Word} {ts : List Turn}
    (hroom : s.respq.length + (1 + ndataOf s.params i.opcode) ≤ s.params.respDepth)
    (he : exec i (s.withInput beats ts) = .next t) : StepEffect s t := by
  have hone : s.respq.length + 1 ≤ s.params.respDepth := by omega
  rcases exec_cases he with ⟨hf, -, rfl⟩ | ⟨st, hst, -, rfl⟩ | ⟨-, rfl⟩ | ⟨u, data, hf, hw, hc, rfl⟩
  · exact .refused _ _ _ hf hone
  · exact .violation _ _ _ _ hst hone
  · exact .length _ _ _ hone
  · obtain ⟨hlen, -, -⟩ := completed_data hc
    exact .done _ _ i u data hf hw hc (hlen ▸ hroom)

/-- The same for a rejected header. -/
theorem stepEffect_of_rejectHeader {s : State} (opc : Byte) (e : HeaderError) (beats : List Word) (ts : List Turn)
    (hroom : s.respq.length + 1 ≤ s.params.respDepth) :
    StepEffect s (rejectHeader opc e (s.withInput beats ts)) := by
  rcases rejectHeader_cases opc e (s.withInput beats ts) with ⟨hf, h⟩ | ⟨st, hst, h⟩ <;> rw [h]
  · exact .refused _ _ _ hf hroom
  · exact .violation _ _ _ _ hst hroom

/-- The inversion of `step`. -/
theorem stepEffect_of_step {s t : State} (h : step s = .next t) : StepEffect s t := by
  obtain ⟨-, ⟨ts, -, -, hseq⟩ | ⟨w, ts, -, rfl⟩ | ⟨ts, -, rfl⟩ | ⟨ts, hts, rfl⟩⟩ := step_cases h
  · rcases sequencerTurn_cases hseq with rfl | ⟨hd, w, rest, -, hroom, hcmd⟩
    · exact .input s.cmdq ts
    · have hroom : s.respq.length + responseBeats s.params hd ≤ s.params.respDepth := (hasRoom_iff _ _).mp hroom
      rcases hcmd with ⟨i, hi, he⟩ | ⟨e, -, rfl⟩
      · obtain ⟨op, hop, -, -, rfl⟩ := decodeFrame_ok hi
        rw [responseBeats_of_opcode hop] at hroom
        exact stepEffect_of_exec hroom he
      · have hpos := responseBeats_pos s.params hd
        exact stepEffect_of_rejectHeader _ e rest ts (by omega)
  · exact .input _ ts
  · exact .take ts
  · exact .powerOn ts (by rw [hts]; rfl)

/-! ### The canonical form of the memories, one context at a time -/

/-- The canonical form of the three memories of a view. -/
structure ViewWf (v : View) : Prop where
  salt_wf : v.salt.wf
  chain_wf : v.chain.wf
  carry_wf : v.carry.wf

/-- The canonical form of every memory of a context. -/
structure CtxWf (k : Context) : Prop where
  stage_wf : k.saltStage.wf
  view_wf : ViewWf k.view

/-- `MemWf`, one context at a time. -/
theorem memWf_iff {s : State} : MemWf s ↔ s.a.wf ∧ s.t.wf ∧ s.src.wf ∧ ∀ k ∈ s.ctx, CtxWf k := by
  constructor
  · rintro ⟨ha, ht, hsrc, hstage, hsalt, hchain, hcarry⟩
    exact ⟨ha, ht, hsrc, fun k hk => ⟨hstage k hk, hsalt k hk, hchain k hk, hcarry k hk⟩⟩
  · rintro ⟨ha, ht, hsrc, hctx⟩
    exact ⟨ha, ht, hsrc, fun k hk => (hctx k hk).stage_wf, fun k hk => (hctx k hk).view_wf.salt_wf,
      fun k hk => (hctx k hk).view_wf.chain_wf, fun k hk => (hctx k hk).view_wf.carry_wf⟩

theorem Mem.nil_wf {α : Type} : Mem.wf ([] : Mem α) := List.Pairwise.nil

/-! ### The power-on state -/

/-- Every context of the power-on state is a context after power-on. -/
theorem eq_powerOn_of_mem_ctx {p : Params} {k : Context} (hk : k ∈ (State.powerOn p).ctx) : k = Context.powerOn :=
  List.eq_of_mem_replicate hk

theorem matrixWords_pos {p : Params} (hb : p.Buildable) : 0 < p.matrixWords := by
  have hcols := outputLen_add_le_of_buildable hb
  exact Nat.mul_pos hb.2.1 (by omega)

theorem sumhash512_buildable : Params.sumhash512.Buildable := by decide

/-- Settles O1: nothing is listed in any memory, and the contexts are all the power-on one. -/
theorem powerOnStateIsTheResetTable : Obligations.PowerOnStateIsTheResetTable := by
  refine ⟨fun p hb => ?_, Params.sumhash512, sumhash512_buildable, rfl⟩
  have hmatrix : matrixValid (State.powerOn p) = false := beq_false_of_ne (matrixWords_pos hb).ne
  refine ⟨rfl, rfl, rfl, rfl, hmatrix, fun _ _ => rfl, rfl, fun _ _ _ => rfl, rfl, fun _ => rfl, rfl,
    List.length_replicate, fun k hk => ?_⟩
  rw [eq_powerOn_of_mem_ctx hk]
  exact ⟨rfl, rfl, rfl, rfl, rfl, fun _ => rfl, fun _ => rfl, fun _ => rfl, rfl, fun _ => rfl, rfl⟩

theorem ctxInv_powerOn (s : State) : CtxInv s Context.powerOn where
  stage_dense := rfl
  stage_length := Nat.zero_le _
  stage_count := Nat.le_refl _
  bound_phase h := nomatch h
  bound_view h := nomatch h
  unbound_phase _ := rfl
  unbound_view _ := rfl

theorem inv_powerOn {p : Params} (hb : p.Buildable) : Inv (State.powerOn p) where
  buildable := hb
  no_error _ := ⟨rfl, rfl⟩
  error_code h := nomatch h
  mptr_le := Nat.zero_le _
  a_dense := rfl
  a_length := rfl
  table_matrix h := nomatch h
  table_derived h := nomatch h
  table_absent _ := rfl
  src_dense := rfl
  src_length := Nat.zero_le _
  src_count := Nat.le_refl _
  respq_le := Nat.zero_le _
  ctx_length := List.length_replicate
  ctx_inv k hk := by rw [eq_powerOn_of_mem_ctx hk]; exact ctxInv_powerOn _

theorem ctxWf_powerOn : CtxWf Context.powerOn := ⟨Mem.nil_wf, Mem.nil_wf, Mem.nil_wf, Mem.nil_wf⟩

theorem memWf_powerOn (p : Params) : MemWf (State.powerOn p) :=
  memWf_iff.mpr ⟨Mem.nil_wf, Mem.nil_wf, Mem.nil_wf, fun _ hk => eq_powerOn_of_mem_ctx hk ▸ ctxWf_powerOn⟩

/-- Settles O2: every counter is 0 and every memory is empty. -/
theorem powerOnStateMeetsInvariant : Obligations.PowerOnStateMeetsInvariant :=
  ⟨fun p hb => ⟨inv_powerOn hb, memWf_powerOn p⟩, inv_powerOn sumhash512_buildable, memWf_powerOn _⟩

/-! ### Every step keeps the invariant -/

/-- Contexts that stay keep their invariant where every compressor that was ready stays ready. -/
theorem Inv.ctxInv_of_ready {s s' : State} (h : Inv s) (hctx : s'.ctx = s.ctx) (hp : s'.params = s.params)
    (hr : ∀ csel, compressorReady s csel = true → compressorReady s' csel = true) : ∀ k ∈ s'.ctx, CtxInv s' k :=
  fun k hk => ctxInv_ready hp.symm hr (h.ctx_inv k (hctx ▸ hk))

/-- The same, where nothing a compressor's readiness looks at has changed. -/
theorem Inv.ctxInv_of_eq {s s' : State} (h : Inv s) (hctx : s'.ctx = s.ctx) (hp : s'.params = s.params)
    (hm : s'.mptr = s.mptr) (ht : s'.tableValid = s.tableValid) : ∀ k ∈ s'.ctx, CtxInv s' k :=
  fun k hk => ctxInv_congr hp.symm hm.symm ht.symm (h.ctx_inv k (hctx ▸ hk))

/-- The invariant does not look at the channels but for the length of `RESPQ`. -/
theorem Inv.of_channels {s : State} (h : Inv s) {q : List Word} (hq : q.length ≤ s.params.respDepth)
    (beats : List Word) (ts : List Turn) (taken : List Word) :
    Inv { s with respq := q, cmdq := beats, turns := ts, received := taken } :=
  { h with
    respq_le := hq
    ctx_inv := h.ctxInv_of_eq rfl rfl rfl rfl }

theorem inv_withInput {s : State} (h : Inv s) (beats : List Word) (ts : List Turn) : Inv (s.withInput beats ts) :=
  h.of_channels h.respq_le beats ts s.received

theorem inv_respond {s : State} (h : Inv s) (opc : Byte) (st : Status) {data : List Word}
    (hroom : s.respq.length + (1 + data.length) ≤ s.params.respDepth) : Inv (respond opc st data s) :=
  h.of_channels (by simp; omega) s.cmdq s.turns s.received

/-- The trap records a contract code, so `ERRCODE` stays in agreement with `FATAL` (10_state.md R24). -/
theorem inv_raise {s : State} (h : Inv s) (opc : Byte) {st : Status} (hst : st.isContract = true)
    (hroom : s.respq.length + 1 ≤ s.params.respDepth) : Inv (raise opc st s) := by
  unfold raise
  split
  · exact inv_respond h opc st hroom
  · refine inv_respond (s := { s with fatal := true, errcode := st.code, erropc := opc }) ?_ opc st hroom
    exact { h with
      no_error := fun hf => nomatch hf
      error_code := fun _ => ⟨st, hst, rfl⟩
      ctx_inv := h.ctxInv_of_eq rfl rfl rfl rfl }

theorem inv_takeBeat {s : State} (h : Inv s) : Inv (takeBeat s) := by
  have hle := (takeBeat_respq_le s).trans h.respq_le
  unfold takeBeat at hle ⊢
  split
  · exact h
  · next b rest hq =>
    rw [hq] at hle
    exact h.of_channels hle s.cmdq s.turns _

/-- A matrix that still lacks a word leaves no compressor ready (40_matrix_compressor.md R118). -/
theorem not_ready_of_incomplete {s : State} (h : Inv s) (hm : s.mptr ≠ s.params.matrixWords) (csel : Compressor) :
    compressorReady s csel ≠ true := by
  have hmatrix : matrixValid s ≠ true := fun hv => hm (by simpa [matrixValid] using hv)
  cases csel with
  | matrix => exact hmatrix
  | table => exact fun ht => hmatrix (h.table_matrix ht)

/-- `MLOAD` writes the first index that holds no word. -/
theorem inv_matrixWord {s : State} (h : Inv s) (w : Word) (hm : s.mptr ≠ s.params.matrixWords) :
    Inv { s with a := s.a.write s.mptr w, mptr := s.mptr + 1 } := by
  obtain ⟨hdense, hlen⟩ := Mem.write_dense h.a_dense h.a_length.ge w
  have hnot : s.tableValid ≠ true := not_ready_of_incomplete h hm .table
  exact { h with
    mptr_le := by have := h.mptr_le; show s.mptr + 1 ≤ s.params.matrixWords; omega
    a_dense := hdense
    a_length := by rw [hlen, h.a_length]; exact Nat.max_eq_right (Nat.le_succ _)
    table_matrix := fun ht => absurd ht hnot
    table_derived := fun ht => absurd ht hnot
    ctx_inv := h.ctxInv_of_ready rfl rfl fun csel hr => absurd hr (not_ready_of_incomplete h hm csel) }

/-- `TDERIVE` makes the table the one of the matrix; what was ready stays ready. -/
theorem inv_table {s : State} (h : Inv s) {t : Mem Word} (hm : matrixValid s = true)
    (ht : deriveTable s.params s.a = .ok t) : Inv { s with t := t, tableValid := true } :=
  { h with
    table_matrix := fun _ => hm
    table_derived := fun _ => ht
    table_absent := fun hn => nomatch hn
    ctx_inv := h.ctxInv_of_ready rfl rfl fun csel hr => by cases csel with
      | matrix => exact hr
      | table => rfl }

theorem inv_source {s : State} (h : Inv s) {bytes : List Byte} (hl : s.srcCnt + bytes.length ≤ s.params.inputLen) :
    Inv { s with src := s.src.writeRange s.srcCnt bytes, srcCnt := s.srcCnt + bytes.length } := by
  obtain ⟨hdense, hlen⟩ := Mem.writeRange_dense bytes h.src_dense h.src_count
  exact { h with
    src_dense := hdense
    src_length := by rw [hlen]; exact max_le h.src_length hl
    src_count := by rw [hlen]; exact le_max_right _ _
    ctx_inv := h.ctxInv_of_eq rfl rfl rfl rfl }

theorem inv_sourceUsed {s : State} (h : Inv s) : Inv { s with srcCnt := 0 } :=
  { h with
    src_count := Nat.zero_le _
    ctx_inv := h.ctxInv_of_eq rfl rfl rfl rfl }

theorem inv_setCtx {s : State} (h : Inv s) (c : BitVec 8) {k : Context} (hk : CtxInv s k) : Inv (setCtx s c k) :=
  { h with
    ctx_length := by rw [setCtx_ctx, List.length_set]; exact h.ctx_length
    ctx_inv := fun k' hk' => by
      rcases List.mem_or_eq_of_mem_set hk' with hold | rfl
      · exact ctxInv_congr (s := s) (s' := setCtx s c _) rfl rfl rfl (h.ctx_inv k' hold)
      · exact ctxInv_congr (s := s) (s' := setCtx s c _) rfl rfl rfl hk }

/-- The context a command names is one of the list, or the power-on one (log 18). -/
theorem ctxAt_mem_or_powerOn (s : State) (c : BitVec 8) : ctxAt s c ∈ s.ctx ∨ ctxAt s c = Context.powerOn := by
  unfold ctxAt
  rw [List.getD_eq_getElem?_getD]
  cases hc : s.ctx[c.toNat]? with
  | none => exact .inr rfl
  | some k => exact .inl (List.mem_of_getElem? hc)

theorem ctxInv_ctxAt {s : State} (h : Inv s) (c : BitVec 8) : CtxInv s (ctxAt s c) := by
  rcases ctxAt_mem_or_powerOn s c with hmem | hpow
  · exact h.ctx_inv _ hmem
  · rw [hpow]; exact ctxInv_powerOn s

/-- `SALT` is dense in a context of the invariant, bound or not. -/
theorem CtxInv.salt_dense {s : State} {k : Context} (h : CtxInv s k) : k.view.salt.dense := by
  cases hb : k.bound with
  | false => rw [h.unbound_view hb]; rfl
  | true => exact (h.bound_view hb).salt_dense

/-- The salt an `INIT` leaves: `BS` bytes listed from 0 on, or what it was (42_streaming_engine.md R163). -/
theorem initSalt_inv {s : State} {k : Context} {salted : Bool} {salt : Mem Byte} (h : initSalt s k salted = .ok salt) :
    (salted = false ∧ salt = k.view.salt)
      ∨ ∃ bytes : List Byte, bytes.length = s.params.blockSize ∧ salt = Mem.ofList bytes := by
  cases salted with
  | false => cases h; exact .inl ⟨rfl, rfl⟩
  | true =>
    obtain ⟨bytes, hread, h⟩ := bind_ok h
    exact .inr ⟨bytes, Mem.readRange_length hread, pure_ok h⟩

/-- The salt an `INIT` leaves is `BS` bytes where it is salted (10_state.md R42). -/
theorem CtxInv.initSalt_full {s : State} {k : Context} (hk : CtxInv s k) {salted : Bool} {salt : Mem Byte}
    (h : initSalt s k salted = .ok salt) : salt.dense ∧ (salted = true → salt.length = s.params.blockSize) := by
  rcases initSalt_inv h with ⟨rfl, rfl⟩ | ⟨bytes, hlen, rfl⟩
  · exact ⟨hk.salt_dense, fun hn => nomatch hn⟩
  · exact ⟨Mem.ofList_dense _, fun _ => (Mem.ofList_length _).trans hlen⟩

/-- A bound context meets the invariant when its staging and its view do. -/
theorem ctxInv_of_bound {s : State} {k : Context} (hb : k.bound = true) (hp : k.phase ≠ .unbound)
    (hd : k.saltStage.dense) (hl : k.saltStage.length ≤ s.params.blockSize) (hc : k.saltCnt ≤ k.saltStage.length)
    (hv : ViewInv s k.view) : CtxInv s k where
  stage_dense := hd
  stage_length := hl
  stage_count := hc
  bound_phase _ := hp
  bound_view _ := hv
  unbound_phase hn := absurd (hb.symm.trans hn) (by decide)
  unbound_view hn := absurd (hb.symm.trans hn) (by decide)

/-- Every command keeps the invariant of the context it names. -/
theorem ctxInv_ctxEffect {s : State} {k k' : Context} (hb : s.params.Buildable) (h : CtxInv s k)
    (he : CtxEffect s k k') : CtxInv s k' := by
  cases he with
  | stage bytes hle =>
    obtain ⟨hdense, hlen⟩ := Mem.writeRange_dense bytes h.stage_dense h.stage_count
    exact {
      stage_dense := hdense
      stage_length := by rw [hlen]; exact max_le h.stage_length hle
      stage_count := by rw [hlen]; exact le_max_right _ _
      bound_phase := h.bound_phase
      bound_view := h.bound_view
      unbound_phase := h.unbound_phase
      unbound_view := h.unbound_view }
  | init csel salted salt v hready hsalt hv =>
    obtain ⟨hdense, hfull⟩ := h.initSalt_full hsalt
    exact ctxInv_of_bound rfl Phase.noConfusion h.stage_dense h.stage_length (Nat.zero_le _)
      (viewInv_reset hb hdense hfull hready hv)
  | reset v hbound hv =>
    have hold := h.bound_view hbound
    exact ctxInv_of_bound hbound Phase.noConfusion h.stage_dense h.stage_length h.stage_count
      (viewInv_reset hb hold.salt_dense hold.salt_length hold.ready hv)
  | write d v hbound hv =>
    exact ctxInv_of_bound hbound Phase.noConfusion h.stage_dense h.stage_length h.stage_count
      (viewInv_writePath hb (h.bound_view hbound) hv)

/-- Every effect of a command keeps the invariant. -/
theorem inv_effect {s u : State} (h : Inv s) (he : Effect s u) : Inv u := by
  cases he with
  | none => exact h
  | matrixWord w hm => exact inv_matrixWord h w hm
  | table t hm ht => exact inv_table h hm ht
  | source bytes hl => exact inv_source h hl
  | sourceUsed => exact inv_sourceUsed h
  | context c k _ hk => exact inv_setCtx h c (ctxInv_ctxEffect h.buildable (ctxInv_ctxAt h c) hk)

/-- Settles O3: each thing a step can do keeps the invariant. -/
theorem stepKeepsInvariant : Obligations.StepKeepsInvariant := by
  intro s t h hstep
  cases stepEffect_of_step hstep with
  | input beats ts => exact inv_withInput h beats ts
  | refused beats ts opc _ hroom => exact inv_respond (inv_withInput h beats ts) opc _ hroom
  | violation beats ts opc st hst hroom => exact inv_raise (inv_withInput h beats ts) opc hst hroom
  | length beats ts opc hroom => exact inv_respond (inv_withInput h beats ts) opc _ hroom
  | done beats ts i u data _ hw hc hroom =>
    obtain ⟨-, hrespq, hparams⟩ := completed_data hc
    exact inv_respond (inv_effect (inv_withInput h beats ts) (effect_of_completed hw hc)) _ _
      (by rw [hrespq, hparams]; exact hroom)
  | take ts => exact inv_takeBeat (inv_withInput h s.cmdq ts)
  | powerOn ts _ => exact (inv_powerOn h.buildable).of_channels (Nat.zero_le _) [] ts s.received

/-- Settles O5: the counters of a bound context are part of the invariant O3 keeps, and `BS` is not 0. -/
theorem boundContextCounters : Obligations.BoundContextCounters := by
  intro s t h hstep k hk hbound
  have ht := stepKeepsInvariant s t h hstep
  have hview := (ht.ctx_inv k hk).bound_view hbound
  exact ⟨hview.carry_mod, hview.carry_mod ▸ Nat.mod_lt _ (blockSize_pos ht.buildable), hview.total_limit⟩

/-! ### Every step keeps the canonical form of the memories -/

/-- The canonical form does not look at anything but the memories. -/
theorem MemWf.of_eq {s s' : State} (h : MemWf s) (ha : s'.a = s.a) (ht : s'.t = s.t) (hsrc : s'.src = s.src)
    (hctx : s'.ctx = s.ctx) : MemWf s' := by
  rw [memWf_iff] at h ⊢
  rwa [ha, ht, hsrc, hctx]

theorem viewWf_writePath {s : State} {v v' : View} {d : List Byte} (h : ViewWf v)
    (hw : writePath s v d = .ok (some v')) : ViewWf v' := by
  obtain ⟨-, -, -, hsalt, -, hchain, hcarry, -, -, -⟩ := writePath_inv hw
  refine ⟨hsalt ▸ h.salt_wf, ?_, Mem.dense_wf hcarry⟩
  rcases hchain with hsame | ⟨bytes, -, hnew⟩
  · exact hsame ▸ h.chain_wf
  · exact hnew ▸ Mem.ofList_wf bytes

theorem viewWf_resetView {s : State} {v v' : View} (h : v.salt.wf) (hv : resetView s v = .ok v') : ViewWf v' := by
  have hclear : ViewWf (clearView s.params v) := ⟨h, Mem.ofList_wf _, Mem.nil_wf⟩
  rcases resetView_inv hv with rfl | ⟨-, hw⟩
  · exact hclear
  · exact viewWf_writePath hclear hw

theorem ctxWf_ctxEffect {s : State} {k k' : Context} (h : CtxWf k) (he : CtxEffect s k k') : CtxWf k' := by
  cases he with
  | stage bytes _ => exact ⟨Mem.writeRange_wf bytes _ _ h.stage_wf, h.view_wf⟩
  | init csel salted salt v _ hsalt hv =>
    have hwf : salt.wf := by
      rcases initSalt_inv hsalt with ⟨-, rfl⟩ | ⟨bytes, -, rfl⟩
      · exact h.view_wf.salt_wf
      · exact Mem.ofList_wf bytes
    exact ⟨h.stage_wf, viewWf_resetView hwf hv⟩
  | reset v _ hv => exact ⟨h.stage_wf, viewWf_resetView h.view_wf.salt_wf hv⟩
  | write d v _ hv => exact ⟨h.stage_wf, viewWf_writePath h.view_wf hv⟩

theorem ctxWf_ctxAt {s : State} (h : ∀ k ∈ s.ctx, CtxWf k) (c : BitVec 8) : CtxWf (ctxAt s c) := by
  rcases ctxAt_mem_or_powerOn s c with hmem | hpow
  · exact h _ hmem
  · exact hpow ▸ ctxWf_powerOn

theorem deriveTable_wf {p : Params} {a t : Mem Word} (h : deriveTable p a = .ok t) : t.wf := by
  rw [Mem.wf, deriveTable_keys h]
  exact List.pairwise_lt_range

theorem memWf_effect {s u : State} (h : MemWf s) (he : Effect s u) : MemWf u := by
  obtain ⟨ha, ht, hsrc, hctx⟩ := memWf_iff.mp h
  cases he with
  | none => exact h
  | matrixWord w _ => exact memWf_iff.mpr ⟨Mem.write_wf _ _ w ha, ht, hsrc, hctx⟩
  | table t _ hder => exact memWf_iff.mpr ⟨ha, deriveTable_wf hder, hsrc, hctx⟩
  | source bytes _ => exact memWf_iff.mpr ⟨ha, ht, Mem.writeRange_wf bytes _ _ hsrc, hctx⟩
  | sourceUsed => exact h.of_eq rfl rfl rfl rfl
  | context c k _ hk =>
    refine memWf_iff.mpr ⟨ha, ht, hsrc, fun k' hk' => ?_⟩
    rcases List.mem_or_eq_of_mem_set hk' with hold | rfl
    · exact hctx k' hold
    · exact ctxWf_ctxEffect (ctxWf_ctxAt hctx c) hk

/-- Settles O6: a response and the channels hold no memory, and each effect writes one in order. -/
theorem stepKeepsMemoriesCanonical : Obligations.StepKeepsMemoriesCanonical := by
  intro s t h hstep
  cases stepEffect_of_step hstep with
  | input beats ts | refused beats ts opc | length beats ts opc => exact h.of_eq rfl rfl rfl rfl
  | violation beats ts opc st => exact h.of_eq (by simp) (by simp) (by simp) (by simp)
  | done beats ts i u data _ hw hc _ =>
    have hin : MemWf (s.withInput beats ts) := h.of_eq rfl rfl rfl rfl
    exact (memWf_effect hin (effect_of_completed hw hc)).of_eq rfl rfl rfl rfl
  | take ts => exact h.of_eq (by simp) (by simp) (by simp) (by simp)
  | powerOn ts _ => exact (memWf_powerOn s.params).of_eq rfl rfl rfl rfl

/-! ### The response queue -/

/-- Settles O7: every response had room, and nothing else adds a beat. -/
theorem stepKeepsQueueWithinCapacity : Obligations.StepKeepsQueueWithinCapacity := by
  intro s t hle hstep
  cases stepEffect_of_step hstep with
  | input beats ts => exact ⟨hle, rfl⟩
  | refused beats ts opc _ hroom | length beats ts opc hroom => exact ⟨by simpa [refuseFatal] using hroom, rfl⟩
  | violation beats ts opc st _ hroom => exact ⟨by simpa using hroom, by simp⟩
  | done beats ts i u data _ _ hc hroom =>
    obtain ⟨-, hrespq, hparams⟩ := completed_data hc
    exact ⟨by simp [hrespq, hparams]; omega, hparams⟩
  | take ts => exact ⟨by rw [takeBeat_params]; exact (takeBeat_respq_le _).trans hle, by simp⟩
  | powerOn ts _ => exact ⟨Nat.zero_le _, rfl⟩

/-! ### What stays until power-on reset -/

/-- `t` holds every matrix word and every table entry of `s` that was final (10_state.md R26, R30). -/
structure KeepsTables (s t : State) : Prop where
  matrix : matrixValid s = true → matrixValid t = true ∧ t.a = s.a
  table : s.tableValid = true → t.tableValid = true ∧ t.t = s.t

theorem keepsTables_of_eq {s t : State} (hp : t.params = s.params) (hm : t.mptr = s.mptr) (ha : t.a = s.a)
    (hv : t.tableValid = s.tableValid) (ht : t.t = s.t) : KeepsTables s t where
  matrix h := ⟨by rwa [matrixValid, hp, hm], ha⟩
  table h := ⟨hv.trans h, ht⟩

theorem KeepsTables.trans {s u t : State} (h : KeepsTables s u) (h' : KeepsTables u t) : KeepsTables s t where
  matrix hm := by
    obtain ⟨hu, hua⟩ := h.matrix hm
    obtain ⟨ht, hta⟩ := h'.matrix hu
    exact ⟨ht, hta.trans hua⟩
  table hv := by
    obtain ⟨hu, hut⟩ := h.table hv
    obtain ⟨ht, htt⟩ := h'.table hu
    exact ⟨ht, htt.trans hut⟩

/-- No command changes a complete matrix, and a second derivation gives the same table (20_memory.md R68, R69). -/
theorem keepsTables_effect {s u : State} (h : Inv s) (he : Effect s u) : KeepsTables s u := by
  cases he with
  | none | source | sourceUsed | context => exact keepsTables_of_eq rfl rfl rfl rfl rfl
  | matrixWord w hm =>
    exact ⟨fun hv => absurd hv (not_ready_of_incomplete h hm .matrix),
      fun hv => absurd hv (not_ready_of_incomplete h hm .table)⟩
  | table t _ hder =>
    refine ⟨fun hv => ⟨hv, rfl⟩, fun hv => ⟨rfl, ?_⟩⟩
    exact Except.ok.inj (hder.symm.trans (h.table_derived hv))

/-- Settles O8: outside power-on reset only a completed command's effect reaches `A`, `MPTR` and the table. -/
theorem matrixAndTableAreImmutable : Obligations.MatrixAndTableAreImmutable := by
  intro s t h hstep hturn
  have hkeeps : KeepsTables s t := by
    cases stepEffect_of_step hstep with
    | input beats ts | refused beats ts opc | length beats ts opc => exact keepsTables_of_eq rfl rfl rfl rfl rfl
    | violation beats ts opc st | take ts =>
      exact keepsTables_of_eq (by simp) (by simp) (by simp) (by simp) (by simp)
    | done beats ts i u data _ hw hc _ =>
      have hin : KeepsTables s (s.withInput beats ts) := keepsTables_of_eq rfl rfl rfl rfl rfl
      have hcmd := keepsTables_effect (inv_withInput h beats ts) (effect_of_completed hw hc)
      exact hin.trans (hcmd.trans (keepsTables_of_eq rfl rfl rfl rfl rfl))
    | powerOn ts hpow => exact absurd hpow hturn
  exact ⟨hkeeps.matrix, hkeeps.table⟩

/-- Settles O24: while `FATAL = 1` a violation keeps the record, and only the status commands complete. -/
theorem fatalStateIsSticky : Obligations.FatalStateIsSticky := by
  intro s t hf hstep hturn
  cases stepEffect_of_step hstep with
  | input beats ts | refused beats ts opc | length beats ts opc => rfl
  | violation beats ts opc st => rw [raise_of_fatal _ _ (s.withInput beats ts) hf]
  | done beats ts i u data hok _ hc _ =>
    have hstatus : i.opcode.isStatus = true := hok.resolve_left (ne_false_of_eq_true hf)
    rw [completed_status hstatus hc]
    rfl
  | take ts => unfold takeBeat; split <;> rfl
  | powerOn ts hpow => exact absurd hpow hturn

/-! ### From the invariant every step goes on -/

/-- The result is a next state: no fault and no refusal. -/
def GoesOn (r : Res) : Prop := ∃ t, r = .next t

theorem goesOn_next (t : State) : GoesOn (.next t) := ⟨t, rfl⟩

/-- A command goes on when its body does. -/
theorem goesOn_fieldChecked {op : Opcode} {c : Option (BitVec 8)} {cnt : Option (BitVec 4)} {s : State} {body : Res}
    (h : GoesOn body) : GoesOn (fieldChecked op c cnt s body) := by
  rcases fieldChecked_cases (rfl : fieldChecked op c cnt s body = _) with ⟨-, -, e⟩ | ⟨-, e | e | ⟨-, -, e⟩⟩
  · exact ⟨_, e⟩
  · exact ⟨_, e⟩
  · exact ⟨_, e⟩
  · rw [e]; exact h

/-- A read that answers lets its command go on as what follows the read does. -/
theorem goesOn_settle_bind {α : Type} {m : Except Fault α} {f : α → Except Fault Res} {a : α} (hm : m = .ok a)
    (h : GoesOn (settle (f a))) : GoesOn (settle (m >>= f)) := by
  subst hm
  exact h

/-! #### The compressors answer the closed sums -/

/-- A complete matrix holds a word at every index (10_state.md R26, R27). -/
theorem a_length_of_matrixValid {s : State} (h : Inv s) (hm : matrixValid s = true) :
    s.a.length = s.params.matrixWords := h.a_length.trans (beq_iff_eq.mp hm)

theorem inputLen_mul_eight {p : Params} (hb : p.Buildable) : 8 * p.inputLen = p.mCols := by
  have hcols := hb.1
  unfold Params.inputLen
  omega

/-- `CompressA` answers the closed sums over a complete matrix (40_matrix_compressor.md R115). -/
theorem answersSums_matrix {s : State} (h : Inv s) (hm : matrixValid s = true) : AnswersSums s .matrix := by
  intro x hx
  refine collect_ok _ _ _ fun i hi => ?_
  have hi : i < s.params.nRows := List.mem_range.mp hi
  have hrow : cellA s.params i 0 + 8 * (0 + x.length) ≤ s.a.length := by
    rw [a_length_of_matrixValid h hm, Nat.zero_add, hx, inputLen_mul_eight h.buildable]
    calc cellA s.params i 0 + s.params.mCols = (i + 1) * s.params.mCols := by rw [Nat.succ_mul]; rfl
      _ ≤ s.params.matrixWords := Nat.mul_le_mul_right _ hi
  have hsum := rowSumA_eq h.a_dense (cellA s.params i 0) x 0 0#64 hrow
  rw [Nat.mul_zero, Nat.add_zero, BitVec.zero_add] at hsum
  rw [hsum]
  rfl

/-- A memory listed from 0 on as a function of its index. -/
theorem Mem.read_map_range {α : Type} (f : Nat → α) {n k : Nat} (hk : k < n) :
    Mem.read ((List.range n).map fun j => (j, f j)) k = some (f k) := by
  have hdense : Mem.dense ((List.range n).map fun j => (j, f j)) := by simp [Mem.dense, Function.comp_def]
  simp [Mem.dense_read hdense, hk]

/-- Entry `b` of row `i`, group `g` of a derived table is the sum `b` selects of the group's eight columns
(41_lookup_table.md R141). -/
theorem fetch_table {s : State} (h : Inv s) (ht : s.tableValid = true) {i g : Nat} (hi : i < s.params.nRows)
    (hg : g < s.params.inputLen) (b : Byte) :
    s.t.fetch .table (cellT s.params i g b.toNat) = .ok (selectSum (fun k => matrixOf s i (8 * g + k)) b) := by
  have hder := deriveTable_eq h.a_dense h.buildable.1 (a_length_of_matrixValid h (h.table_matrix ht))
  have htable : s.t = _ := Except.ok.inj ((h.table_derived ht).symm.trans hder)
  have hb : b.toNat < 256 := b.isLt
  have hgroup : cellT s.params i g b.toNat / 256 = i * s.params.inputLen + g := by unfold cellT; omega
  have hentry : cellT s.params i g b.toNat % 256 = b.toNat := by unfold cellT; omega
  have hrow : (i * s.params.inputLen + g) / s.params.inputLen = i := by
    rw [Nat.mul_comm, Nat.mul_add_div (Nat.zero_lt_of_lt hg), Nat.div_eq_of_lt hg, Nat.add_zero]
  have hcol : (i * s.params.inputLen + g) % s.params.inputLen = g := by
    rw [Nat.mul_comm, Nat.mul_add_mod, Nat.mod_eq_of_lt hg]
  have hlt : cellT s.params i g b.toNat < s.params.nRows * s.params.inputLen * 256 := by
    have hle : (i + 1) * s.params.inputLen ≤ s.params.nRows * s.params.inputLen := Nat.mul_le_mul_right _ hi
    rw [Nat.succ_mul] at hle
    unfold cellT
    omega
  rw [Mem.fetch_ok_iff, htable, Mem.read_map_range _ hlt, tableWord, hgroup, hentry, hrow, hcol, BitVec.ofNat_toNat,
    BitVec.setWidth_eq]
  simp only [matrixOf, Mem.val, cellA, Nat.add_assoc]

/-- `CompressT` answers the same closed sums over a derived table (41_lookup_table.md R142, R143). -/
theorem answersSums_table {s : State} (h : Inv s) (ht : s.tableValid = true) : AnswersSums s .table := by
  intro x hx
  refine collect_ok _ _ _ fun i hi => ?_
  have hi : i < s.params.nRows := List.mem_range.mp hi
  have hbase : ∀ g b, cellT s.params i 0 0 + 256 * g + b = cellT s.params i g b := by
    intro g b
    unfold cellT
    omega
  have hsum := rowSumT_eq (cellT s.params i 0 0) (fun g b => selectSum (fun k => matrixOf s i (8 * g + k)) b) x 0 0#64
    fun g b _ hg => by rw [hbase]; exact fetch_table h ht hi (by omega) b
  rw [Nat.mul_zero, Nat.add_zero, BitVec.zero_add] at hsum
  exact hsum

/-- A compressor that is ready answers the closed sums on every input of `IL` bytes. -/
theorem answersSums_of_ready {s : State} (h : Inv s) {csel : Compressor} (hr : compressorReady s csel = true) :
    AnswersSums s csel := by
  cases csel with
  | matrix => exact answersSums_matrix h hr
  | table => exact answersSums_table h hr

/-! #### The streaming procedures answer -/

/-- The write path answers from a view of the invariant: at the limit it fails, below it the bytes are there. -/
theorem writePath_answers {s : State} (h : Inv s) {v : View} (hv : ViewInv s v) (d : List Byte) :
    ∃ r, writePath s v d = .ok r := by
  by_cases hlim : (v.totalLen.toNat + d.length) * 8 < lenLimitBits
  · have hready := ready_of_viewInv h.buildable hv (answersSums_of_ready h hv.ready)
    exact ⟨_, writePath_eq (blockSize_pos h.buildable) hready hv.carry_dense hv.carry_length rfl hlim⟩
  · exact ⟨none, writePath_fail (Nat.le_of_not_lt hlim)⟩

theorem resetView_answers {s : State} (h : Inv s) {v : View} (hd : v.salt.dense)
    (hl : v.salted = true → v.salt.length = s.params.blockSize) (hr : compressorReady s v.csel = true) :
    ∃ v', resetView s v = .ok v' := by
  obtain ⟨r, hw⟩ := writePath_answers h (viewInv_clear hd hl hr) (zeros s.params.blockSize)
  cases hs : v.salted with
  | false => exact ⟨clearView s.params v, by simp [resetView, hs]⟩
  | true => exact ⟨r.getD (clearView s.params v), by simp only [resetView, hs, if_true, hw]; rfl⟩

/-- The padding answers, and a padded copy still meets the invariant of a view. -/
theorem padView_answers {s : State} (h : Inv s) {v : View} (hv : ViewInv s v) :
    ∃ r, padView s v = .ok r ∧ ∀ v' ∈ r, ViewInv s v' := by
  obtain ⟨r1, hw1⟩ := writePath_answers h hv (pad1 s.params v.totalLen.toNat)
  cases r1 with
  | none => exact ⟨none, by simp only [padView, hw1]; rfl, fun _ hn => nomatch hn⟩
  | some v1 =>
    have hv1 := viewInv_writePath h.buildable hv hw1
    obtain ⟨r2, hw2⟩ := writePath_answers h hv1 (padSuffix v.totalLen.toNat)
    refine ⟨r2, by simp only [padView, hw1]; exact hw2, fun v2 hr2 => ?_⟩
    exact viewInv_writePath h.buildable hv1 (hw2.trans (congrArg _ hr2))

/-- `SALT_CNT = BS` says that all the bytes an `INIT` takes are staged (10_state.md R41). -/
theorem initSalt_answers {s : State} {k : Context} (hk : CtxInv s k) {salted : Bool}
    (hfull : salted = true → k.saltCnt = s.params.blockSize) : ∃ salt, initSalt s k salted = .ok salt := by
  cases salted with
  | false => exact ⟨_, rfl⟩
  | true =>
    have hread := Mem.readRange_dense hk.stage_dense .saltStage (lo := 0) (n := s.params.blockSize)
      (by rw [Nat.zero_add, ← hfull rfl]; exact hk.stage_count)
    exact ⟨_, by simp only [initSalt, if_true, hread]; rfl⟩

/-! #### The commands -/

theorem goesOn_tderive {s : State} (h : Inv s) : GoesOn (execTderive s) := by
  refine goesOn_fieldChecked ?_
  split
  · exact goesOn_next _
  · next hm =>
    have hlen := a_length_of_matrixValid h (by simpa using hm)
    exact goesOn_settle_bind (deriveTable_eq h.a_dense h.buildable.1 hlen) (goesOn_next _)

theorem goesOn_crun {s : State} (h : Inv s) (csel : Compressor) : GoesOn (execCrun csel s) := by
  refine goesOn_fieldChecked ?_
  split
  · exact goesOn_next _
  · next hr =>
    split
    · exact goesOn_next _
    · next hcnt =>
      have hlen : 0 + s.params.inputLen ≤ s.src.length := by have := h.src_count; omega
      have hread := Mem.readRange_dense h.src_dense .src hlen
      have hsums := answersSums_of_ready h (by simpa using hr)
      exact goesOn_settle_bind hread (goesOn_settle_bind (hsums _ (Mem.readRange_length hread)) (goesOn_next _))

theorem goesOn_init {s : State} (h : Inv s) (c : BitVec 8) (csel : Compressor) (salted : Bool) :
    GoesOn (execInit c csel salted s) := by
  refine goesOn_fieldChecked ?_
  dsimp only
  split
  · exact goesOn_next _
  · next hr =>
    split
    · exact goesOn_next _
    · next hs =>
      have hk := ctxInv_ctxAt h c
      obtain ⟨salt, hsalt⟩ := initSalt_answers hk (salted := salted) fun hsalted =>
        by_contra fun hne => hs ⟨hsalted, hne⟩
      obtain ⟨hdense, hfull⟩ := hk.initSalt_full hsalt
      obtain ⟨v, hv⟩ := resetView_answers h
        (v := { (ctxAt s c).view with salt := salt, csel := csel, salted := salted }) hdense hfull
        (by simpa using hr)
      exact goesOn_settle_bind hsalt (goesOn_settle_bind hv (goesOn_next _))

theorem goesOn_reset {s : State} (h : Inv s) (c : BitVec 8) : GoesOn (execReset c s) := by
  refine goesOn_fieldChecked ?_
  dsimp only
  split
  · exact goesOn_next _
  · next hb =>
    have hview := (ctxInv_ctxAt h c).bound_view (by simpa using hb)
    obtain ⟨v, hv⟩ := resetView_answers h hview.salt_dense hview.salt_length hview.ready
    exact goesOn_settle_bind hv (goesOn_next _)

theorem goesOn_write {s : State} (h : Inv s) (c : BitVec 8) (cnt : BitVec 4) (w : Word) :
    GoesOn (execWrite c cnt w s) := by
  refine goesOn_fieldChecked ?_
  dsimp only
  split
  · exact goesOn_next _
  · next hb =>
    have hview := (ctxInv_ctxAt h c).bound_view (by simpa using hb)
    obtain ⟨r, hw⟩ := writePath_answers h hview (payloadBytes cnt w)
    refine goesOn_settle_bind hw ?_
    cases r with
    | none => exact goesOn_next _
    | some v => exact goesOn_next _

theorem goesOn_final {s : State} (h : Inv s) (c : BitVec 8) : GoesOn (execFinal c s) := by
  refine goesOn_fieldChecked ?_
  dsimp only
  split
  · exact goesOn_next _
  · next hb =>
    have hview := (ctxInv_ctxAt h c).bound_view (by simpa using hb)
    obtain ⟨r, hpad, hinv⟩ := padView_answers h hview
    refine goesOn_settle_bind hpad ?_
    cases r with
    | none => exact goesOn_next _
    | some v =>
      have hv := hinv v rfl
      dsimp only
      split
      · exact goesOn_next _
      · have hread := Mem.readRange_dense hv.chain_dense .chain (lo := 0) (by rw [Nat.zero_add, hv.chain_length])
        exact goesOn_settle_bind hread (goesOn_next _)

/-- No command reads an element that holds no value (10_state.md R54). -/
theorem goesOn_exec {s : State} (h : Inv s) (i : Instr) : GoesOn (exec i s) := by
  cases i with
  | nop | info | stat => exact goesOn_fieldChecked (goesOn_next _)
  | mload | cload =>
    refine goesOn_fieldChecked ?_
    split <;> exact goesOn_next _
  | sload c cnt w =>
    refine goesOn_fieldChecked ?_
    dsimp only
    split <;> exact goesOn_next _
  | tderive => exact goesOn_tderive h
  | init c csel salted => exact goesOn_init h c csel salted
  | reset c => exact goesOn_reset h c
  | write c cnt w => exact goesOn_write h c cnt w
  | final c => exact goesOn_final h c
  | crun csel => exact goesOn_crun h csel

theorem goesOn_sequencerTurn {s : State} (h : Inv s) : GoesOn (sequencerTurn s) := by
  unfold sequencerTurn
  split
  · exact goesOn_next _
  · next hd w rest _ =>
    split
    · exact goesOn_exec (inv_withInput h rest s.turns) _
    · exact goesOn_next _

/-- Settles O4: the block can be built, the host's turns always go on, and so does the sequencer's. -/
theorem stepFromInvariantAlwaysGoesOn : Obligations.StepFromInvariantAlwaysGoesOn := by
  intro s h
  unfold step
  rw [if_pos h.buildable]
  split
  · exact goesOn_sequencerTurn h
  · next ts _ => exact goesOn_sequencerTurn (inv_withInput h s.cmdq ts)
  · exact goesOn_next _
  · exact goesOn_next _
  · exact goesOn_next _

end Sys2Proof.Machine

/-! # Proofs of the family 20_memory: the order of commands and responses (R66) and a repeated TDERIVE (R68). -/

namespace Sys2Proof.Machine

/-! ### A second derivation -/

/-- Over a derived table, the derivation puts back the table that is there (R68). -/
theorem completed_tderive_again {s : State} (h : Inv s) (ht : s.tableValid = true) : Completed s .tderive s [] := by
  have hself : { s with t := s.t, tableValid := true } = s := by rw [← ht]
  exact ⟨h.table_matrix ht, rfl, s.t, h.table_derived ht, hself.symm⟩

/-- Settles O38: the invariant holds the table to be the one of the matrix, so a second TDERIVE writes what is there. -/
theorem tderiveIsIdempotent : Obligations.TderiveIsIdempotent := by
  intro s h hf ht
  have hexec := exec_completed (.inl hf) rfl (completed_tderive_again h ht)
  rwa [respond_nil] at hexec

/-! ### The step forwards: a whole command with room for its response -/

/-- What beats that decode say: a whole command is there and its header is legal (30_encoding.md R80, R82). -/
theorem decode_ok {beats rest : List Word} {i : Instr} (hd : decode beats = .ok (i, rest)) :
    ∃ h w, nextFrame beats = some (h, w, rest) ∧ decodeFrame h w = .ok i := by
  unfold decode at hd
  split at hd
  · cases hd
  · next h w rest' hframe =>
    split at hd
    · next j hj => cases hd; exact ⟨h, w, hframe, hj⟩
    · cases hd

/-- A whole command with room for its response is fetched (70_reset_and_hazards.md R272). -/
theorem fetch_of_room {s : State} {h w : Word} {rest : List Word} (hframe : nextFrame s.cmdq = some (h, w, rest))
    (hroom : hasRoom s h = true) : fetch s = some (h, w, rest) := by
  simp [fetch, hframe, hroom]

/-- The sequencer's turn at a command that decodes is `exec`, its beats consumed (30_encoding.md R100, R101). -/
theorem sequencerTurn_of_decode {s : State} {i : Instr} {rest : List Word} (hd : decode s.cmdq = .ok (i, rest))
    (hroom : s.respq.length + (1 + ndataOf s.params i.opcode) ≤ s.params.respDepth) :
    sequencerTurn s = exec i { s with cmdq := rest } := by
  obtain ⟨h, w, hframe, hi⟩ := decode_ok hd
  obtain ⟨op, hop, -, -, rfl⟩ := decodeFrame_ok hi
  rw [← responseBeats_of_opcode hop] at hroom
  simp only [sequencerTurn, fetch_of_room hframe ((hasRoom_iff s h).mpr hroom), hi]

/-- With no turn listed the sequencer moves (log 6). -/
theorem step_of_no_turn {s : State} (hb : s.params.Buildable) (ht : s.turns = []) : step s = sequencerTurn s := by
  rw [step, if_pos hb, ht]

/-- The block's listed turn is the sequencer's, and is used up (log 6). -/
theorem step_of_block_turn {s : State} {ts : List Turn} (hb : s.params.Buildable) (ht : s.turns = .block :: ts) :
    step s = sequencerTurn { s with turns := ts } := by
  rw [step, if_pos hb, ht]

/-- Settles O10: both kinds of the block's turn are the sequencer's turn. -/
theorem stepRunsTheDecodedCommand : Obligations.StepRunsTheDecodedCommand := by
  intro s i rest ts hb hd hroom
  refine ⟨fun ht => ?_, fun ht => ?_⟩
  · rw [step_of_no_turn hb ht, sequencerTurn_of_decode hd hroom]
  · rw [step_of_block_turn hb ht, sequencerTurn_of_decode (s := { s with turns := ts }) hd hroom]

/-! ### What a step adds to the response beats -/

/-- `t` has the channels of `s` but for one whole response with opcode `opc`, queued last (30_encoding.md R95). -/
structure OneResponse (opc : Byte) (s t : State) : Prop where
  cmdq : t.cmdq = s.cmdq
  received : t.received = s.received
  respq : ∃ (st : Status) (data : List Word), t.respq = s.respq ++ statusBeat st opc data.length :: data

theorem oneResponse_respond (opc : Byte) (st : Status) (data : List Word) (s : State) :
    OneResponse opc s (respond opc st data s) := ⟨rfl, rfl, st, data, rfl⟩

theorem oneResponse_raise (opc : Byte) (st : Status) (s : State) : OneResponse opc s (raise opc st s) :=
  ⟨raise_cmdq opc st s, raise_received opc st s, st, [], raise_respq opc st s⟩

/-- The effect of a command leaves the channels to its response. -/
theorem effect_channels {s u : State} (he : Effect s u) :
    u.cmdq = s.cmdq ∧ u.received = s.received ∧ u.respq = s.respq := by
  cases he with
  | none | matrixWord | table | source | sourceUsed | context => exact ⟨rfl, rfl, rfl⟩

/-- A command that answers, answers once (30_encoding.md R95). -/
theorem oneResponse_exec {i : Instr} {s t : State} (he : exec i s = .next t) : OneResponse i.opcode.byte s t := by
  rcases exec_cases he with ⟨-, -, rfl⟩ | ⟨st, -, -, rfl⟩ | ⟨-, rfl⟩ | ⟨u, data, -, hw, hc, rfl⟩
  · exact oneResponse_respond _ _ _ _
  · exact oneResponse_raise _ _ _
  · exact oneResponse_respond _ _ _ _
  · obtain ⟨hcmdq, hreceived, hrespq⟩ := effect_channels (effect_of_completed hw hc)
    exact ⟨hcmdq, hreceived, .ok, data, by rw [respond_respq, hrespq]⟩

/-- The trap or the refusal of a rejected header is its one response (30_encoding.md R100). -/
theorem oneResponse_rejectHeader (opc : Byte) (e : HeaderError) (s : State) :
    OneResponse opc s (rejectHeader opc e s) := by
  rcases rejectHeader_cases opc e s with ⟨-, h⟩ | ⟨st, -, h⟩ <;> rw [h]
  · exact oneResponse_respond _ _ _ _
  · exact oneResponse_raise _ _ _

/-- The response as the host sees it, its status beat laid out as in the table of R95. -/
theorem OneResponse.observed_eq {opc : Byte} {s t : State} (h : OneResponse opc s t) :
    ∃ st : Status, ∃ data : List Word, ∃ nd : BitVec 16,
      observed t = observed s ++ refBeat nd opc st.code :: data
        ∧ (data.length < 2 ^ 16 → nd.toNat = data.length) := by
  obtain ⟨-, hreceived, st, data, hrespq⟩ := h
  refine ⟨st, data, fieldOf 16 data.length, ?_, fieldOf_toNat⟩
  rw [observed, observed, hreceived, hrespq, statusBeat_eq, List.append_assoc]

/-- Whatever the sequencer does with a header, legal or not, is one response to it (30_encoding.md R100). -/
theorem oneResponse_of_command {s t : State} {h w : Word}
    (hcmd : (∃ i, decodeFrame h w = .ok i ∧ exec i s = .next t)
      ∨ ∃ e, decodeFrame h w = .error e ∧ t = rejectHeader (headerOpc h) e s) : OneResponse (headerOpc h) s t := by
  rcases hcmd with ⟨i, hi, he⟩ | ⟨e, -, rfl⟩
  · obtain ⟨op, hop, -, -, rfl⟩ := decodeFrame_ok hi
    exact byte_of_ofByte hop ▸ oneResponse_exec he
  · exact oneResponse_rejectHeader _ e s

/-- Taking a beat moves it from the queue to the host, and the order of all of them stays (10_state.md R53). -/
@[simp] theorem observed_takeBeat (s : State) : observed (takeBeat s) = observed s := by
  unfold takeBeat
  split
  · rfl
  · next b rest hq => simp [observed, hq]

/-- Settles O9: only the sequencer's turn answers, and it answers the command whose beats it consumes. -/
theorem responsesComeInCommandOrder : Obligations.ResponsesComeInCommandOrder := by
  intro s t hstep hturn
  obtain ⟨-, ⟨ts, -, -, hseq⟩ | ⟨w, ts, -, rfl⟩ | ⟨ts, -, rfl⟩ | ⟨ts, hts, -⟩⟩ := step_cases hstep
  · rcases sequencerTurn_cases hseq with rfl | ⟨h, w, rest, hframe, -, hcmd⟩
    · exact .inl ⟨rfl, List.prefix_rfl⟩
    · have hone := oneResponse_of_command hcmd
      exact .inr ⟨h, w, rest, hframe, hone.cmdq, hone.observed_eq⟩
  · exact .inl ⟨rfl, List.prefix_append _ _⟩
  · exact .inl ⟨observed_takeBeat _, by rw [takeBeat_cmdq]⟩
  · exact absurd (by rw [hts]; rfl) hturn

end Sys2Proof.Machine

/-! # Proofs of the family 30_encoding: decode and encode agree (R80 to R105), what a rejected header or an illegal
operand does (R84, R91, R100), and the one response of every command (R95, R222). -/

namespace Sys2Proof

/-! ### The first frame of a list of beats (R80, R82) -/

/-- A whole command at the head of the channel is found, its payload 0 where its opcode has none. -/
theorem nextFrame_cons (h w : Word) (rest : List Word) :
    nextFrame (h :: (if headerHasPayload h then w :: rest else rest))
      = some (h, if headerHasPayload h then w else 0#64, rest) := by
  cases hp : headerHasPayload h <;> simp [nextFrame, hp]

/-- The beats of a frame: its header, its payload where the header asks for one, and the rest. -/
theorem beats_of_nextFrame {beats rest : List Word} {h w : Word} (hframe : nextFrame beats = some (h, w, rest)) :
    beats = h :: (if headerHasPayload h then w :: rest else rest) := by
  unfold nextFrame at hframe
  split at hframe
  · cases hframe
  · next h' tail =>
    split at hframe
    · next hp =>
      split at hframe
      · cases hframe
      · cases hframe; rw [if_pos hp]
    · next hp => cases hframe; rw [if_neg hp]

/-- An opcode in the map alone says whether a payload follows (R82). -/
theorem headerHasPayload_of_opcode {h : Word} {op : Opcode} (ho : Opcode.ofByte (headerOpc h) = some op) :
    headerHasPayload h = op.hasPayload := by simp [headerHasPayload, ho]

/-- An illegal opcode has no payload beat (R82). -/
theorem headerHasPayload_of_illegal {h : Word} (ho : Opcode.ofByte (headerOpc h) = none) :
    headerHasPayload h = false := by simp [headerHasPayload, ho]

/-! ### The header's fields (R81, R84) -/

@[simp] theorem headerCnt_packHeader (opc : Byte) (cnt flg : BitVec 4) (c : BitVec 8) :
    headerCnt (packHeader opc cnt flg c) = cnt := by
  obtain ⟨-, hcnt, -⟩ := packHeader_fields opc cnt flg c; exact hcnt

@[simp] theorem headerFlg_packHeader (opc : Byte) (cnt flg : BitVec 4) (c : BitVec 8) :
    headerFlg (packHeader opc cnt flg c) = flg := by
  obtain ⟨-, -, hflg, -⟩ := packHeader_fields opc cnt flg c; exact hflg

@[simp] theorem headerCtx_packHeader (opc : Byte) (cnt flg : BitVec 4) (c : BitVec 8) :
    headerCtx (packHeader opc cnt flg c) = c := by
  obtain ⟨-, -, -, hctx, -⟩ := packHeader_fields opc cnt flg c; exact hctx

/-- A header is its five fields, one above the other (R81). -/
theorem header_eq_append (h : Word) :
    h = headerRsv h ++ (headerCtx h ++ (headerFlg h ++ (headerCnt h ++ headerOpc h))) := by
  have hlow12 : headerCnt h ++ headerOpc h = h.extractLsb' 0 12 :=
    BitVec.extractLsb'_append_extractLsb'_eq_extractLsb' rfl
  have hlow16 : headerFlg h ++ h.extractLsb' 0 12 = h.extractLsb' 0 16 :=
    BitVec.extractLsb'_append_extractLsb'_eq_extractLsb' rfl
  have hlow24 : headerCtx h ++ h.extractLsb' 0 16 = h.extractLsb' 0 24 :=
    BitVec.extractLsb'_append_extractLsb'_eq_extractLsb' rfl
  have hall : headerRsv h ++ h.extractLsb' 0 24 = h.extractLsb' 0 64 :=
    BitVec.extractLsb'_append_extractLsb'_eq_extractLsb' rfl
  rw [hlow12, hlow16, hlow24, hall, BitVec.extractLsb'_eq_self]

/-- A header whose reserved bits are clear is its other four fields, packed (R81, R105). -/
theorem packHeader_of_fields {h : Word} (hrsv : headerRsv h = 0#40) :
    packHeader (headerOpc h) (headerCnt h) (headerFlg h) (headerCtx h) = h := by
  obtain ⟨hopc, hcnt, hflg, hctx, hrsv'⟩ := packHeader_fields (headerOpc h) (headerCnt h) (headerFlg h) (headerCtx h)
  rw [header_eq_append (packHeader _ _ _ _), hopc, hcnt, hflg, hctx, hrsv', ← hrsv, ← header_eq_append]

/-- The reserved bits of a header are clear exactly when each of the four checks passes (R84). -/
theorem reservedSet_eq_false_iff (op : Opcode) (h : Word) :
    reservedSet op h = false ↔ headerRsv h = 0#40 ∧ headerFlg h &&& ~~~op.definedFlags = 0#4
      ∧ (op.isData = false → headerCnt h = 0#4) ∧ (op.isCtx = false → headerCtx h = 0#8) := by
  simp [reservedSet, and_assoc]

/-- `FLG` with no bit above the two of `INIT` is those two bits, packed (R89). -/
theorem packFlags_of_bits : ∀ f : BitVec 4, f &&& ~~~(0b0011#4) = 0#4 →
    packFlags (selectOf (f.getLsbD 0)) (f.getLsbD 1) = f := by decide

/-- `FLG` with no bit but `CSEL` is that bit, packed (R89). -/
theorem packFlags_of_bit : ∀ f : BitVec 4, f &&& ~~~(0b0001#4) = 0#4 →
    packFlags (selectOf (f.getLsbD 0)) false = f := by decide

@[simp] theorem packFlags_csel (csel : Compressor) (salted : Bool) : (packFlags csel salted)[0] = csel.bit := by
  cases csel <;> cases salted <;> rfl

@[simp] theorem packFlags_salted (csel : Compressor) (salted : Bool) : (packFlags csel salted)[1] = salted := by
  cases csel <;> cases salted <;> rfl

@[simp] theorem selectOf_bit (csel : Compressor) : selectOf csel.bit = csel := by cases csel <;> rfl

/-! ### From a command to its beats and back -/

/-- The family `HeaderFields`, for every command. -/
theorem headerFields (i : Instr) : Laws.HeaderFields.Statement i := by
  cases i with
  | nop => exact Laws.HeaderFields.nop
  | info => exact Laws.HeaderFields.info
  | stat c => exact Laws.HeaderFields.stat c
  | mload w => exact Laws.HeaderFields.mload w
  | tderive => exact Laws.HeaderFields.tderive
  | sload c cnt w => exact Laws.HeaderFields.sload c cnt w
  | init c csel salted => exact Laws.HeaderFields.init c csel salted
  | reset c => exact Laws.HeaderFields.reset c
  | write c cnt w => exact Laws.HeaderFields.write c cnt w
  | final c => exact Laws.HeaderFields.final c
  | cload cnt w => exact Laws.HeaderFields.cload cnt w
  | crun csel => exact Laws.HeaderFields.crun csel

/-- The encoder writes a header the map knows (R89). -/
theorem ofByte_encodeHeader (i : Instr) : Opcode.ofByte (headerOpc (encodeHeader i)) = some i.opcode := by
  rw [(headerFields i).1, ofByte_byte]

/-- A command whose opcode has no payload reads none (R82). -/
theorem payload_of_hasPayload (i : Instr) :
    (if i.opcode.hasPayload then (payloadOf i).getD 0#64 else 0#64) = (payloadOf i).getD 0#64 := by
  cases i <;> rfl

/-- The operands are where the encoder put them (R81, R89). -/
theorem assemble_encodeHeader (i : Instr) :
    assemble i.opcode (encodeHeader i) ((payloadOf i).getD 0#64) = i := by
  cases i <;> simp [assemble, encodeHeader, payloadOf, Instr.opcode]

/-- The encoder gives back the header of every command that decodes: no header bit is dropped (R84, R105). -/
theorem encodeHeader_assemble {op : Opcode} {h : Word} (w : Word) (ho : Opcode.ofByte (headerOpc h) = some op)
    (hres : reservedSet op h = false) : encodeHeader (assemble op h w) = h := by
  obtain ⟨hrsv, hflg, hcnt, hctx⟩ := (reservedSet_eq_false_iff op h).mp hres
  have hpack := packHeader_of_fields hrsv
  rw [← byte_of_ofByte ho] at hpack
  cases op with
  | init =>
    rw [hcnt rfl, ← packFlags_of_bits _ hflg] at hpack
    exact hpack
  | crun =>
    rw [hcnt rfl, hctx rfl, ← packFlags_of_bit _ hflg] at hpack
    exact hpack
  | nop | info | stat | mload | tderive | sload | reset | write | final | cload =>
    have hflg : headerFlg h = 0#4 := by rwa [Opcode.definedFlags, BitVec.not_zero, BitVec.and_allOnes] at hflg
    simp_all [assemble, encodeHeader, Opcode.isData, Opcode.isCtx]

/-- The payload of a command that decodes is the payload beat, where there is one (R82). -/
theorem payloadOf_assemble (op : Opcode) (h w : Word) :
    payloadOf (assemble op h w) = if op.hasPayload then some w else none := by cases op <;> rfl

/-- The beats of a command, by its opcode (R80, R82). -/
theorem encode_append (i : Instr) (rest : List Word) : encode i ++ rest
    = encodeHeader i :: (if i.opcode.hasPayload then (payloadOf i).getD 0#64 :: rest else rest) := by
  cases i <;> rfl

/-- A frame whose header decodes is decoded (R100 steps 1 and 3). -/
theorem decode_of_frame {beats rest : List Word} {h w : Word} {i : Instr}
    (hframe : nextFrame beats = some (h, w, rest)) (hi : decodeFrame h w = .ok i) : decode beats = .ok (i, rest) := by
  simp [decode, hframe, hi]

/-- A header in the map whose reserved bits are clear decodes to its operands. -/
theorem decodeFrame_of_clear {op : Opcode} {h : Word} (w : Word) (ho : Opcode.ofByte (headerOpc h) = some op)
    (hres : reservedSet op h = false) : decodeFrame h w = .ok (assemble op h w) := by
  simp [decodeFrame, ho, hres]

/-- Settles O15: the encoded header is legal, and its fields and payload are the operands. -/
theorem decodeOfEncode : Obligations.DecodeOfEncode := by
  intro i rest
  have ho := ofByte_encodeHeader i
  have hframe := nextFrame_cons (encodeHeader i) ((payloadOf i).getD 0#64) rest
  rw [headerHasPayload_of_opcode ho, ← encode_append, payload_of_hasPayload] at hframe
  have hi := decodeFrame_of_clear ((payloadOf i).getD 0#64) ho (headerFields i).2
  rw [assemble_encodeHeader] at hi
  exact decode_of_frame hframe hi

/-- Settles O16: the header is the one the encoder writes for its fields, and the payload beat is the operand. -/
theorem encodeOfDecode : Obligations.EncodeOfDecode := by
  intro beats i rest hd
  obtain ⟨h, w, hframe, hi⟩ := Machine.decode_ok hd
  obtain ⟨op, ho, hres, rfl, hop⟩ := Machine.decodeFrame_ok hi
  rw [beats_of_nextFrame hframe, headerHasPayload_of_opcode ho, encode, encodeHeader_assemble w ho hres,
    payloadOf_assemble]
  cases op.hasPayload <;> rfl

/-- Settles O17: each list of words is what the encoder writes for the command. -/
theorem writtenOutWordsDecode : Obligations.WrittenOutWordsDecode :=
  ⟨decodeOfEncode .nop [], decodeOfEncode (.mload 1#64) [], decodeOfEncode .tderive [],
    decodeOfEncode (.write 0#8 3#4 0x636261#64) [], decodeOfEncode (.init 0#8 .table true) [],
    decodeOfEncode (.crun .table) [], decodeOfEncode (.final 5#8) []⟩

/-- An `OPC` value is illegal exactly when no opcode has it (R91). -/
theorem ofByte_eq_none_iff (b : Byte) : Opcode.ofByte b = none ↔ ∀ op ∈ Opcode.all, op.byte ≠ b := by
  simp [Opcode.ofByte]

/-- Settles O18: the four ranges are what the twelve opcodes leave. -/
theorem illegalOpcodeValues : Obligations.IllegalOpcodeValues := by
  refine ⟨fun b => ?_, by decide +kernel⟩
  simp only [ofByte_eq_none_iff, Opcode.all, List.forall_mem_cons, List.not_mem_nil, false_implies, implies_true,
    and_true, Opcode.byte]
  bv_omega

/-! ### Which header bits are reserved (R84) -/

/-- The commands that use `CNT` (R89). -/
theorem isData_eq_false_iff (op : Opcode) : op.isData = false ↔ op ≠ .sload ∧ op ≠ .write ∧ op ≠ .cload := by
  cases op <;> simp [Opcode.isData]

/-- The commands that name a context (R89). -/
theorem isCtx_eq_false_iff (op : Opcode) : op.isCtx = false ↔
    op ≠ .stat ∧ op ≠ .sload ∧ op ≠ .init ∧ op ≠ .reset ∧ op ≠ .write ∧ op ≠ .final := by
  cases op <;> simp [Opcode.isCtx]

/-- `FLG` has no undefined bit: bits 3 and 2 are 0, bit 1 is 0 outside `INIT`, and bit 0 outside `INIT` and `CRUN`. -/
theorem bits_of_definedFlags {op : Opcode} : ∀ f : BitVec 4, f &&& ~~~op.definedFlags = 0#4 →
    f.extractLsb' 2 2 = 0#2 ∧ (op ≠ .init → f.extractLsb' 1 1 = 0#1)
      ∧ (op ≠ .init → op ≠ .crun → f.extractLsb' 0 1 = 0#1) := by
  cases op <;> decide

/-- The bits of `FLG`, by their place in the header (R81). -/
theorem extractLsb'_headerFlg (h : Word) {start len : Nat} (hl : start + len ≤ 4) :
    (headerFlg h).extractLsb' start len = h.extractLsb' (12 + start) len := by
  refine BitVec.eq_of_getLsbD_eq fun i hi => ?_
  simp [headerFlg, hi, show start + i < 4 by omega, Nat.add_assoc]

/-- Every reserved, undefined or unused header bit, by its position: one of them 1 is a reserved bit set (R84). -/
theorem reservedSet_of_bits {op : Opcode} {h : Word}
    (hbits : h.extractLsb' 24 40 ≠ 0#40 ∨ h.extractLsb' 14 2 ≠ 0#2
      ∨ (op ≠ .init ∧ h.extractLsb' 13 1 ≠ 0#1) ∨ (op ≠ .init ∧ op ≠ .crun ∧ h.extractLsb' 12 1 ≠ 0#1)
      ∨ (op ≠ .sload ∧ op ≠ .write ∧ op ≠ .cload ∧ h.extractLsb' 8 4 ≠ 0#4)
      ∨ (op ≠ .stat ∧ op ≠ .sload ∧ op ≠ .init ∧ op ≠ .reset ∧ op ≠ .write ∧ op ≠ .final
          ∧ h.extractLsb' 16 8 ≠ 0#8)) : reservedSet op h = true := by
  by_contra hne
  obtain ⟨hrsv, hflg, hcnt, hctx⟩ := (reservedSet_eq_false_iff op h).mp (by simpa using hne)
  obtain ⟨hhigh, hsalted, hcsel⟩ := bits_of_definedFlags _ hflg
  simp only [extractLsb'_headerFlg h (show 2 + 2 ≤ 4 by omega), extractLsb'_headerFlg h (show 1 + 1 ≤ 4 by omega),
    extractLsb'_headerFlg h (show 0 + 1 ≤ 4 by omega)] at hhigh hsalted hcsel
  rcases hbits with hb | hb | ⟨hop, hb⟩ | ⟨hop, hop', hb⟩ | ⟨h1, h2, h3, hb⟩ | ⟨h1, h2, h3, h4, h5, h6, hb⟩
  · exact hb hrsv
  · exact hb hhigh
  · exact hb (hsalted hop)
  · exact hb (hcsel hop hop')
  · exact hb (hcnt ((isData_eq_false_iff op).mpr ⟨h1, h2, h3⟩))
  · exact hb (hctx ((isCtx_eq_false_iff op).mpr ⟨h1, h2, h3, h4, h5, h6⟩))

/-- The commands that still execute while `FATAL = 1` (R100 step 2). -/
theorem isStatus_iff (op : Opcode) : op.isStatus = true ↔ op = .nop ∨ op = .info ∨ op = .stat := by
  cases op <;> simp [Opcode.isStatus]

end Sys2Proof

namespace Sys2Proof.Machine

/-! ### Responses to a rejected header (R100 steps 1 to 3) -/

/-- A violation while the fatal state stands only answers (60_exceptions.md R231). -/
theorem raise_eq_answered {s : State} (h : s.fatal = true) (opc : Byte) (st : Status) :
    raise opc st s = answered s 0#16 opc st.code [] := by
  simp [raise_of_fatal _ _ _ h, answered, statusBeat_eq]

/-- An illegal opcode is refused while fatal (60_exceptions.md R231). -/
theorem rejectHeader_illegal_fatal {s : State} {opc : Byte} (h : s.fatal = true) :
    rejectHeader opc .illegalOpcode s = answered s 0#16 opc 0x80#8 [] := by
  rw [rejectHeader, if_pos h, refuseFatal, respond_nil, Status.code]

/-- An illegal opcode traps (60_exceptions.md R228). -/
theorem rejectHeader_illegal {s : State} {opc : Byte} (h : s.fatal = false) :
    rejectHeader opc .illegalOpcode s = trapState s opc 0x81#8 := by
  rw [rejectHeader, if_neg (by simp [h]), raise_eq_trapState h, Status.code]

/-- A reserved bit is a violation, unless the fatal state refuses the command first (R100 steps 2 and 3). -/
theorem rejectHeader_reserved {s : State} {op : Opcode} (h : s.fatal = false ∨ op.isStatus = true) :
    rejectHeader op.byte .reservedBits s = raise op.byte .errReserved s := by
  rw [rejectHeader, if_neg]
  rcases h with h | h <;> simp [h]

/-- A reserved bit traps (60_exceptions.md R228). -/
theorem rejectHeader_reserved_trap {s : State} {op : Opcode} (h : s.fatal = false) :
    rejectHeader op.byte .reservedBits s = trapState s op.byte 0x82#8 := by
  rw [rejectHeader_reserved (.inl h), raise_eq_trapState h, Status.code]

/-- A malformed status command in the fatal state answers its own code and keeps the record (log 4). -/
theorem rejectHeader_reserved_status {s : State} {op : Opcode} (h : s.fatal = true) (ho : op.isStatus = true) :
    rejectHeader op.byte .reservedBits s = answered s 0#16 op.byte 0x82#8 [] := by
  rw [rejectHeader_reserved (.inr ho), raise_eq_answered h, Status.code]

/-- A command that the fatal state refuses is refused whatever its reserved bits are (R100 step 2). -/
theorem rejectHeader_reserved_fatal {s : State} {op : Opcode} (h : s.fatal = true) (ho : op.isStatus = false) :
    rejectHeader op.byte .reservedBits s = answered s 0#16 op.byte 0x80#8 [] := by
  rw [rejectHeader, if_pos (by simp [h, ho]), refuseFatal, respond_nil, Status.code]

/-! ### The step at a rejected header -/

/-- A header the decoder rejects is answered, the beats of its command consumed (R100, R101). -/
theorem sequencerTurn_of_rejected {s : State} {h w : Word} {rest : List Word} {e : HeaderError}
    (hframe : nextFrame s.cmdq = some (h, w, rest)) (he : decodeFrame h w = .error e)
    (hroom : s.respq.length + responseBeats s.params h ≤ s.params.respDepth) :
    sequencerTurn s = .next (rejectHeader (headerOpc h) e { s with cmdq := rest }) := by
  simp only [sequencerTurn, fetch_of_room hframe ((hasRoom_iff s h).mpr hroom), he]

/-- Settles O19: the frame of an illegal opcode is its header alone. -/
theorem illegalOpcodeTraps : Obligations.IllegalOpcodeTraps := by
  intro s h rest hb ht hq ho hroom
  have hframe : nextFrame s.cmdq = some (h, 0#64, rest) := by
    simpa [headerHasPayload_of_illegal ho, ← hq] using nextFrame_cons h 0#64 rest
  have hstep : step s = .next (rejectHeader (headerOpc h) .illegalOpcode { s with cmdq := rest }) := by
    rw [step_of_no_turn hb ht]
    refine sequencerTurn_of_rejected hframe (by simp [decodeFrame, ho]) ?_
    rwa [responseBeats_of_illegal ho]
  exact ⟨fun hf => hstep.trans (congrArg _ (rejectHeader_illegal hf)),
    fun hf => hstep.trans (congrArg _ (rejectHeader_illegal_fatal hf))⟩

/-- Settles O20: each of the bits makes the header a rejected one; what it answers is `FATAL`'s and the opcode's. -/
theorem reservedBitsTrap : Obligations.ReservedBitsTrap := by
  intro s op h w rest hb ht hopc hq hroom hbits
  have ho : Opcode.ofByte (headerOpc h) = some op := by rw [hopc, ofByte_byte]
  have hframe := nextFrame_cons h w rest
  rw [headerHasPayload_of_opcode ho, ← hq] at hframe
  have hstep : step s = .next (rejectHeader op.byte .reservedBits { s with cmdq := rest }) := by
    rw [step_of_no_turn hb ht, ← hopc]
    refine sequencerTurn_of_rejected hframe (by simp [decodeFrame, ho, reservedSet_of_bits hbits]) ?_
    rwa [responseBeats_of_opcode ho]
  refine ⟨fun hf => ?_, fun hf hnop hinfo hstat => ?_, fun hf hstatus => ?_⟩
  · exact hstep.trans (congrArg _ (rejectHeader_reserved_trap hf))
  · have hno : op.isStatus = false := by simpa [hnop, hinfo, hstat] using (isStatus_iff op).not
    exact hstep.trans (congrArg _ (rejectHeader_reserved_fatal hf hno))
  · exact hstep.trans (congrArg _ (rejectHeader_reserved_status hf ((isStatus_iff op).mpr hstatus)))

/-! ### The response of every command (R95, R222) -/

/-- The codes of R222, and no other. -/
theorem code_mem (st : Status) : st.code ∈ [0x00#8, 0x01#8, 0x80#8, 0x81#8, 0x82#8, 0x83#8, 0x84#8, 0x85#8, 0x86#8,
    0x87#8, 0x88#8, 0x89#8, 0x8A#8] := by cases st <;> decide

/-- `OK` alone has code 0 (R222). -/
theorem code_eq_zero_iff (st : Status) : st.code = 0x00#8 ↔ st = .ok := by cases st <;> decide

/-- The response of a command: `OK` with the data words of the opcode map, or another status and no data
(R89, R95). -/
theorem exec_response {i : Instr} {s t : State} (he : exec i s = .next t) :
    ∃ (st : Status) (data : List Word), t.respq = s.respq ++ statusBeat st i.opcode.byte data.length :: data
      ∧ data.length = (if st = .ok then ndataOf s.params i.opcode else 0) := by
  rcases exec_cases he with ⟨-, -, rfl⟩ | ⟨st, hst, -, rfl⟩ | ⟨-, rfl⟩ | ⟨u, data, -, -, hc, rfl⟩
  · exact ⟨.errFatalState, [], rfl, rfl⟩
  · exact ⟨st, [], raise_respq _ _ _, by rw [if_neg (by rintro rfl; cases hst)]; rfl⟩
  · exact ⟨.errLength, [], rfl, rfl⟩
  · obtain ⟨hlen, hrespq, -⟩ := completed_data hc
    exact ⟨.ok, data, by rw [respond_respq, hrespq], hlen⟩

/-- Settles O21: the one response of each kind of answer, its beat in the layout of R95. -/
theorem everyCommandAnswersOnce : Obligations.EveryCommandAnswersOnce := by
  intro i s t he
  obtain ⟨st, data, hrespq, hlen⟩ := exec_response he
  refine ⟨st.code, data, fieldOf 16 data.length, ?_, code_mem st, ?_, fieldOf_toNat⟩
  · rw [hrespq, statusBeat_eq]
  · rw [hlen]; simp only [code_eq_zero_iff]

/-! ### Illegal operands (R84, R100 steps 4 and 5) -/

/-- A count above 8 is a violation, before the context is looked at. -/
theorem fieldChecked_illegalCnt {op : Opcode} {c : Option (BitVec 8)} {cnt : BitVec 4} {s : State} {body : Res}
    (hf : s.fatal = false) (hn : 8 < cnt.toNat) :
    fieldChecked op c (some cnt) s body = .next (trapState s op.byte 0x83#8) := by
  rw [fieldChecked, if_neg (by simp [hf]), if_pos (by simpa using hn), raise_eq_trapState hf, Status.code]

/-- A context that does not exist is a violation, the count being legal where the command has one. -/
theorem fieldChecked_illegalCtx {op : Opcode} {c : BitVec 8} {cnt : Option (BitVec 4)} {s : State} {body : Res}
    (hf : s.fatal = false ∨ op.isStatus = true) (hn : ∀ n ∈ cnt, n.toNat ≤ 8) (hc : s.params.nCtx ≤ c.toNat) :
    fieldChecked op (some c) cnt s body = .next (raise op.byte .errCtx s) := by
  rw [fieldChecked, if_neg (by rcases hf with h | h <;> simp [h]), if_neg (by cases cnt <;> simp_all),
    if_pos (by simpa using hc)]

/-- The same, taken while `FATAL = 0`. -/
theorem fieldChecked_illegalCtx_trap {op : Opcode} {c : BitVec 8} {cnt : Option (BitVec 4)} {s : State} {body : Res}
    (hf : s.fatal = false) (hn : ∀ n ∈ cnt, n.toNat ≤ 8) (hc : s.params.nCtx ≤ c.toNat) :
    fieldChecked op (some c) cnt s body = .next (trapState s op.byte 0x84#8) := by
  rw [fieldChecked_illegalCtx (.inl hf) hn hc, raise_eq_trapState hf, Status.code]

/-- Settles O25: the checks come before every body, the count's before the context's. -/
theorem illegalOperandsTrap : Obligations.IllegalOperandsTrap := by
  intro s c cnt w csel salted
  refine ⟨fun hf hn => ?_, fun hf hc => ?_, fun hf hc => ?_⟩
  · exact ⟨fieldChecked_illegalCnt hf hn, fieldChecked_illegalCnt hf hn, fieldChecked_illegalCnt hf hn⟩
  · have hnone : ∀ n ∈ (none : Option (BitVec 4)), n.toNat ≤ 8 := by simp
    exact ⟨fieldChecked_illegalCtx_trap hf hnone hc, fun hn => fieldChecked_illegalCtx_trap hf (by simpa using hn) hc,
      fieldChecked_illegalCtx_trap hf hnone hc, fieldChecked_illegalCtx_trap hf hnone hc,
      fun hn => fieldChecked_illegalCtx_trap hf (by simpa using hn) hc, fieldChecked_illegalCtx_trap hf hnone hc⟩
  · refine (fieldChecked_illegalCtx (.inr rfl) (by simp) hc).trans ?_
    rw [raise_eq_answered hf]
    rfl

end Sys2Proof.Machine

/-! # Proofs of the family 40_matrix_compressor: the matrix load (R112 to R114), `CompressA` and its laws (R115, R121),
the source (R117) and the standalone compression (R118). -/

namespace Sys2Proof

/-- A packed header is its fields, one above the other, under 40 zeros (R81, R105). -/
theorem packHeader_eq_append (opc : Byte) (cnt flg : BitVec 4) (c : BitVec 8) :
    packHeader opc cnt flg c = 0#40 ++ c ++ flg ++ cnt ++ opc := by
  obtain ⟨hopc, hcnt, hflg, hctx, hrsv⟩ := packHeader_fields opc cnt flg c
  rw [header_eq_append (packHeader opc cnt flg c), hopc, hcnt, hflg, hctx, hrsv]
  simp only [BitVec.append_assoc, BitVec.cast_eq]

end Sys2Proof

namespace Sys2Proof.Machine

/-! ### A command's own violation -/

/-- A violation a command finds itself is the trap (60_exceptions.md R228). -/
theorem violate_eq_trapState {s : State} (hf : s.fatal = false) (op : Opcode) (st : Status) :
    violate op st s = .next (trapState s op.byte st.code) := by
  rw [violate, raise_eq_trapState hf]

/-- The checks of R100 pass a command that names no context and whose count, if it has one, is legal. -/
theorem fieldChecked_pass_no_ctx {op : Opcode} {cnt : Option (BitVec 4)} {s : State} {body : Res}
    (hf : s.fatal = false) (hn : ∀ n ∈ cnt, n.toNat ≤ 8) : fieldChecked op none cnt s body = body :=
  fieldChecked_pass (.inl hf) hn (by simp)

/-! ### CRUN's traps (R118) -/

theorem exec_crun_not_ready {s : State} {csel : Compressor} (hf : s.fatal = false)
    (hr : compressorReady s csel = false) : exec (.crun csel) s = .next (trapState s 0x31#8 0x85#8) :=
  calc exec (.crun csel) s = violate .crun .errNotReady s :=
        (fieldChecked_pass_no_ctx hf (by simp)).trans (if_pos hr)
    _ = _ := violate_eq_trapState hf _ _

theorem exec_crun_wrong_length {s : State} {csel : Compressor} (hf : s.fatal = false)
    (hr : compressorReady s csel = true) (hl : s.srcCnt ≠ s.params.inputLen) :
    exec (.crun csel) s = .next (trapState s 0x31#8 0x89#8) :=
  calc exec (.crun csel) s = violate .crun .errSrcLen s :=
        (fieldChecked_pass_no_ctx hf (by simp)).trans ((if_neg (by simp [hr])).trans (if_pos hl))
    _ = _ := violate_eq_trapState hf _ _

/-- Settles O36: both ways of not being ready come before the length. -/
theorem crunTraps : Obligations.CrunTraps := by
  intro s csel hf
  refine ⟨?_, ?_, fun hr hl => exec_crun_wrong_length hf hr hl⟩
  · rintro rfl hm
    exact exec_crun_not_ready hf (beq_false_of_ne hm)
  · rintro rfl ht
    exact exec_crun_not_ready hf ht

/-! ### MLOAD (R112) -/

theorem exec_mload_full {s : State} {w : Word} (hf : s.fatal = false) (hm : s.mptr = s.params.matrixWords) :
    exec (.mload w) s = .next (trapState s 0x10#8 0x86#8) :=
  calc exec (.mload w) s = violate .mload .errMatrixFull s :=
        (fieldChecked_pass_no_ctx hf (by simp)).trans (if_pos hm)
    _ = _ := violate_eq_trapState hf _ _

/-- The whole state after an `MLOAD` that has room: the row-major index it writes is `MPTR` itself (R113). -/
theorem exec_mload {s : State} {w : Word} (hf : s.fatal = false) (hm : s.mptr ≠ s.params.matrixWords) :
    exec (.mload w) s =
      .next { answered s 0#16 0x10#8 0x00#8 [] with a := s.a.write s.mptr w, mptr := s.mptr + 1 } := by
  have hdone : Completed s (.mload w) { s with a := s.a.write s.mptr w, mptr := s.mptr + 1 } [] :=
    ⟨hm, rfl, by rw [cellA_div_mod]⟩
  rw [exec_completed (.inl hf) rfl hdone, respond_nil]
  rfl

/-- Settles O30: the cell the statement names is the index `MPTR`. -/
theorem mloadWritesTheNextWord : Obligations.MloadWritesTheNextWord := by
  refine ⟨fun w => rfl, fun s w hf => ⟨exec_mload_full hf, fun hm => ?_⟩⟩
  rw [cellA_div_mod]
  exact ⟨_, exec_mload hf hm, Mem.read_write_same _ _ _, fun k hk => Mem.read_write_other _ _ hk⟩

/-! ### A run of MLOADs (R113, R114) -/

/-- The first command of a list that goes on. -/
theorem execAll_cons_of_next {i : Instr} {is : List Instr} {s t : State} (h : exec i s = .next t) :
    execAll (i :: is) s = execAll is t := by
  simp only [execAll, h]

/-- Loads that fit write their words one after the other from `MPTR` on. -/
theorem execAll_mload {s : State} (hf : s.fatal = false) {ws : List Word}
    (hfit : s.mptr + ws.length ≤ s.params.matrixWords) :
    ∃ t, execAll (ws.map Instr.mload) s = .next t ∧ t.params = s.params ∧ t.mptr = s.mptr + ws.length
      ∧ t.a = s.a.writeRange s.mptr ws := by
  induction ws generalizing s with
  | nil => exact ⟨s, rfl, rfl, rfl, rfl⟩
  | cons w ws ih =>
    rw [List.length_cons] at hfit
    have hnext := exec_mload (w := w) hf (by omega)
    obtain ⟨t, hrun, hparams, hmptr, ha⟩ :=
      ih (s := { answered s 0#16 0x10#8 0x00#8 [] with a := s.a.write s.mptr w, mptr := s.mptr + 1 }) hf
        (by show s.mptr + 1 + ws.length ≤ s.params.matrixWords; omega)
    refine ⟨t, (execAll_cons_of_next hnext).trans hrun, hparams, ?_, ha⟩
    rw [hmptr, List.length_cons, Nat.add_assoc, Nat.add_comm 1]

/-- Settles O31: from power-on the words stand at `0, 1, …`, and `q` is the row-major index of its row and column. -/
theorem matrixLoadIsRowMajor : Obligations.MatrixLoadIsRowMajor := by
  intro p ws _ hfit
  obtain ⟨t, hrun, hparams, hmptr, ha⟩ :=
    execAll_mload (s := State.powerOn p) rfl (ws := ws) ((Nat.zero_add _).trans_le hfit)
  replace hmptr : t.mptr = ws.length := hmptr.trans (Nat.zero_add _)
  replace ha : t.a = Mem.writeRange [] 0 ws := ha
  refine ⟨t, hrun, hmptr, fun q hq => ?_, ?_⟩
  · rw [cellA_div_mod, ha, Mem.read_writeRange, if_pos (by omega), Nat.sub_zero]
  · rw [matrixValid, hmptr, hparams]
    exact beq_iff_eq

/-! ### The closed sums -/

/-- Bytes `8i` to `8i + 7` of the rows are row `i` (20_memory.md R62). -/
theorem take_drop_bytesOfWords {ws : List Word} {i : Nat} (hi : i < ws.length) :
    ((bytesOfWords ws).drop (8 * i)).take 8 = le64 (ws.getD i 0#64) := by
  refine List.ext_getElem? fun n => ?_
  rw [List.getD_eq_getElem?_getD, List.getElem?_eq_getElem hi, Option.getD_some]
  by_cases hn : n < 8
  · rw [List.getElem?_take_of_lt hn, List.getElem?_drop, getElem?_bytesOfWords (List.getElem?_eq_getElem hi) hn,
      getElem?_le64 _ hn]
  · rw [List.getElem?_eq_none (by simp; omega), List.getElem?_eq_none (by simpa using hn)]

/-- Over a complete matrix `CompressA` answers the closed sums (R115). -/
theorem compressA_eq {s : State} (h : Inv s) (hm : matrixValid s = true) {x : List Byte}
    (hx : x.length = s.params.inputLen) :
    compressA s.params s.a x = .ok (refCompress (matrixOf s) s.params.nRows x) := answersSums_matrix h hm x hx

/-- Settles O32: the answer is the closed sums, and row `i` of its bytes is `LE64` of word `i`. -/
theorem compressAIsTheMaskedSum : Obligations.CompressAIsTheMaskedSum := by
  intro s x h hm hx
  refine ⟨_, compressA_eq h hm hx, rfl, by simp [Params.outputLen], fun i hi => ?_⟩
  exact take_drop_bytesOfWords (by simpa using hi)

/-! ### The laws of the closed sums (R121) -/

/-- The sum of the words of row `f` that the bytes `x` select, the first byte being byte `n` of the input. -/
def rowSelect (f : Nat → Word) (n : Nat) (x : List Byte) : Word :=
  ((x.zipIdx n).map fun bj => selectSum (fun k => f (8 * bj.2 + k)) bj.1).sum

theorem refRow_eq_rowSelect (A : Nat → Nat → Word) (i : Nat) (x : List Byte) :
    refRow A i x = rowSelect (A i) 0 x := rfl

@[simp] theorem rowSelect_nil (f : Nat → Word) (n : Nat) : rowSelect f n [] = 0#64 := rfl

@[simp] theorem rowSelect_cons (f : Nat → Word) (n : Nat) (b : Byte) (x : List Byte) :
    rowSelect f n (b :: x) = selectSum (fun k => f (8 * n + k)) b + rowSelect f (n + 1) x := rfl

theorem zeros_succ (m : Nat) : zeros (m + 1) = 0#8 :: zeros m := rfl

/-- Zero bytes select nothing. -/
theorem rowSelect_zeros (f : Nat → Word) (n m : Nat) : rowSelect f n (zeros m) = 0#64 := by
  induction m generalizing n with
  | zero => rfl
  | succ m ih =>
    rw [zeros_succ, rowSelect_cons, selectSum_zero, ih, BitVec.add_zero]

/-- Disjoint inputs add. -/
theorem rowSelect_or (f : Nat → Word) {x y : List Byte} (n : Nat) (hlen : x.length = y.length)
    (hdisj : ∀ b ∈ List.zipWith (· &&& ·) x y, b = 0#8) :
    rowSelect f n (List.zipWith (· ||| ·) x y) = rowSelect f n x + rowSelect f n y := by
  induction x generalizing y n with
  | nil =>
    obtain rfl : y = [] := List.eq_nil_of_length_eq_zero hlen.symm
    rfl
  | cons a x ih =>
    obtain - | ⟨b, y⟩ := y
    · cases hlen
    rw [List.zipWith_cons_cons, List.forall_mem_cons] at hdisj
    obtain ⟨hhead, htail⟩ := hdisj
    rw [List.zipWith_cons_cons, rowSelect_cons, rowSelect_cons, rowSelect_cons, selectSum_or _ hhead,
      ih (n + 1) (Nat.succ.inj hlen) htail]
    ac_rfl

/-- A single bit selects its word. -/
theorem selectSum_single (f : Nat → Word) {k : Nat} (hk : k < 8) : selectSum f (1#8 <<< k) = f k := by
  interval_cases k <;> simp [selectSum, List.range_succ]

/-- A single bit of the input selects the word of its column. -/
theorem rowSelect_single (f : Nat → Word) (n : Nat) {m j k : Nat} (hj : j < m) (hk : k < 8) :
    rowSelect f n ((zeros m).set j (1#8 <<< k)) = f (8 * (n + j) + k) := by
  induction m generalizing n j with
  | zero => omega
  | succ m ih =>
    rw [zeros_succ]
    cases j with
    | zero =>
      rw [List.set_cons_zero, rowSelect_cons, selectSum_single _ hk, rowSelect_zeros, BitVec.add_zero, Nat.add_zero]
    | succ j =>
      rw [List.set_cons_succ, rowSelect_cons, selectSum_zero, BitVec.zero_add, ih (n + 1) (Nat.lt_of_succ_lt_succ hj),
        Nat.add_assoc n 1 j, Nat.add_comm 1 j]

/-- A byte selects among eight words alone. -/
theorem selectSum_congr {f g : Nat → Word} {b : Byte} (hfg : ∀ k, k < 8 → f k = g k) :
    selectSum f b = selectSum g b := by
  refine congrArg List.sum (List.map_congr_left fun k hk => ?_)
  rw [hfg k (List.mem_range.mp hk)]

/-- A row's sum looks at the columns of its input alone. -/
theorem rowSelect_congr {f g : Nat → Word} {n : Nat} {x : List Byte}
    (hfg : ∀ j, j < 8 * (n + x.length) → f j = g j) : rowSelect f n x = rowSelect g n x := by
  induction x generalizing n with
  | nil => rfl
  | cons b x ih =>
    rw [List.length_cons] at hfg
    have hhead : selectSum (fun k => f (8 * n + k)) b = selectSum (fun k => g (8 * n + k)) b :=
      selectSum_congr fun k hk => hfg (8 * n + k) (by omega)
    rw [rowSelect_cons, rowSelect_cons, hhead, ih fun j hj => hfg j (by omega)]

theorem getElem?_refCompress (A : Nat → Nat → Word) {n i : Nat} (hi : i < n) (x : List Byte) :
    (refCompress A n x)[i]? = some (refRow A i x) := by
  simp [refCompress, hi]

/-- The closed sums of zeros (R121). -/
theorem refCompress_zeros (A : Nat → Nat → Word) (n m : Nat) :
    refCompress A n (zeros m) = List.replicate n 0#64 := by
  simp [refCompress, refRow_eq_rowSelect, rowSelect_zeros]

/-- The closed sums of disjoint inputs add row by row (R121). -/
theorem refCompress_or (A : Nat → Nat → Word) (n : Nat) {x y : List Byte} (hlen : x.length = y.length)
    (hdisj : ∀ b ∈ List.zipWith (· &&& ·) x y, b = 0#8) :
    refCompress A n (List.zipWith (· ||| ·) x y)
      = List.zipWith (· + ·) (refCompress A n x) (refCompress A n y) := by
  simp [refCompress, refRow_eq_rowSelect, rowSelect_or _ _ hlen hdisj, List.zipWith_map]

/-- The closed sums of a single bit are its column (R121). -/
theorem refCompress_single (A : Nat → Nat → Word) (n : Nat) {m j k : Nat} (hj : j < m) (hk : k < 8) :
    refCompress A n ((zeros m).set j (1#8 <<< k)) = (List.range n).map fun i => A i (8 * j + k) := by
  simp [refCompress, refRow_eq_rowSelect, rowSelect_single _ _ hj hk]

/-- Settles O33: `CompressA` answers the closed sums, which have each of the laws. -/
theorem compressALaws : Obligations.CompressALaws := by
  intro s h hm
  refine ⟨?_, fun x y hx hy hdisj => ?_, fun j k hj hk => ?_, fun s' x i h' hm' hp hx hi hrow => ?_⟩
  · rw [compressA_eq h hm (zeros_length _), refCompress_zeros]
  · have hor : (List.zipWith (· ||| ·) x y).length = s.params.inputLen := by simp [hx, hy]
    have hbytes : ∀ b ∈ List.zipWith (· &&& ·) x y, b = 0#8 := fun b hb => List.eq_of_mem_replicate (hdisj ▸ hb)
    refine ⟨_, _, compressA_eq h hm hx, compressA_eq h hm hy, ?_⟩
    rw [compressA_eq h hm hor, refCompress_or _ _ (hx.trans hy.symm) hbytes]
  · rw [compressA_eq h hm (by simp), refCompress_single _ _ hj hk]
  · refine ⟨_, _, compressA_eq h hm hx, compressA_eq h' hm' (hp ▸ hx), ?_⟩
    have hcols : 8 * (0 + x.length) = s.params.mCols := by rw [Nat.zero_add, hx, inputLen_mul_eight h.buildable]
    rw [hp, getElem?_refCompress _ hi, getElem?_refCompress _ hi, refRow_eq_rowSelect, refRow_eq_rowSelect,
      rowSelect_congr fun j hj => hrow j (hcols ▸ hj)]

/-! ### CLOAD (R117) -/

/-- Bytes that would exceed `IL` are a violation. -/
theorem exec_cload_too_long {s : State} {cnt : BitVec 4} {w : Word} (hf : s.fatal = false) (hn : cnt.toNat ≤ 8)
    (hl : s.params.inputLen < s.srcCnt + cnt.toNat) :
    exec (.cload cnt w) s = .next (trapState s 0x30#8 0x89#8) :=
  calc exec (.cload cnt w) s = violate .cload .errSrcLen s :=
        (fieldChecked_pass_no_ctx hf (by simpa using hn)).trans (if_pos hl)
    _ = _ := violate_eq_trapState hf _ _

/-- The whole state after a `CLOAD` whose bytes fit. -/
theorem exec_cload {s : State} {cnt : BitVec 4} {w : Word} (hf : s.fatal = false) (hn : cnt.toNat ≤ 8)
    (hl : s.srcCnt + cnt.toNat ≤ s.params.inputLen) :
    exec (.cload cnt w) s =
      .next { answered s 0#16 0x30#8 0x00#8 [] with
              src := s.src.writeRange s.srcCnt (payloadBytes cnt w), srcCnt := s.srcCnt + cnt.toNat } := by
  have hw : (Instr.cload cnt w).wellFormed s.params = true := decide_eq_true hn
  have hdone : Completed s (.cload cnt w)
      { s with src := s.src.writeRange s.srcCnt (payloadBytes cnt w), srcCnt := s.srcCnt + cnt.toNat } [] :=
    ⟨hl, rfl, rfl⟩
  rw [exec_completed (.inl hf) hw hdone, respond_nil]
  rfl

/-- Settles O34: the bytes written at `SRC_CNT` are the payload's, and they are `CNT` many. -/
theorem cloadAppendsBytes : Obligations.CloadAppendsBytes := by
  refine ⟨fun cnt w => ?_, fun s cnt w hf hn => ⟨exec_cload_too_long hf hn, fun hl => ?_⟩⟩
  · exact congrArg (fun header => [header, w]) (packHeader_eq_append 0x30#8 cnt 0#4 0#8)
  · refine ⟨_, exec_cload hf hn hl, fun n hlt => ?_, fun n hout => ?_⟩
    · rw [Mem.read_writeRange, payloadBytes_length, if_pos (by omega), Nat.add_sub_cancel_left,
        getElem?_payloadBytes _ _ hlt, byteOf]
    · rw [Mem.read_writeRange, payloadBytes_length, if_neg (by omega)]

/-! ### CRUN (R118) -/

/-- A full source is read whole. -/
theorem readRange_src {s : State} (h : Inv s) (hfull : s.srcCnt = s.params.inputLen) :
    s.src.readRange .src 0 s.params.inputLen = .ok (s.src.map Prod.snd) := by
  have hlen : s.src.length = s.params.inputLen := le_antisymm h.src_length (hfull ▸ h.src_count)
  rw [Mem.readRange_dense h.src_dense .src (by omega), List.drop_zero, List.take_of_length_le (by simp [hlen])]

/-- Settles O35: both compressors answer the closed sums of the source. -/
theorem crunAnswersRowSums : Obligations.CrunAnswersRowSums := by
  intro s csel h hf hr hfull
  have hread := readRange_src h hfull
  have hsums := answersSums_of_ready h hr _ (Mem.readRange_length hread)
  have hdone : Completed s (.crun csel) { s with srcCnt := 0 } _ := ⟨hr, hfull, _, hread, hsums, rfl⟩
  refine ⟨fieldOf 16 s.params.nRows, fieldOf_toNat, ?_⟩
  rw [exec_completed (.inl hf) rfl hdone, respond_eq_answered, refCompress_length]
  rfl

end Sys2Proof.Machine

/-! # Proofs of the family 41_lookup_table: TDERIVE (R141), the laws of a derived table (R144) and the equality of the
two compressors (R143). -/

namespace Sys2Proof.Machine

/-! ### The words and the entries that are there -/

/-- Column `8g + k` of row `i` lies within the matrix. -/
theorem cellA_group_lt {p : Params} (hb : p.Buildable) {i g k : Nat} (hi : i < p.nRows) (hg : g < p.inputLen)
    (hk : k < 8) : cellA p i (8 * g + k) < p.matrixWords := by
  have hcols := inputLen_mul_eight hb
  calc cellA p i (8 * g + k) < i * p.mCols + p.mCols := Nat.add_lt_add_left (by omega) _
    _ = (i + 1) * p.mCols := (Nat.succ_mul i p.mCols).symm
    _ ≤ p.matrixWords := Nat.mul_le_mul_right _ hi

/-- A complete matrix holds a word in each column of a group (10_state.md R26, R27). -/
theorem read_matrix {s : State} (h : Inv s) (hm : matrixValid s = true) {i g k : Nat} (hi : i < s.params.nRows)
    (hg : g < s.params.inputLen) (hk : k < 8) :
    s.a.read (cellA s.params i (8 * g + k)) = some (matrixOf s i (8 * g + k)) := by
  have hlt : cellA s.params i (8 * g + k) < s.a.length := by
    rw [a_length_of_matrixValid h hm]
    exact cellA_group_lt h.buildable hi hg hk
  exact (Mem.fetch_ok_iff _ .matrix _ _).mp (Mem.fetch_dense h.a_dense .matrix hlt)

/-- A derived table holds at entry `b` of a group the sum `b` selects of its eight columns (R141). -/
theorem read_table {s : State} (h : Inv s) (ht : s.tableValid = true) {i g : Nat} (hi : i < s.params.nRows)
    (hg : g < s.params.inputLen) (b : Byte) :
    s.t.read (cellT s.params i g b.toNat) = some (selectSum (fun k => matrixOf s i (8 * g + k)) b) :=
  (Mem.fetch_ok_iff _ _ _ _).mp (fetch_table h ht hi hg b)

/-! ### TDERIVE (R141) -/

/-- An incomplete matrix is a violation. -/
theorem exec_tderive_not_ready {s : State} (hf : s.fatal = false) (hm : matrixValid s = false) :
    exec .tderive s = .next (trapState s 0x11#8 0x85#8) :=
  calc exec .tderive s = violate .tderive .errNotReady s :=
        (fieldChecked_pass_no_ctx hf (by simp)).trans (if_pos hm)
    _ = _ := violate_eq_trapState hf _ _

/-- The whole state after a `TDERIVE` over a complete matrix. -/
theorem exec_tderive {s : State} (hf : s.fatal = false) (hm : matrixValid s = true) {t : Mem Word}
    (ht : deriveTable s.params s.a = .ok t) :
    exec .tderive s = .next { answered s 0#16 0x11#8 0x00#8 [] with t := t, tableValid := true } := by
  have hdone : Completed s .tderive { s with t := t, tableValid := true } [] := ⟨hm, rfl, t, ht, rfl⟩
  rw [exec_completed (.inl hf) rfl hdone, respond_nil]
  rfl

/-- Settles O37: the state `TDERIVE` leaves meets the invariant, whose table is the one of the matrix. -/
theorem tderiveFillsTheTable : Obligations.TderiveFillsTheTable := by
  refine ⟨rfl, fun s h hf => ⟨exec_tderive_not_ready hf, fun hm => ?_⟩⟩
  have hder := deriveTable_eq h.a_dense h.buildable.1 (a_length_of_matrixValid h hm)
  refine ⟨_, exec_tderive hf hm hder, fun i g b hi hg => ?_⟩
  exact read_table (inv_table h hm hder) rfl hi hg b

/-! ### The laws of a derived table (R144) -/

/-- All bits select all eight words. -/
theorem selectSum_allOnes (f : Nat → Word) : selectSum f 0xFF#8 = ((List.range 8).map f).sum := by
  have hbit : ∀ k ∈ List.range 8, (if (0xFF#8).getLsbD k then f k else 0#64) = f k := by
    intro k hk
    rw [show (0xFF#8 : Byte) = BitVec.allOnes 8 from rfl, BitVec.getLsbD_allOnes,
      if_pos (decide_eq_true (List.mem_range.mp hk))]
  exact congrArg List.sum (List.map_congr_left hbit)

/-- Settles O39: the entries are the selected sums of eight words, which have each of the laws. -/
theorem derivedTableLaws : Obligations.DerivedTableLaws := by
  intro s i g h ht hi hg
  refine ⟨selectSum fun k => matrixOf s i (8 * g + k), read_table h ht hi hg, selectSum_zero _, fun k hk => ?_,
    fun a b hdisj => selectSum_or _ hdisj, selectSum_allOnes _⟩
  rw [selectSum_single _ hk]
  exact read_matrix h (h.table_matrix ht) hi hg hk

/-! ### The two compressors (R143) -/

/-- Over a derived table `CompressT` answers the closed sums (R142). -/
theorem compressT_eq {s : State} (h : Inv s) (ht : s.tableValid = true) {x : List Byte}
    (hx : x.length = s.params.inputLen) :
    compressT s.params s.t x = .ok (refCompress (matrixOf s) s.params.nRows x) := answersSums_table h ht x hx

/-- Settles O40: both compressors answer the closed sums of the same matrix. -/
theorem tableCompressorEqualsMatrixCompressor : Obligations.TableCompressorEqualsMatrixCompressor :=
  fun _ _ h ht hx => ⟨_, compressT_eq h ht hx, compressA_eq h (h.table_matrix ht) hx⟩

end Sys2Proof.Machine

/-! # Proofs of the family 42_streaming_engine: the salt staging (R162), INIT and RESET (R163 to R165), the write path
(R168 to R172), padding and FINAL (R180 to R184), RESET against INIT (R185), the choice of the compressor (R186) and the
salt as a message (R188). -/

namespace Sys2Proof.Machine

/-- A memory that holds a string from 0 on is read whole. -/
theorem Mem.readRange_whole {α : Type} {m : Mem α} (hd : m.dense) {n : Nat} (hl : m.length = n) (place : Store) :
    m.readRange place 0 n = .ok (m.map Prod.snd) := by
  rw [Mem.readRange_dense hd place (by omega), List.drop_zero, List.take_of_length_le (by simp [hl])]

/-! ### A state seen from one context -/

/-- `s` with `k` as context `c` and `q` as `RESPQ`: what a run of commands to context `c` alone leaves of `s`. -/
def State.focus (s : State) (c : BitVec 8) (k : Context) (q : List Word) : State := { setCtx s c k with respq := q }

/-- Commands to context `c` come to their own checks and find the context in the list (30_encoding.md R100). -/
structure Addressed (s : State) (c : BitVec 8) : Prop where
  not_fatal : s.fatal = false
  exists_ctx : c.toNat < s.params.nCtx
  listed : c.toNat < s.ctx.length

theorem addressed_of_getElem? {s : State} {c : BitVec 8} {k : Context} (hf : s.fatal = false)
    (hc : c.toNat < s.params.nCtx) (hk : s.ctx[c.toNat]? = some k) : Addressed s c :=
  ⟨hf, hc, (List.getElem?_eq_some_iff.mp hk).1⟩

theorem ctxAt_of_getElem? {s : State} {c : BitVec 8} {k : Context} (hk : s.ctx[c.toNat]? = some k) : ctxAt s c = k := by
  rw [ctxAt, List.getD_eq_getElem?_getD, hk, Option.getD_some]

/-- A context of the list meets the invariant of a context. -/
theorem Inv.ctxInv_of_getElem? {s : State} {c : BitVec 8} {k : Context} (h : Inv s) (hk : s.ctx[c.toNat]? = some k) :
    CtxInv s k := h.ctx_inv k (List.mem_of_getElem? hk)

/-- With the context it holds, only the queue is replaced. -/
theorem focus_queue {s : State} {c : BitVec 8} {k : Context} (hk : s.ctx[c.toNat]? = some k) (q : List Word) :
    s.focus c k q = { s with respq := q } := by
  obtain ⟨hlt, rfl⟩ := List.getElem?_eq_some_iff.mp hk
  simp only [State.focus, setCtx, List.set_getElem_self]

theorem focus_self {s : State} {c : BitVec 8} {k : Context} (hk : s.ctx[c.toNat]? = some k) :
    s.focus c k s.respq = s := focus_queue hk s.respq

theorem ctxAt_focus {s : State} {c : BitVec 8} (ha : Addressed s c) (k : Context) (q : List Word) :
    ctxAt (s.focus c k q) c = k := ctxAt_setCtx_same s c k ha.listed

theorem addressed_focus {s : State} {c : BitVec 8} (ha : Addressed s c) (k : Context) (q : List Word) :
    Addressed (s.focus c k q) c :=
  ⟨ha.not_fatal, ha.exists_ctx, (List.length_set ..).symm ▸ ha.listed⟩

@[simp] theorem setCtx_focus (s : State) (c : BitVec 8) (k k' : Context) (q : List Word) :
    setCtx (s.focus c k q) c k' = s.focus c k' q := by
  simp [setCtx, State.focus]

@[simp] theorem respond_focus (s : State) (c : BitVec 8) (k : Context) (q : List Word) (opc : Byte) (st : Status)
    (data : List Word) : respond opc st data (s.focus c k q)
      = s.focus c k (q ++ refBeat (fieldOf 16 data.length) opc st.code :: data) := by
  rw [respond_eq_answered]
  rfl

@[simp] theorem compressorReady_focus (s : State) (c : BitVec 8) (k : Context) (q : List Word) (csel : Compressor) :
    compressorReady (s.focus c k q) csel = compressorReady s csel := by cases csel <;> rfl

@[simp] theorem resetView_focus (s : State) (c : BitVec 8) (k : Context) (q : List Word) (v : View) :
    resetView (s.focus c k q) v = resetView s v :=
  resetView_congr (s := s.focus c k q) (s' := s) rfl rfl rfl v

@[simp] theorem writePath_focus (s : State) (c : BitVec 8) (k : Context) (q : List Word) (v : View) (d : List Byte) :
    writePath (s.focus c k q) v d = writePath s v d :=
  writePath_congr (s := s.focus c k q) (s' := s) rfl rfl rfl v d

@[simp] theorem padView_focus (s : State) (c : BitVec 8) (k : Context) (q : List Word) (v : View) :
    padView (s.focus c k q) v = padView s v :=
  padView_congr (s := s.focus c k q) (s' := s) rfl rfl rfl v

/-! ### The checks and the violations of the commands to a context -/

/-- The checks of R100 pass a command to a context whose count, if it has one, is legal. -/
theorem fieldChecked_pass_ctx {op : Opcode} {c : BitVec 8} {cnt : Option (BitVec 4)} {s : State} {body : Res}
    (hf : s.fatal = false) (hc : c.toNat < s.params.nCtx) (hn : ∀ n ∈ cnt, n.toNat ≤ 8) :
    fieldChecked op (some c) cnt s body = body :=
  fieldChecked_pass (.inl hf) hn (by simpa using hc)

/-- A violation that a command to a context finds before anything else is the trap (60_exceptions.md R228). -/
theorem fieldChecked_violation {op : Opcode} {c : BitVec 8} {cnt : Option (BitVec 4)} {s : State} {st : Status}
    {body : Res} {p : Prop} [Decidable p] (hf : s.fatal = false) (hc : c.toNat < s.params.nCtx)
    (hn : ∀ n ∈ cnt, n.toNat ≤ 8) (hp : p) :
    fieldChecked op (some c) cnt s (if p then violate op st s else body) = .next (trapState s op.byte st.code) := by
  rw [fieldChecked_pass_ctx hf hc hn, if_pos hp, violate_eq_trapState hf]

theorem exec_sload_too_long {s : State} {c : BitVec 8} {cnt : BitVec 4} {w : Word} (hf : s.fatal = false)
    (hc : c.toNat < s.params.nCtx) (hn : cnt.toNat ≤ 8)
    (hl : s.params.blockSize < (ctxAt s c).saltCnt + cnt.toNat) :
    exec (.sload c cnt w) s = .next (trapState s 0x20#8 0x87#8) :=
  fieldChecked_violation hf hc (by simpa using hn) hl

theorem exec_init_not_ready {s : State} {c : BitVec 8} {csel : Compressor} {salted : Bool} (hf : s.fatal = false)
    (hc : c.toNat < s.params.nCtx) (hr : compressorReady s csel = false) :
    exec (.init c csel salted) s = .next (trapState s 0x21#8 0x85#8) :=
  fieldChecked_violation hf hc (by simp) hr

theorem exec_init_salt_length {s : State} {c : BitVec 8} {csel : Compressor} (hf : s.fatal = false)
    (hc : c.toNat < s.params.nCtx) (hr : compressorReady s csel = true)
    (hl : (ctxAt s c).saltCnt ≠ s.params.blockSize) :
    exec (.init c csel true) s = .next (trapState s 0x21#8 0x87#8) :=
  calc exec (.init c csel true) s = violate .init .errSaltLen s :=
        (fieldChecked_pass_ctx hf hc (by simp)).trans ((if_neg (by simp [hr])).trans (if_pos ⟨rfl, hl⟩))
    _ = _ := violate_eq_trapState hf _ _

/-- Settles O45: both ways of not being ready come before the salt's length. -/
theorem initTraps : Obligations.InitTraps := by
  intro s c csel salted k hf hc hk
  refine ⟨?_, ?_, ?_⟩
  · rintro rfl hm
    exact exec_init_not_ready hf hc (beq_false_of_ne hm)
  · rintro rfl ht
    exact exec_init_not_ready hf hc ht
  · rintro hr rfl hl
    exact exec_init_salt_length hf hc hr (by rwa [ctxAt_of_getElem? hk])

/-- Settles O46: each of the three commands looks at `BOUND` first, WRITE's count having been checked before. -/
theorem unboundContextTraps : Obligations.UnboundContextTraps := by
  intro s c cnt w k hf hc hk hb
  have hunbound : (ctxAt s c).bound = false := by rwa [ctxAt_of_getElem? hk]
  exact ⟨fieldChecked_violation hf hc (by simp) hunbound,
    fun hn => fieldChecked_violation hf hc (by simpa using hn) hunbound,
    fun hn => fieldChecked_illegalCnt hf hn,
    fieldChecked_violation hf hc (by simp) hunbound⟩

/-! ### SLOAD (R162) -/

/-- The whole state after an `SLOAD` whose bytes fit. -/
theorem exec_sload {s : State} {c : BitVec 8} {cnt : BitVec 4} {w : Word} (hf : s.fatal = false)
    (hc : c.toNat < s.params.nCtx) (hn : cnt.toNat ≤ 8)
    (hl : (ctxAt s c).saltCnt + cnt.toNat ≤ s.params.blockSize) :
    exec (.sload c cnt w) s = .next (answered (setCtx s c { ctxAt s c with
      saltStage := (ctxAt s c).saltStage.writeRange (ctxAt s c).saltCnt (payloadBytes cnt w),
      saltCnt := (ctxAt s c).saltCnt + cnt.toNat }) 0#16 0x20#8 0x00#8 []) := by
  have hw : (Instr.sload c cnt w).wellFormed s.params = true := by simp [Instr.wellFormed, ctxLegal, cntLegal, hc, hn]
  rw [exec_completed (.inl hf) hw ⟨hl, rfl, rfl⟩, respond_nil]
  rfl

/-- Settles O41: the bytes written at `SALT_CNT` are the payload's, and they are `CNT` many. -/
theorem sloadStagesBytes : Obligations.SloadStagesBytes := by
  refine ⟨fun c cnt w => ?_, fun s c cnt w k hf hn hc hk => ?_⟩
  · exact congrArg (fun header => [header, w]) (packHeader_eq_append 0x20#8 cnt 0#4 c)
  obtain rfl := ctxAt_of_getElem? hk
  refine ⟨exec_sload_too_long hf hc hn, fun hl => ⟨_, exec_sload hf hc hn hl, fun n hlt => ?_, fun n hout => ?_⟩⟩
  · rw [Mem.read_writeRange, payloadBytes_length, if_pos (by omega), Nat.add_sub_cancel_left,
      getElem?_payloadBytes _ _ hlt, byteOf]
  · rw [Mem.read_writeRange, payloadBytes_length, if_neg (by omega)]

/-! ### The other commands to a context, each as a rule on the focused state -/

section
variable {s : State} {c : BitVec 8} {k : Context}

/-- `INIT` (R163). -/
theorem exec_init (ha : Addressed s c) {csel : Compressor} {salted : Bool} (hr : compressorReady s csel = true)
    (hs : salted = true → k.saltCnt = s.params.blockSize) {salt : Mem Byte} (hsalt : initSalt s k salted = .ok salt)
    {v : View} (hv : resetView s { k.view with salt := salt, csel := csel, salted := salted } = .ok v) (q : List Word) :
    exec (.init c csel salted) (s.focus c k q)
      = .next (s.focus c { k with saltCnt := 0, bound := true, phase := .fresh, view := v }
          (q ++ [refBeat 0#16 0x21#8 0x00#8])) := by
  have ha' := addressed_focus ha k q
  have hw : (Instr.init c csel salted).wellFormed (s.focus c k q).params = true := decide_eq_true ha'.exists_ctx
  have hdone : Completed (s.focus c k q) (.init c csel salted)
      (s.focus c { k with saltCnt := 0, bound := true, phase := .fresh, view := v } q) [] := by
    simp only [Completed, ctxAt_focus ha, compressorReady_focus, resetView_focus, setCtx_focus]
    exact ⟨hr, hs, trivial, salt, v, hsalt, hv, rfl⟩
  rw [exec_completed (.inl ha'.not_fatal) hw hdone, respond_focus]
  simp [Instr.opcode, Opcode.byte, Status.code]

/-- `RESET` of a bound context (R164). -/
theorem exec_reset (ha : Addressed s c) (hb : k.bound = true) {v : View} (hv : resetView s k.view = .ok v)
    (q : List Word) : exec (.reset c) (s.focus c k q)
      = .next (s.focus c { k with phase := .fresh, view := v } (q ++ [refBeat 0#16 0x22#8 0x00#8])) := by
  have ha' := addressed_focus ha k q
  have hw : (Instr.reset c).wellFormed (s.focus c k q).params = true := decide_eq_true ha'.exists_ctx
  have hdone : Completed (s.focus c k q) (.reset c) (s.focus c { k with phase := .fresh, view := v } q) [] := by
    simp only [Completed, ctxAt_focus ha, resetView_focus, setCtx_focus]
    exact ⟨hb, trivial, v, hv, rfl⟩
  rw [exec_completed (.inl ha'.not_fatal) hw hdone, respond_focus]
  simp [Instr.opcode, Opcode.byte, Status.code]

/-- `WRITE` whose write path succeeds (R169). -/
theorem exec_write (ha : Addressed s c) (hb : k.bound = true) {cnt : BitVec 4} (hn : cnt.toNat ≤ 8) {w : Word}
    {v : View} (hv : writePath s k.view (payloadBytes cnt w) = .ok (some v)) (q : List Word) :
    exec (.write c cnt w) (s.focus c k q)
      = .next (s.focus c { k with phase := .accumulating, view := v } (q ++ [refBeat 0#16 0x23#8 0x00#8])) := by
  have ha' := addressed_focus ha k q
  have hw : (Instr.write c cnt w).wellFormed (s.focus c k q).params = true := by
    simp [Instr.wellFormed, ctxLegal, cntLegal, ha'.exists_ctx, hn]
  have hdone : Completed (s.focus c k q) (.write c cnt w)
      (s.focus c { k with phase := .accumulating, view := v } q) [] := by
    simp only [Completed, ctxAt_focus ha, writePath_focus, setCtx_focus]
    exact ⟨hb, trivial, v, hv, rfl⟩
  rw [exec_completed (.inl ha'.not_fatal) hw hdone, respond_focus]
  simp [Instr.opcode, Opcode.byte, Status.code]

/-- `WRITE` whose write path fails (R172). -/
theorem exec_write_fail (ha : Addressed s c) (hb : k.bound = true) {cnt : BitVec 4} (hn : cnt.toNat ≤ 8) {w : Word}
    (hv : writePath s k.view (payloadBytes cnt w) = .ok none) (q : List Word) :
    exec (.write c cnt w) (s.focus c k q) = .next (s.focus c k (q ++ [refBeat 0#16 0x23#8 0x01#8])) := by
  have ha' := addressed_focus ha k q
  refine (fieldChecked_pass_ctx ha'.not_fatal ha'.exists_ctx (by simpa using hn)).trans ?_
  simp only [ctxAt_focus ha, hb, writePath_focus, hv]
  show Host.Outcome.next (respond _ _ _ _) = _
  simp [Opcode.byte, Status.code]

/-- `FINAL` whose padding succeeds and ends a block (R180). -/
theorem exec_final (ha : Addressed s c) (hb : k.bound = true) {v : View} (hp : padView s k.view = .ok (some v))
    (h0 : v.carryLen = 0) (hd : v.chain.dense) (hl : v.chain.length = s.params.outputLen) (q : List Word) :
    exec (.final c) (s.focus c k q) = .next (s.focus c k (q ++ refBeat (fieldOf 16 s.params.nRows) 0x24#8 0x00#8 ::
      wordsOfBytes s.params.nRows (v.chain.map Prod.snd))) := by
  have ha' := addressed_focus ha k q
  have hw : (Instr.final c).wellFormed (s.focus c k q).params = true := decide_eq_true ha'.exists_ctx
  have hdone : Completed (s.focus c k q) (.final c) (s.focus c k q)
      (wordsOfBytes s.params.nRows (v.chain.map Prod.snd)) := by
    simp only [Completed, ctxAt_focus ha, padView_focus]
    exact ⟨hb, trivial, v, _, hp, h0, Mem.readRange_whole hd hl .chain, rfl⟩
  rw [exec_completed (.inl ha'.not_fatal) hw hdone, respond_focus, wordsOfBytes_length]
  rfl

/-- `FINAL` whose padding would reach the length limit (R180, 60_exceptions.md R230). -/
theorem exec_final_fail (ha : Addressed s c) (hb : k.bound = true) (hp : padView s k.view = .ok none) (q : List Word) :
    exec (.final c) (s.focus c k q) = .next (s.focus c k (q ++ [refBeat 0#16 0x24#8 0x01#8])) := by
  have ha' := addressed_focus ha k q
  refine (fieldChecked_pass_ctx ha'.not_fatal ha'.exists_ctx (by simp)).trans ?_
  simp only [ctxAt_focus ha, hb, padView_focus, hp]
  show Host.Outcome.next (respond _ _ _ _) = _
  simp [Opcode.byte, Status.code]

end

/-! ### One whole block written to a cleared view (R165, R168) -/

@[simp] theorem saltOf_clearView (p : Params) (v : View) : saltOf (clearView p v) = saltOf v := rfl

theorem saltOf_of_salted {v : View} (hs : v.salted = true) : saltOf v = some (v.salt.map Prod.snd) := by
  rw [saltOf, if_pos hs]

theorem saltOf_of_unsalted {v : View} (hs : v.salted = false) : saltOf v = none := by simp [saltOf, hs]

/-- XOR with zeros keeps a byte string. -/
theorem xorBytes_zeros {n : Nat} {x : List Byte} (hx : x.length = n) : xorBytes (zeros n) x = x := by
  subst hx
  induction x with
  | nil => rfl
  | cons b x ih => rw [List.length_cons, zeros_succ, xorBytes, List.zipWith_cons_cons, ← xorBytes, ih, BitVec.zero_xor]

/-- The write path from a view of the invariant, in the closed form. -/
theorem writePath_of_viewInv {s : State} (h : Inv s) {v : View} (hv : ViewInv s v) {d buf : List Byte}
    (hbuf : buf = v.carry.map Prod.snd ++ d) (hlim : (v.totalLen.toNat + d.length) * 8 < lenLimitBits) :
    writePath s v d = .ok (some { v with
      totalLen := v.totalLen + BitVec.ofNat 64 d.length,
      chain := Mem.ofList (refChain (matrixOf s) s.params.nRows s.params.blockSize (saltOf v)
        (buf.length / s.params.blockSize) (v.chain.map Prod.snd) buf),
      carry := Mem.ofList (buf.drop (buf.length / s.params.blockSize * s.params.blockSize)),
      carryLen := buf.length % s.params.blockSize }) :=
  writePath_eq (blockSize_pos h.buildable) (ready_of_viewInv h.buildable hv (answersSums_of_ready h hv.ready))
    hv.carry_dense hv.carry_length hbuf hlim

/-- A block written to a cleared view is compressed from the zero chain, and nothing is left over. -/
theorem writePath_clearView_block {s : State} (h : Inv s) {v : View} (hv : ViewInv s (clearView s.params v))
    {d : List Byte} (hd : d.length = s.params.blockSize) (hlim : s.params.blockSize * 8 < lenLimitBits) :
    writePath s (clearView s.params v) d = .ok (some { v with
      chain := Mem.ofList (refBlock (matrixOf s) s.params.nRows (saltOf v) (zeros s.params.outputLen) d),
      carry := [], carryLen := 0, totalLen := BitVec.ofNat 64 s.params.blockSize }) := by
  have hdiv : s.params.blockSize / s.params.blockSize = 1 := Nat.div_self (blockSize_pos h.buildable)
  rw [writePath_of_viewInv h hv (buf := d) rfl (by simpa [hd] using hlim)]
  simp only [hd, hdiv, Nat.one_mul, Nat.mod_self, List.drop_of_length_le hd.le, refChain, List.take_of_length_le hd.le,
    saltOf_clearView, clearView_chain, Mem.ofList_values, clearView_totalLen, BitVec.zero_add]
  rfl

/-! ### `ResetCtx` on a view (R165) -/

theorem resetView_unsalted {s : State} {v : View} (hs : v.salted = false) :
    resetView s v = .ok (clearView s.params v) := by
  simp [resetView, hs]

/-- What a salted fold-in through the write path answers, `ResetCtx` answers. -/
theorem resetView_of_writePath {s : State} {v : View} {r : Option View} (hs : v.salted = true)
    (hw : writePath s (clearView s.params v) (zeros s.params.blockSize) = .ok r) :
    resetView s v = .ok (r.getD (clearView s.params v)) := by
  simp only [resetView, hs, if_true, hw]
  rfl

/-- The fold-in compresses `zeros(OL) ++ SALT`, since the block of zeros XORed with the salt is the salt. -/
theorem resetView_salted {s : State} (h : Inv s) {v : View} (hd : v.salt.dense)
    (hl : v.salt.length = s.params.blockSize) (hr : compressorReady s v.csel = true) (hs : v.salted = true)
    (hlim : s.params.blockSize * 8 < lenLimitBits) :
    resetView s v = .ok { v with
      chain := Mem.ofList (bytesOfWords (refCompress (matrixOf s) s.params.nRows
        (zeros s.params.outputLen ++ v.salt.map Prod.snd))),
      carry := [], carryLen := 0, totalLen := BitVec.ofNat 64 s.params.blockSize } := by
  have hclear := viewInv_clear hd (fun _ => hl) hr
  rw [resetView_of_writePath hs (writePath_clearView_block h hclear (zeros_length _) hlim), saltOf_of_salted hs]
  simp only [refBlock, xorBytes_zeros ((List.length_map _).trans hl), Option.getD_some]

/-- Where one block reaches the length limit the fold-in fails and the cleared view stays (log 12). -/
theorem resetView_limit {s : State} {v : View} (hs : v.salted = true)
    (hlim : lenLimitBits ≤ s.params.blockSize * 8) : resetView s v = .ok (clearView s.params v) :=
  resetView_of_writePath hs (writePath_fail (by simpa using hlim))

/-! ### INIT (R163) -/

/-- `BS` staged bytes become the salt (10_state.md R41, R42). -/
theorem initSalt_of_staged {s : State} {k : Context} (hd : k.saltStage.dense)
    (hl : k.saltStage.length = s.params.blockSize) : initSalt s k true = .ok k.saltStage := by
  simp only [initSalt, if_true, Mem.readRange_whole hd hl]
  exact congrArg Except.ok (Mem.dense_eq hd).symm

/-- `SALT_CNT = BS` says that exactly `BS` bytes are staged. -/
theorem CtxInv.stage_full {s : State} {k : Context} (hk : CtxInv s k) (hfull : k.saltCnt = s.params.blockSize) :
    k.saltStage.length = s.params.blockSize := le_antisymm hk.stage_length (hfull ▸ hk.stage_count)

/-- Settles O42: without a salt `ResetCtx` is the clearing alone. -/
theorem initUnsaltedConstructs : Obligations.InitUnsaltedConstructs := by
  intro s c csel k hf hc hk hr
  have hinit := exec_init (addressed_of_getElem? hf hc hk) hr (by simp) (rfl : initSalt s k false = _)
    (resetView_unsalted rfl) s.respq
  rw [focus_self hk] at hinit
  exact hinit

/-- Settles O43: the staged bytes are the salt, and the fold-in compresses them under the zero chain. -/
theorem initSaltedFoldsTheSalt : Obligations.InitSaltedFoldsTheSalt := by
  intro s c csel k h hf hc hk hr hfull hlim
  have hctx := h.ctxInv_of_getElem? hk
  have hlen := hctx.stage_full hfull
  have hfold := resetView_salted h (v := { k.view with salt := k.saltStage, csel := csel, salted := true })
    hctx.stage_dense hlen hr rfl hlim
  have hinit := exec_init (addressed_of_getElem? hf hc hk) hr (fun _ => hfull)
    (initSalt_of_staged hctx.stage_dense hlen) hfold s.respq
  rw [focus_self hk] at hinit
  exact hinit

/-- Settles O44: the failed fold-in leaves the cleared view. -/
theorem initSaltedAtTheLengthLimit : Obligations.InitSaltedAtTheLengthLimit := by
  intro s c csel k h hf hc hk hr hfull hlim
  have hctx := h.ctxInv_of_getElem? hk
  have hinit := exec_init (addressed_of_getElem? hf hc hk) hr (fun _ => hfull)
    (initSalt_of_staged hctx.stage_dense (hctx.stage_full hfull)) (resetView_limit rfl hlim) s.respq
  rw [focus_self hk] at hinit
  exact hinit

/-! ### RESET (R164) -/

/-- `RESET` of a bound context in the list, as `ResetCtx` on its view. -/
theorem exec_reset_of_getElem? {s : State} {c : BitVec 8} {k : Context} (hf : s.fatal = false)
    (hc : c.toNat < s.params.nCtx) (hk : s.ctx[c.toNat]? = some k) (hb : k.bound = true) {v : View}
    (hv : resetView s k.view = .ok v) : exec (.reset c) s = .next (s.focus c { k with phase := .fresh, view := v }
      (s.respq ++ [refBeat 0#16 0x22#8 0x00#8])) := by
  have hreset := exec_reset (addressed_of_getElem? hf hc hk) hb hv s.respq
  rwa [focus_self hk] at hreset

/-- Settles O47: the three outcomes of `ResetCtx`. -/
theorem resetReconstructs : Obligations.ResetReconstructs := by
  intro s c k h hf hc hk hb
  have hview := (h.ctxInv_of_getElem? hk).bound_view hb
  refine ⟨fun hs => ?_, fun hs hlim => ?_, fun hs hlim => ?_⟩
  · exact exec_reset_of_getElem? hf hc hk hb (resetView_unsalted hs)
  · exact exec_reset_of_getElem? hf hc hk hb
      (resetView_salted h hview.salt_dense (hview.salt_length hs) hview.ready hs hlim)
  · exact exec_reset_of_getElem? hf hc hk hb (resetView_limit hs hlim)

/-- `k` with the salt in use staged again, if there is one. -/
def Context.restaged (p : Params) (k : Context) : Context :=
  if k.view.salted then { k with saltStage := k.view.salt, saltCnt := p.blockSize } else k

theorem restaged_view (p : Params) (k : Context) : (k.restaged p).view = k.view := by
  unfold Context.restaged
  split <;> rfl

theorem restaged_saltCnt {p : Params} {k : Context} (hs : k.view.salted = true) :
    (k.restaged p).saltCnt = p.blockSize := by
  rw [Context.restaged, if_pos hs]

/-- An INIT with the same option takes the salt in use back. -/
theorem initSalt_restaged {s : State} {k : Context} (hv : ViewInv s k.view) :
    initSalt s (k.restaged s.params) k.view.salted = .ok k.view.salt := by
  unfold Context.restaged
  cases hs : k.view.salted with
  | false => rfl
  | true => exact initSalt_of_staged hv.salt_dense (hv.salt_length hs)

/-- Settles O56: INIT takes the same salt back, so both commands run `ResetCtx` on the same view. -/
theorem resetEqualsFreshInit : Obligations.ResetEqualsFreshInit := by
  intro s c k h hf hc hk hb
  have ha := addressed_of_getElem? hf hc hk
  have hview := (h.ctxInv_of_getElem? hk).bound_view hb
  obtain ⟨v, hv⟩ := resetView_answers h hview.salt_dense hview.salt_length hview.ready
  have hreset := exec_reset_of_getElem? hf hc hk hb hv
  have hinit := exec_init ha hview.ready restaged_saltCnt (initSalt_restaged hview) (v := v)
    (by rw [restaged_view]; exact hv) s.respq
  refine ⟨_, _, hreset, hinit, ?_⟩
  rw [ctxAt_focus ha, ctxAt_focus ha]
  exact ⟨rfl, rfl, hb⟩

/-- Settles O58: one block of zeros XORed with the salt, and the salt as an unsalted block, give the compressor the same
input. -/
theorem saltFoldInEqualsSaltAsMessage : Obligations.SaltFoldInEqualsSaltAsMessage := by
  intro s v h hv hs hlim
  have hlen := hv.salt_length hs
  have hclear : ViewInv s (clearView s.params { v with salted := false }) :=
    viewInv_clear hv.salt_dense (fun hn => nomatch hn) hv.ready
  have hmessage := writePath_clearView_block h hclear ((List.length_map Prod.snd).trans hlen) hlim
  exact ⟨_, _, resetView_salted h hv.salt_dense hlen hv.ready hs hlim, hmessage, rfl, rfl, rfl, rfl⟩

/-! ### WRITE (R168 to R172) -/

theorem ViewInv.carryLen_lt {s : State} {v : View} (hp : 0 < s.params.blockSize) (hv : ViewInv s v) :
    v.carryLen < s.params.blockSize := by
  rw [hv.carry_mod]
  exact Nat.mod_lt _ hp

/-- Settles O49: the write path fails before it looks at the view. -/
theorem writeAtTheLengthLimitChangesNothing : Obligations.WriteAtTheLengthLimitChangesNothing := by
  intro s c cnt w k hf hc hk hb hn hlim
  have hwrite := exec_write_fail (w := w) (addressed_of_getElem? hf hc hk) hb hn
    (writePath_fail (by rwa [payloadBytes_length])) s.respq
  rw [focus_self hk, focus_queue hk] at hwrite
  exact hwrite

/-- Settles O48: the carry and up to 8 bytes hold at most one block. -/
theorem writeAppendsToTheStream : Obligations.WriteAppendsToTheStream := by
  intro s c cnt w k buf h hf hc hk hb hn hlim hbuf
  have hview := (h.ctxInv_of_getElem? hk).bound_view hb
  have hlim' : (k.view.totalLen.toNat + (payloadBytes cnt w).length) * 8 < lenLimitBits := by
    rwa [payloadBytes_length]
  have hpath := writePath_of_viewInv h hview hbuf hlim'
  have htotal := (writePath_total hpath).trans (congrArg _ (payloadBytes_length cnt w))
  have hwrite := exec_write (w := w) (addressed_of_getElem? hf hc hk) hb hn hpath s.respq
  rw [focus_self hk] at hwrite
  refine ⟨_, hwrite, htotal, rfl, rfl, rfl, ?_⟩
  dsimp only
  have hblock : 16 ≤ s.params.blockSize := h.buildable.2.2.1
  have hcarry := hview.carryLen_lt (by omega)
  have hlen : buf.length = k.view.carryLen + cnt.toNat := by
    rw [hbuf, List.length_append, List.length_map, hview.carry_length, payloadBytes_length]
  split
  · next hshort =>
    rw [Nat.div_eq_of_lt hshort, Nat.mod_eq_of_lt hshort, refChain, Nat.zero_mul, List.drop_zero]
    exact ⟨(Mem.dense_eq hview.chain_dense).symm, rfl, rfl⟩
  · next hfull =>
    have hdiv : buf.length / s.params.blockSize = 1 := Nat.div_eq_of_lt_le (by omega) (by omega)
    have hmod : buf.length % s.params.blockSize = buf.length - s.params.blockSize := by
      rw [Nat.mod_eq_sub_mod (by omega), Nat.mod_eq_of_lt (by omega)]
    rw [hdiv, hmod, Nat.one_mul]
    exact ⟨rfl, rfl, rfl⟩

/-! ### Writes one after the other (R168, R170) -/

/-- Below the limit the write path succeeds. -/
theorem writePath_succeeds {s : State} (h : Inv s) {v : View} (hv : ViewInv s v) {d : List Byte}
    (hlim : (v.totalLen.toNat + d.length) * 8 < lenLimitBits) : ∃ v', writePath s v d = .ok (some v') :=
  ⟨_, writePath_of_viewInv h hv rfl hlim⟩

/-- No bytes change nothing: the carry is less than a block. -/
theorem writePath_nil {s : State} (h : Inv s) {v : View} (hv : ViewInv s v) : writePath s v [] = .ok (some v) := by
  have hshort : (v.carry.map Prod.snd).length < s.params.blockSize := by
    rw [List.length_map, hv.carry_length]
    exact hv.carryLen_lt (blockSize_pos h.buildable)
  rw [writePath_of_viewInv h hv (List.append_nil _).symm (by simpa using hv.total_limit), Nat.div_eq_of_lt hshort,
    Nat.mod_eq_of_lt hshort, refChain, Nat.zero_mul, List.drop_zero, ← Mem.dense_eq hv.chain_dense,
    ← Mem.dense_eq hv.carry_dense, List.length_map, hv.carry_length, List.length_nil, BitVec.add_zero]

/-- After a write that succeeds, another one does what both do at once. -/
theorem writePath_trans {s : State} (h : Inv s) {v v1 : View} (hv : ViewInv s v) {d : List Byte}
    (h1 : writePath s v d = .ok (some v1)) (d' : List Byte) : writePath s v (d ++ d') = writePath s v1 d' := by
  have htotal := writePath_total h1
  by_cases hlim : (v.totalLen.toNat + (d.length + d'.length)) * 8 < lenLimitBits
  · obtain ⟨v1', v2, hd, hd', hboth⟩ := writePath_append h.buildable hv (answersSums_of_ready h hv.ready) hlim
    obtain rfl : v1' = v1 := by simpa using hd.symm.trans h1
    rw [hboth, hd']
  · rw [writePath_fail (by rw [List.length_append]; omega), writePath_fail (by omega)]

/-- A list that goes on hands its state to the list after it. -/
theorem execAll_append {is js : List Instr} {s t : State} (h : execAll is s = .next t) :
    execAll (is ++ js) s = execAll js t := by
  induction is generalizing s with
  | nil =>
    cases h
    rfl
  | cons i is ih =>
    rw [List.cons_append]
    cases hi : exec i s with
    | next u =>
      rw [execAll_cons_of_next hi] at h ⊢
      exact ih h
    | fault f => simp [execAll, hi] at h
    | refused r => simp [execAll, hi] at h

/-- A list of `WRITE` commands below the limit does to the view what their whole message does in one write. -/
theorem execAll_writesOf {s : State} {c : BitVec 8} (h : Inv s) (ha : Addressed s c) {ws : List (BitVec 4 × Word)}
    (hn : ∀ x ∈ ws, x.1.toNat ≤ 8) {k : Context} (hb : k.bound = true) (hv : ViewInv s k.view)
    (hlim : (k.view.totalLen.toNat + (messageOf ws).length) * 8 < lenLimitBits) (q : List Word) :
    ∃ (k' : Context) (q' : List Word), execAll (writesOf c ws) (s.focus c k q) = .next (s.focus c k' q')
      ∧ k'.bound = true ∧ writePath s k.view (messageOf ws) = .ok (some k'.view) := by
  induction ws generalizing k q with
  | nil => exact ⟨k, q, rfl, hb, writePath_nil h hv⟩
  | cons x ws ih =>
    obtain ⟨cnt, w⟩ := x
    obtain ⟨hcnt, hrest⟩ := List.forall_mem_cons.mp hn
    have hcons : messageOf ((cnt, w) :: ws) = payloadBytes cnt w ++ messageOf ws := rfl
    rw [hcons, List.length_append] at hlim
    obtain ⟨v1, hv1⟩ := writePath_succeeds h hv (d := payloadBytes cnt w) (by omega)
    have htotal := writePath_total hv1
    obtain ⟨k', q', hrun, hb', hview⟩ := ih hrest (k := { k with phase := .accumulating, view := v1 }) hb
      (viewInv_writePath h.buildable hv hv1) (by show (v1.totalLen.toNat + _) * 8 < _; omega) _
    refine ⟨k', q', (execAll_cons_of_next (exec_write ha hb hcnt hv1 q)).trans hrun, hb', ?_⟩
    rw [hcons, writePath_trans h hv hv1]
    exact hview

/-- Settles O53: both lists do what one write of the same message does. -/
theorem splitOfWritesDoesNotMatter : Obligations.SplitOfWritesDoesNotMatter := by
  intro s c k ws ws' h hf hc hk hb hn hn' hmsg hlim
  have ha := addressed_of_getElem? hf hc hk
  have hview := (h.ctxInv_of_getElem? hk).bound_view hb
  obtain ⟨k1, q1, hrun, -, hpath⟩ := execAll_writesOf h ha hn hb hview hlim s.respq
  obtain ⟨k2, q2, hrun', -, hpath'⟩ := execAll_writesOf h ha hn' hb hview (hmsg ▸ hlim) s.respq
  rw [focus_self hk] at hrun hrun'
  refine ⟨_, _, hrun, hrun', ?_⟩
  rw [ctxAt_focus ha, ctxAt_focus ha]
  rw [hmsg, hpath'] at hpath
  simpa using hpath.symm

/-! ### Padding (R181, R182) -/

/-- The zeros of `pad1` bring the length to `P` modulo `BS`. -/
theorem padZeros_mod {p : Params} (hb : p.Buildable) (t : Nat) :
    (t + 1 + padZeros p t) % p.blockSize = p.padTarget := by
  have hblock : 16 ≤ p.blockSize := hb.2.2.1
  have htarget : p.padTarget < p.blockSize := by unfold Params.padTarget; omega
  have hmod : (t + 1) % p.blockSize < p.blockSize := Nat.mod_lt _ (by omega)
  calc (t + 1 + padZeros p t) % p.blockSize
      = ((t + 1) % p.blockSize + (p.padTarget + p.blockSize - (t + 1) % p.blockSize)) % p.blockSize := by
        rw [padZeros, Nat.add_mod_mod, Nat.mod_add_mod]
    _ = (p.padTarget + p.blockSize) % p.blockSize := by congr 1; omega
    _ = p.padTarget := by rw [Nat.add_mod_right, Nat.mod_eq_of_lt htarget]

theorem padZeros_lt {p : Params} (hb : p.Buildable) (t : Nat) : padZeros p t < p.blockSize :=
  Nat.mod_lt _ (blockSize_pos hb)

/-- No other number of zeros below `BS` does. -/
theorem eq_padZeros {p : Params} (hb : p.Buildable) {t z : Nat} (hz : z < p.blockSize)
    (hmod : (t + 1 + z) % p.blockSize = p.padTarget) : z = padZeros p t :=
  (Nat.ModEq.add_left_cancel' (t + 1) (hmod.trans (padZeros_mod hb t).symm)).eq_of_lt_of_lt hz (padZeros_lt hb t)

/-- The padding ends a block. -/
theorem padded_mod {p : Params} (hb : p.Buildable) (t : Nat) :
    (t + (pad1 p t ++ padSuffix t).length) % p.blockSize = 0 := by
  have hblock : 16 ≤ p.blockSize := hb.2.2.1
  have hsum : p.padTarget + 16 = p.blockSize := Nat.sub_add_cancel hblock
  rw [List.length_append, pad1_length, padSuffix_length, ← Nat.add_assoc, ← Nat.add_assoc, ← Nat.mod_add_mod,
    padZeros_mod hb, hsum, Nat.mod_self]

/-- Settles O51: `pad1` is the byte 0x01 and fewer than `BS` zeros, the suffix is 16 bytes. -/
theorem paddingBounds : Obligations.PaddingBounds := by
  intro p t hb
  have hzeros := padZeros_lt hb t
  refine ⟨?_, ?_, ?_, ?_⟩
  · rw [pad1_length, ← Nat.add_assoc, padZeros_mod hb]
  · rw [Nat.add_assoc, ← List.length_append, padded_mod hb]
  · rw [pad1_length, padSuffix_length]
    omega
  · rw [pad1_length, padSuffix_length]
    omega

/-! ### FINAL (R180, R184) -/

/-- The two writes of the padding are one write of it all. -/
theorem padView_eq_writePath {s : State} (h : Inv s) {v : View} (hv : ViewInv s v) :
    padView s v = writePath s v (pad1 s.params v.totalLen.toNat ++ padSuffix v.totalLen.toNat) := by
  by_cases hlim : (v.totalLen.toNat + (pad1 s.params v.totalLen.toNat).length) * 8 < lenLimitBits
  · obtain ⟨v1, hv1⟩ := writePath_succeeds h hv hlim
    simp only [padView, hv1, writePath_trans h hv hv1]
    rfl
  · simp only [padView, writePath_fail (Nat.le_of_not_lt hlim)]
    rw [writePath_fail (by rw [List.length_append]; omega)]
    rfl

/-- FINAL answers the chain that the padding leaves: its last block is whole, so that `ERR_INTERNAL` is never raised. -/
theorem exec_final_of_writePath {s : State} {c : BitVec 8} {k : Context} (h : Inv s) (ha : Addressed s c)
    (hb : k.bound = true) (hv : ViewInv s k.view) {v : View}
    (hw : writePath s k.view (pad1 s.params k.view.totalLen.toNat ++ padSuffix k.view.totalLen.toNat) = .ok (some v))
    (q : List Word) :
    exec (.final c) (s.focus c k q) = .next (s.focus c k (q ++ refBeat (fieldOf 16 s.params.nRows) 0x24#8 0x00#8 ::
      wordsOfBytes s.params.nRows (v.chain.map Prod.snd))) := by
  have hv' := viewInv_writePath h.buildable hv hw
  have h0 : v.carryLen = 0 := by rw [hv'.carry_mod, writePath_total hw, padded_mod h.buildable]
  exact exec_final ha hb ((padView_eq_writePath h hv).trans hw) h0 hv'.chain_dense hv'.chain_length q

/-- Settles O50: `z` is `padZeros`, and the padding is one write. -/
theorem finalAnswersThePaddedChain : Obligations.FinalAnswersThePaddedChain := by
  intro s c k z tail h hf hc hk hb hz hmod htail
  have ha := addressed_of_getElem? hf hc hk
  have hview := (h.ctxInv_of_getElem? hk).bound_view hb
  obtain rfl := eq_padZeros h.buildable hz hmod
  have hlen : (pad1 s.params k.view.totalLen.toNat ++ padSuffix k.view.totalLen.toNat).length
      = 1 + padZeros s.params k.view.totalLen.toNat + 16 := by
    rw [List.length_append, pad1_length, padSuffix_length]
  refine ⟨fun hlim => ?_, fun hlim => ⟨fieldOf 16 s.params.nRows, fieldOf_toNat, ?_⟩⟩
  · have hfail := (padView_eq_writePath h hview).trans (writePath_fail (by omega))
    have hfinal := exec_final_fail ha hb hfail s.respq
    rw [focus_self hk, focus_queue hk] at hfinal
    exact hfinal
  · have htail' : tail = k.view.carry.map Prod.snd
        ++ (pad1 s.params k.view.totalLen.toNat ++ padSuffix k.view.totalLen.toNat) := by
      simp only [htail, pad1, padSuffix, List.append_assoc]
    have hfinal := exec_final_of_writePath h ha hb hview (writePath_of_viewInv h hview htail' (by omega)) s.respq
    rw [focus_self hk, focus_queue hk, Mem.ofList_values] at hfinal
    exact hfinal

/-- FINAL of a bound context adds the same beats to every queue, and changes nothing else. -/
theorem exec_final_answers {s : State} {c : BitVec 8} {k : Context} (h : Inv s) (ha : Addressed s c)
    (hb : k.bound = true) (hv : ViewInv s k.view) :
    ∃ r : List Word, ∀ q, exec (.final c) (s.focus c k q) = .next (s.focus c k (q ++ r)) := by
  obtain ⟨r, hpad⟩ := writePath_answers h hv (pad1 s.params k.view.totalLen.toNat ++ padSuffix k.view.totalLen.toNat)
  cases r with
  | none => exact ⟨_, exec_final_fail ha hb ((padView_eq_writePath h hv).trans hpad)⟩
  | some v => exact ⟨_, exec_final_of_writePath h ha hb hv hpad⟩

/-- WRITE to a bound context adds the same beat to every queue, and leaves the context bound. -/
theorem exec_write_answers {s : State} {c : BitVec 8} {k : Context} (h : Inv s) (ha : Addressed s c)
    (hb : k.bound = true) (hv : ViewInv s k.view) {cnt : BitVec 4} (hn : cnt.toNat ≤ 8) (w : Word) :
    ∃ (k' : Context) (x : Word), k'.bound = true ∧ ViewInv s k'.view
      ∧ ∀ q, exec (.write c cnt w) (s.focus c k q) = .next (s.focus c k' (q ++ [x])) := by
  obtain ⟨r, hpath⟩ := writePath_answers h hv (payloadBytes cnt w)
  cases r with
  | none => exact ⟨k, _, hb, hv, exec_write_fail ha hb hn hpath⟩
  | some v =>
    exact ⟨{ k with phase := .accumulating, view := v }, _, hb, viewInv_writePath h.buildable hv hpath,
      exec_write ha hb hn hpath⟩

/-- Settles O55: each command's beats and its effect on the context are the same whatever `RESPQ` holds. -/
theorem finalIsNonDestructive : Obligations.FinalIsNonDestructive := by
  intro s c k cnt w h hf hc hk hb hn
  have ha := addressed_of_getElem? hf hc hk
  have hview := (h.ctxInv_of_getElem? hk).bound_view hb
  obtain ⟨r0, hfinal⟩ := exec_final_answers h ha hb hview
  obtain ⟨k', x, hb', hview', hwrite⟩ := exec_write_answers h ha hb hview hn w
  obtain ⟨r, hlast⟩ := exec_final_answers h ha hb' hview'
  have hwriteFinal : ∀ q, execAll [.write c cnt w, .final c] (s.focus c k q) = .next (s.focus c k' (q ++ [x] ++ r)) :=
    fun q => (execAll_cons_of_next (hwrite q)).trans (execAll_cons_of_next (hlast _))
  rw [← focus_self hk]
  exact ⟨_, _, _, _, r0, r, x, hfinal _, rfl, hfinal _, rfl, hwriteFinal _, rfl,
    (execAll_cons_of_next (hfinal _)).trans (hwriteFinal _), rfl⟩

/-! ### The digest of a message (R163 to R181) -/

/-- `ResetCtx` is one write to the cleared view: of a block of zeros if it is salted, else of nothing. -/
theorem resetView_of_foldIn {s : State} (h : Inv s) {v v' : View} (hclear : ViewInv s (clearView s.params v))
    (hw : writePath s (clearView s.params v) (if v.salted then zeros s.params.blockSize else []) = .ok (some v')) :
    resetView s v = .ok v' := by
  cases hs : v.salted with
  | false =>
    rw [hs, if_neg (by simp), writePath_nil h hclear] at hw
    rw [resetView_unsalted hs]
    simpa using hw
  | true =>
    rw [hs, if_pos rfl] at hw
    exact resetView_of_writePath hs hw

/-- The chain of a stream written to a cleared view. -/
theorem chain_of_writePath_clearView {s : State} (h : Inv s) {v v' : View} (hclear : ViewInv s (clearView s.params v))
    {m : List Byte} (hw : writePath s (clearView s.params v) m = .ok (some v')) :
    v'.chain.map Prod.snd = refChain (matrixOf s) s.params.nRows s.params.blockSize (saltOf v)
      (m.length / s.params.blockSize) (zeros s.params.outputLen) m := by
  obtain ⟨hlim, -⟩ := writePath_inv hw
  have hclosed := hw.symm.trans (writePath_of_viewInv h hclear (buf := m) rfl hlim)
  simp only [Except.ok.injEq, Option.some.injEq] at hclosed
  rw [hclosed, Mem.ofList_values, saltOf_clearView, clearView_chain, Mem.ofList_values]

/-- INIT below the length limit starts the stream on the cleared view: with a block of zeros if it is salted. -/
theorem exec_init_stream {s : State} {c : BitVec 8} {k : Context} (h : Inv s) (ha : Addressed s c) (hk : CtxInv s k)
    {csel : Compressor} {salted : Bool} (hr : compressorReady s csel = true)
    (hfull : salted = true → k.saltCnt = s.params.blockSize)
    (hlim : (if salted then zeros s.params.blockSize else []).length * 8 < lenLimitBits) (q : List Word) :
    ∃ (v0 : View) (k1 : Context) (q1 : List Word), ViewInv s (clearView s.params v0)
      ∧ saltOf v0 = (if salted then some (k.saltStage.map Prod.snd) else none) ∧ k1.bound = true
      ∧ writePath s (clearView s.params v0) (if salted then zeros s.params.blockSize else []) = .ok (some k1.view)
      ∧ exec (.init c csel salted) (s.focus c k q) = .next (s.focus c k1 q1) := by
  obtain ⟨salt, hsalt⟩ := initSalt_answers hk hfull
  obtain ⟨hdense, hlen⟩ := hk.initSalt_full hsalt
  have hclear : ViewInv s (clearView s.params { k.view with salt := salt, csel := csel, salted := salted }) :=
    viewInv_clear hdense hlen hr
  obtain ⟨v1, hv1⟩ := writePath_succeeds h hclear (d := if salted then zeros s.params.blockSize else [])
    (by simpa using hlim)
  refine ⟨_, { k with saltCnt := 0, bound := true, phase := .fresh, view := v1 }, _, hclear, ?_, rfl, hv1,
    exec_init ha hr hfull hsalt (resetView_of_foldIn h hclear hv1) q⟩
  cases salted with
  | false => rfl
  | true =>
    rw [initSalt_of_staged hk.stage_dense (hk.stage_full (hfull rfl))] at hsalt
    cases hsalt
    rfl

/-- FINAL below the length limit answers the digest of the stream the view has taken since it was cleared. -/
theorem exec_final_digest {s : State} {c : BitVec 8} {k : Context} (h : Inv s) (ha : Addressed s c)
    (hb : k.bound = true) {v0 : View} (hclear : ViewInv s (clearView s.params v0)) {m : List Byte}
    (hstream : writePath s (clearView s.params v0) m = .ok (some k.view))
    (hlim : (m.length + (pad1 s.params m.length ++ padSuffix m.length).length) * 8 < lenLimitBits) (q : List Word) :
    exec (.final c) (s.focus c k q) = .next (s.focus c k (q ++ refBeat (fieldOf 16 s.params.nRows) 0x24#8 0x00#8 ::
      refDigest (matrixOf s) s.params (saltOf v0) m)) := by
  have hview := viewInv_writePath h.buildable hclear hstream
  have htotal : k.view.totalLen.toNat = m.length := (writePath_total hstream).trans (Nat.zero_add _)
  rw [← htotal] at hlim
  obtain ⟨v, hw⟩ := writePath_succeeds h hview hlim
  have hchain := chain_of_writePath_clearView h hclear ((writePath_trans h hclear hstream _).trans hw)
  rw [exec_final_of_writePath h ha hb hview hw, hchain, refDigest, htotal, ← List.append_assoc]

/-- Settles O54: the fold-in and the writes are one write of the stream to the cleared view. -/
theorem digestIsThePaddedChainHash : Obligations.DigestIsThePaddedChainHash := by
  intro s c k csel salted ws m h hf hc hk hr hfull hn hm hlim
  have ha := addressed_of_getElem? hf hc hk
  have hpad : (m.length + (pad1 s.params m.length ++ padSuffix m.length).length) * 8 < lenLimitBits := by
    rwa [List.length_append, padSuffix_length, Nat.mul_comm, ← Nat.add_assoc]
  have hstreamLim : m.length * 8 < lenLimitBits :=
    lt_of_le_of_lt (Nat.mul_le_mul_right 8 (Nat.le_add_right _ _)) hpad
  have hlen := congrArg List.length hm
  rw [List.length_append] at hlen
  obtain ⟨v0, k1, q1, hclear, hsalt, hb1, hw1, hinit⟩ :=
    exec_init_stream h ha (h.ctxInv_of_getElem? hk) hr hfull (by omega) s.respq
  have htotal := (writePath_total hw1).trans (Nat.zero_add _)
  obtain ⟨k2, q2, hwrites, hb2, hw2⟩ :=
    execAll_writesOf h ha hn hb1 (viewInv_writePath h.buildable hclear hw1) (by omega) q1
  have hstream : writePath s (clearView s.params v0) m = .ok (some k2.view) := by
    rw [hm, writePath_trans h hclear hw1, hw2]
  have hfinal := exec_final_digest h ha hb2 hclear hstream hpad q2
  rw [focus_self hk] at hinit
  rw [hsalt] at hfinal
  have hrun : execAll (.init c csel salted :: (writesOf c ws ++ [.final c])) s = .next _ :=
    (execAll_cons_of_next hinit).trans ((execAll_append hwrites).trans (execAll_cons_of_next hfinal))
  exact ⟨_, fieldOf 16 s.params.nRows, q2, hrun, fieldOf_toNat, rfl⟩

/-! ### The empty message on Sumhash512 (R183) -/

/-- The words of a chain are read back. -/
theorem wordsOfBytes_bytesOfWords (ws : List Word) : wordsOfBytes ws.length (bytesOfWords ws) = ws := by
  induction ws with
  | nil => rfl
  | cons w ws ih =>
    have hcons : bytesOfWords (w :: ws) = le64 w ++ bytesOfWords ws := rfl
    rw [List.length_cons, wordsOfBytes, hcons, List.take_left' (le64_length w), List.drop_left' (le64_length w), ih,
      w64_le64]

/-- The empty message is padded to one block, the byte 0x01 and zeros: bit 0 of byte 64 of the compressor's input. -/
theorem refDigest_empty (A : Nat → Nat → Word) {p : Params} (hrows : p.nRows = 8) (hcols : p.mCols = 1024) :
    refDigest A p none [] = (List.range 8).map fun i => A i 512 := by
  have hout : p.outputLen = 64 := by rw [Params.outputLen, hrows]
  have hblock : p.blockSize = 64 := by rw [Params.blockSize, Params.inputLen, hcols, hout]
  have hzeros : padZeros p 0 = 47 := by rw [padZeros, Params.padTarget, hblock]
  have hpadded : [] ++ pad1 p 0 ++ padSuffix 0 = 0x01#8 :: zeros 63 := by
    rw [pad1, hzeros]
    rfl
  have hinput : zeros 64 ++ (0x01#8 :: zeros 63) = (zeros 128).set 64 (1#8 <<< 0) := rfl
  have hchain : refChain A 8 64 none 1 (zeros 64) (0x01#8 :: zeros 63)
      = bytesOfWords (refCompress A 8 (zeros 64 ++ (0x01#8 :: zeros 63))) := rfl
  have hwords := wordsOfBytes_bytesOfWords ((List.range 8).map fun i => A i 512)
  rw [List.length_map, List.length_range] at hwords
  rw [refDigest, List.length_nil, hpadded, hrows, hblock, hout, List.length_cons, zeros_length,
    Nat.div_self (by decide), hchain, hinput, refCompress_single A 8 (by decide) (by decide), hwords]

/-- Settles O59: the digest of the empty message, as a padded chain of one block. -/
theorem emptyDigestOfSumhash512 : Obligations.EmptyDigestOfSumhash512 := by
  intro s c csel h hf hrows hcols hc hr
  have hlisted : c.toNat < s.ctx.length := h.ctx_length ▸ hc
  have hzeros : padZeros s.params 0 < 64 := by
    simpa [Params.blockSize, Params.inputLen, Params.outputLen, hrows, hcols] using padZeros_lt h.buildable 0
  obtain ⟨t, nd, q, hrun, hnd, hrespq⟩ := digestIsThePaddedChainHash s c _ csel false [] [] h hf hc
    (List.getElem?_eq_getElem hlisted) hr (by simp) (by simp) rfl
    (by rw [List.length_nil, pad1_length, lenLimitBits]; omega)
  have hnd8 : nd = 8#16 := BitVec.eq_of_toNat_eq ((hnd (by rw [hrows]; decide)).trans hrows)
  refine ⟨t, q, hrun, ?_⟩
  rw [hrespq, hnd8, if_neg (by simp), refDigest_empty _ hrows hcols]

/-! ### The compressor of a view (R166, R186) -/

/-- The two compressors answer alike on every input of `IL` bytes, which is what a chain and a block make. -/
structure CompressorsAgree (s : State) : Prop where
  same : ∀ (csel csel' : Compressor) (x : List Byte), x.length = s.params.inputLen →
    compress s csel x = compress s csel' x
  sizes : s.params.outputLen + s.params.blockSize = s.params.inputLen

/-- Over a derived table they do (41_lookup_table.md R143). -/
theorem compressorsAgree {s : State} (h : Inv s) (ht : s.tableValid = true) : CompressorsAgree s where
  same csel csel' x hx := by
    have hready : ∀ csel, compressorReady s csel = true := fun csel => by
      cases csel with
      | matrix => exact h.table_matrix ht
      | table => exact ht
    rw [answersSums_of_ready h (hready csel) x hx, answersSums_of_ready h (hready csel') x hx]
  sizes := by
    have hblock := h.buildable.2.2.1
    unfold Params.blockSize at *
    omega

/-- The view with another compressor, if one is given. -/
def View.reselect (o : Option Compressor) (v : View) : View := { v with csel := o.getD v.csel }

/-- The context with another compressor, if one is given. -/
def Context.reselect (o : Option Compressor) (k : Context) : Context := { k with view := k.view.reselect o }

section
variable {s : State} (ha : CompressorsAgree s) (o : Option Compressor)
include ha

/-- A block is compressed alike, whichever compressor the view names. -/
theorem block_reselect (v : View) {blk : List Byte} (hb : blk.length = s.params.blockSize) :
    block s (v.reselect o) blk = View.reselect o <$> block s v blk := by
  have hsalt : saltBlock s (v.reselect o) blk = saltBlock s v blk := rfl
  have hchain : (v.reselect o).chain = v.chain := rfl
  simp only [block, hsalt, hchain]
  cases hm : saltBlock s v blk with
  | error f => rfl
  | ok m =>
    cases hc : v.chain.readRange .chain 0 s.params.outputLen with
    | error f => rfl
    | ok chain =>
      have hmlen : m.length = s.params.blockSize := by
        unfold saltBlock at hm
        split at hm
        · obtain ⟨salt, hread, hm⟩ := bind_ok hm
          rw [pure_ok hm, xorBytes, List.length_zipWith, Mem.readRange_length hread, hb, Nat.min_self]
        · cases hm
          exact hb
      have hinput : (chain ++ m).length = s.params.inputLen := by
        rw [List.length_append, Mem.readRange_length hc, hmlen, ha.sizes]
      show (compress s (v.reselect o).csel (chain ++ m) >>= _) = _ <$> (compress s v.csel (chain ++ m) >>= _)
      rw [ha.same (v.reselect o).csel v.csel _ hinput]
      cases compress s v.csel (chain ++ m) <;> rfl

theorem absorb_reselect (n : Nat) : ∀ (v : View) (buf : List Byte),
    absorb s n (v.reselect o) buf = (fun r => (r.1.reselect o, r.2)) <$> absorb s n v buf := by
  induction n with
  | zero => intro v buf; rfl
  | succ n ih =>
    intro v buf
    simp only [absorb]
    split
    · next hl =>
      rw [block_reselect ha o v (List.length_take_of_le hl)]
      cases block s v (buf.take s.params.blockSize) with
      | error f => rfl
      | ok v' => exact ih v' _
    · rfl

theorem writePath_reselect (v : View) (d : List Byte) :
    writePath s (v.reselect o) d = Option.map (View.reselect o) <$> writePath s v d := by
  have hlim : lengthExceeded (v.reselect o) d.length = lengthExceeded v d.length := rfl
  have hcarry : (v.reselect o).carry.readRange .carry 0 (v.reselect o).carryLen
      = v.carry.readRange .carry 0 v.carryLen := rfl
  have hcounted : ({ v.reselect o with totalLen := (v.reselect o).totalLen + BitVec.ofNat 64 d.length } : View)
      = View.reselect o { v with totalLen := v.totalLen + BitVec.ofNat 64 d.length } := rfl
  simp only [writePath, hlim, hcarry, hcounted, absorb_reselect ha]
  split
  · rfl
  · cases v.carry.readRange .carry 0 v.carryLen with
    | error f => rfl
    | ok carry =>
      dsimp only [bind, Except.bind]
      cases absorb s (carry ++ d).length { v with totalLen := v.totalLen + BitVec.ofNat 64 d.length } (carry ++ d)
      · rfl
      · rfl

theorem resetView_reselect (v : View) : resetView s (v.reselect o) = View.reselect o <$> resetView s v := by
  have hclear : clearView s.params (v.reselect o) = (clearView s.params v).reselect o := rfl
  have hsalted : (v.reselect o).salted = v.salted := rfl
  simp only [resetView, hclear, hsalted]
  split
  · rw [writePath_reselect ha]
    cases writePath s (clearView s.params v) (zeros s.params.blockSize) with
    | error f => rfl
    | ok r => cases r <;> rfl
  · rfl

theorem padView_reselect (v : View) : padView s (v.reselect o) = Option.map (View.reselect o) <$> padView s v := by
  have htotal : (v.reselect o).totalLen = v.totalLen := rfl
  simp only [padView, htotal, writePath_reselect ha]
  cases writePath s v (pad1 s.params v.totalLen.toNat) with
  | error f => rfl
  | ok r =>
    cases r with
    | none => rfl
    | some v1 => exact writePath_reselect ha o v1 _

end

/-! ### Replacing the compressor of one context -/

/-- What a command that names context `d` sees of replacing the compressor of context `c` by `x`. -/
def cselFor (c : BitVec 8) (x : Compressor) (d : BitVec 8) : Option Compressor := if d = c then some x else none

theorem cselFor_same (c : BitVec 8) (x : Compressor) : cselFor c x c = some x := if_pos rfl

theorem cselFor_other {c d : BitVec 8} (x : Compressor) (h : d ≠ c) : cselFor c x d = none := if_neg h

section
variable {s : State} {c : BitVec 8} (hc : c.toNat < s.ctx.length) (x : Compressor)

theorem withCsel_respond (s : State) (c : BitVec 8) (x : Compressor) (opc : Byte) (st : Status) (data : List Word) :
    withCsel (respond opc st data s) c x = respond opc st data (withCsel s c x) := rfl

theorem withCsel_raise (s : State) (c : BitVec 8) (x : Compressor) (opc : Byte) (st : Status) :
    withCsel (raise opc st s) c x = raise opc st (withCsel s c x) := by
  cases hf : s.fatal with
  | false =>
    rw [raise, raise, hf, show (withCsel s c x).fatal = false from hf]
    rfl
  | true =>
    rw [raise, raise, hf, show (withCsel s c x).fatal = true from hf]
    rfl

include hc

theorem ctxAt_withCsel (d : BitVec 8) : ctxAt (withCsel s c x) d = (ctxAt s d).reselect (cselFor c x d) := by
  by_cases hd : d = c
  · subst hd
    rw [cselFor_same, withCsel, ctxAt_setCtx_same s d _ hc]
    rfl
  · rw [cselFor_other x hd, withCsel, ctxAt_setCtx_other s c _ hd]
    rfl

theorem withCsel_setCtx (d : BitVec 8) (k : Context) :
    withCsel (setCtx s d k) c x = setCtx (withCsel s c x) d (k.reselect (cselFor c x d)) := by
  by_cases hd : d = c
  · subst hd
    rw [cselFor_same, withCsel, ctxAt_setCtx_same s d k hc]
    simp only [withCsel, setCtx, List.set_set]
    rfl
  · have hne : c.toNat ≠ d.toNat := fun heq => hd (BitVec.eq_of_toNat_eq heq.symm)
    rw [cselFor_other x hd, withCsel, ctxAt_setCtx_other s d k (Ne.symm hd)]
    simp only [withCsel, setCtx, List.set_comm _ _ hne]
    rfl

theorem withCsel_withCsel (y : Compressor) : withCsel (withCsel s c x) c y = withCsel s c y := by
  rw [withCsel, ctxAt_withCsel hc, cselFor_same]
  simp only [withCsel, setCtx, List.set_set]
  rfl

end

/-! ### Every command but STAT and INIT of the context commutes with the replacement (R186) -/

/-- The outcome with its next state, if it is one, changed by `f`. -/
def mapNext (f : State → State) : Res → Res
  | .next t => .next (f t)
  | .fault r => .fault r
  | .refused r => .refused r

theorem exists_of_mapNext {f : State → State} {r : Res} {u : State} (h : mapNext f r = .next u) :
    ∃ t, r = .next t ∧ f t = u := by
  cases r with
  | next t => exact ⟨t, rfl, by simpa [mapNext] using h⟩
  | fault e => cases h
  | refused e => cases h

/-- The checks of R100 look at no context. -/
theorem mapNext_fieldChecked (op : Opcode) (d : Option (BitVec 8)) (cnt : Option (BitVec 4)) (s : State) (body : Res)
    (c : BitVec 8) (x : Compressor) :
    mapNext (withCsel · c x) (fieldChecked op d cnt s body)
      = fieldChecked op d cnt (withCsel s c x) (mapNext (withCsel · c x) body) := by
  unfold fieldChecked
  have hfatal : (withCsel s c x).fatal = s.fatal := rfl
  have hparams : (withCsel s c x).params = s.params := rfl
  rw [hfatal, hparams]
  split
  · rfl
  · split
    · exact congrArg Host.Outcome.next (withCsel_raise s c x _ _)
    · split
      · exact congrArg Host.Outcome.next (withCsel_raise s c x _ _)
      · rfl

/-- A body that commutes makes a command that does. -/
theorem fieldChecked_withCsel {op : Opcode} {d : Option (BitVec 8)} {cnt : Option (BitVec 4)} {s : State}
    {c : BitVec 8} {x : Compressor} {body body' : Res} (h : body' = mapNext (withCsel · c x) body) :
    fieldChecked op d cnt (withCsel s c x) body' = mapNext (withCsel · c x) (fieldChecked op d cnt s body) := by
  rw [mapNext_fieldChecked, h]

/-- So does a body that a violation may come before. -/
theorem violateIf_withCsel {p : Prop} [Decidable p] {op : Opcode} {st : Status} {s : State} {c : BitVec 8}
    {x : Compressor} {body body' : Res} (h : body' = mapNext (withCsel · c x) body) :
    (if p then violate op st (withCsel s c x) else body')
      = mapNext (withCsel · c x) (if p then violate op st s else body) := by
  split
  · exact congrArg Host.Outcome.next (withCsel_raise s c x _ _).symm
  · exact h

/-- Readiness looks at no context. -/
theorem compressorReady_withCsel (s : State) (c : BitVec 8) (x csel : Compressor) :
    compressorReady (withCsel s c x) csel = compressorReady s csel := by cases csel <;> rfl

theorem writePath_withCsel (s : State) (c : BitVec 8) (x : Compressor) (v : View) (d : List Byte) :
    writePath (withCsel s c x) v d = writePath s v d :=
  writePath_congr (s := withCsel s c x) (s' := s) rfl rfl rfl v d

theorem resetView_withCsel (s : State) (c : BitVec 8) (x : Compressor) (v : View) :
    resetView (withCsel s c x) v = resetView s v :=
  resetView_congr (s := withCsel s c x) (s' := s) rfl rfl rfl v

theorem padView_withCsel (s : State) (c : BitVec 8) (x : Compressor) (v : View) :
    padView (withCsel s c x) v = padView s v :=
  padView_congr (s := withCsel s c x) (s' := s) rfl rfl rfl v

theorem initSalt_reselect (s : State) (c : BitVec 8) (x : Compressor) (o : Option Compressor) (k : Context)
    (salted : Bool) : initSalt (withCsel s c x) (k.reselect o) salted = initSalt s k salted := by cases salted <;> rfl

section
variable {s : State} {c : BitVec 8} (hc : c.toNat < s.ctx.length) (x : Compressor)
include hc

/-- The completion of a command that has replaced the context it names. -/
theorem complete_setCtx_withCsel (op : Opcode) (d : BitVec 8) (k : Context) :
    complete op [] (setCtx (withCsel s c x) d (k.reselect (cselFor c x d)))
      = mapNext (withCsel · c x) (complete op [] (setCtx s d k)) :=
  congrArg (fun t => Host.Outcome.next (respond op.byte .ok [] t)) (withCsel_setCtx hc x d k).symm

theorem exec_sload_withCsel (d : BitVec 8) (cnt : BitVec 4) (w : Word) :
    exec (.sload d cnt w) (withCsel s c x) = mapNext (withCsel · c x) (exec (.sload d cnt w) s) := by
  refine fieldChecked_withCsel ?_
  dsimp only
  rw [ctxAt_withCsel hc]
  exact violateIf_withCsel (complete_setCtx_withCsel hc x .sload d { ctxAt s d with
    saltStage := (ctxAt s d).saltStage.writeRange (ctxAt s d).saltCnt (payloadBytes cnt w),
    saltCnt := (ctxAt s d).saltCnt + cnt.toNat })

/-- INIT of another context. -/
theorem exec_init_withCsel_other {d : BitVec 8} (hd : d ≠ c) (csel : Compressor) (salted : Bool) :
    exec (.init d csel salted) (withCsel s c x) = mapNext (withCsel · c x) (exec (.init d csel salted) s) := by
  refine fieldChecked_withCsel ?_
  have hctx : ctxAt (withCsel s c x) d = ctxAt s d := by
    rw [ctxAt_withCsel hc, cselFor_other x hd]
    rfl
  have hsalt : initSalt (withCsel s c x) (ctxAt s d) salted = initSalt s (ctxAt s d) salted :=
    initSalt_reselect s c x none (ctxAt s d) salted
  dsimp only
  rw [hctx, compressorReady_withCsel]
  refine violateIf_withCsel (violateIf_withCsel ?_)
  simp only [hsalt, resetView_withCsel]
  cases initSalt s (ctxAt s d) salted with
  | error f => rfl
  | ok salt =>
    dsimp only [bind, Except.bind]
    cases resetView s { (ctxAt s d).view with salt := salt, csel := csel, salted := salted } with
    | error f => rfl
    | ok v =>
      have hdone := complete_setCtx_withCsel hc x .init d
        { ctxAt s d with saltCnt := 0, bound := true, phase := .fresh, view := v }
      rw [cselFor_other x hd] at hdone
      exact hdone

/-- INIT of the context itself sets `CSEL` anew (R163): the compressor it had shows in nothing else. -/
theorem exec_init_withCsel_same (y csel : Compressor) (salted : Bool) :
    mapNext (withCsel · c y) (exec (.init c csel salted) (withCsel s c x))
      = mapNext (withCsel · c y) (exec (.init c csel salted) s) := by
  refine (mapNext_fieldChecked _ _ _ _ _ c y).trans (Eq.trans ?_ (mapNext_fieldChecked _ _ _ _ _ c y).symm)
  rw [withCsel_withCsel hc]
  refine congrArg (fieldChecked _ _ _ _) ?_
  dsimp only
  rw [ctxAt_withCsel hc, compressorReady_withCsel]
  refine (violateIf_withCsel (violateIf_withCsel rfl)).symm.trans
    (Eq.trans ?_ (violateIf_withCsel (violateIf_withCsel rfl)))
  rw [withCsel_withCsel hc]
  refine congrArg (ite _ _) (congrArg (ite _ _) ?_)
  simp only [initSalt_reselect, resetView_withCsel]
  cases initSalt s (ctxAt s c) salted with
  | error f => rfl
  | ok salt =>
    dsimp only [bind, Except.bind, Context.reselect, View.reselect]
    cases resetView s { (ctxAt s c).view with salt := salt, csel := csel, salted := salted } with
    | error f => rfl
    | ok v =>
      have hset : ∀ k, setCtx (withCsel s c x) c k = setCtx s c k := fun k => by
        simp only [withCsel, setCtx, List.set_set]
      exact congrArg (fun t => Host.Outcome.next (withCsel (respond _ _ _ t) c y)) (hset _)

variable (ha : CompressorsAgree s)
include ha

theorem exec_reset_withCsel (d : BitVec 8) :
    exec (.reset d) (withCsel s c x) = mapNext (withCsel · c x) (exec (.reset d) s) := by
  refine fieldChecked_withCsel ?_
  dsimp only
  rw [ctxAt_withCsel hc, resetView_withCsel]
  refine violateIf_withCsel ?_
  simp only [Context.reselect, resetView_reselect ha]
  cases resetView s (ctxAt s d).view with
  | error f => rfl
  | ok v => exact complete_setCtx_withCsel hc x .reset d { ctxAt s d with phase := .fresh, view := v }

theorem exec_write_withCsel (d : BitVec 8) (cnt : BitVec 4) (w : Word) :
    exec (.write d cnt w) (withCsel s c x) = mapNext (withCsel · c x) (exec (.write d cnt w) s) := by
  refine fieldChecked_withCsel ?_
  dsimp only
  rw [ctxAt_withCsel hc, writePath_withCsel]
  refine violateIf_withCsel ?_
  simp only [Context.reselect, writePath_reselect ha]
  cases writePath s (ctxAt s d).view (payloadBytes cnt w) with
  | error f => rfl
  | ok r =>
    cases r with
    | none => rfl
    | some v => exact complete_setCtx_withCsel hc x .write d { ctxAt s d with phase := .accumulating, view := v }

theorem exec_final_withCsel (d : BitVec 8) :
    exec (.final d) (withCsel s c x) = mapNext (withCsel · c x) (exec (.final d) s) := by
  refine fieldChecked_withCsel ?_
  dsimp only
  rw [ctxAt_withCsel hc, padView_withCsel]
  refine violateIf_withCsel ?_
  simp only [Context.reselect, padView_reselect ha]
  cases padView s (ctxAt s d).view with
  | error f => rfl
  | ok r =>
    cases r with
    | none => rfl
    | some v =>
      show settle (if v.carryLen ≠ 0 then _ else v.chain.readRange .chain 0 s.params.outputLen >>= _)
        = mapNext _ (settle (if v.carryLen ≠ 0 then _ else _))
      split
      · exact congrArg Host.Outcome.next (withCsel_raise s c x _ _).symm
      · cases v.chain.readRange .chain 0 s.params.outputLen <;> rfl

/-- R186 at the level of one command. -/
theorem exec_withCsel {i : Instr} (hstat : i ≠ .stat c) (hinit : ∀ csel salted, i ≠ .init c csel salted) :
    exec i (withCsel s c x) = mapNext (withCsel · c x) (exec i s) := by
  cases i with
  | nop | info => exact fieldChecked_withCsel rfl
  | mload | cload => exact fieldChecked_withCsel (violateIf_withCsel rfl)
  | stat d =>
    have hd : d ≠ c := fun heq => hstat (congrArg _ heq)
    refine fieldChecked_withCsel ?_
    rw [ctxAt_withCsel hc, cselFor_other x hd]
    rfl
  | tderive =>
    refine fieldChecked_withCsel (violateIf_withCsel ?_)
    show settle (deriveTable s.params s.a >>= _) = _
    cases deriveTable s.params s.a <;> rfl
  | sload d cnt w => exact exec_sload_withCsel hc x d cnt w
  | init d csel salted =>
    exact exec_init_withCsel_other hc x (fun heq => hinit csel salted (heq ▸ rfl)) csel salted
  | reset d => exact exec_reset_withCsel hc x ha d
  | write d cnt w => exact exec_write_withCsel hc x ha d cnt w
  | final d => exact exec_final_withCsel hc x ha d
  | crun csel =>
    refine fieldChecked_withCsel ?_
    rw [compressorReady_withCsel]
    refine violateIf_withCsel (violateIf_withCsel ?_)
    show settle (s.src.readRange .src 0 s.params.inputLen >>= _) = _
    cases s.src.readRange .src 0 s.params.inputLen with
    | error f => rfl
    | ok src =>
      have hsame : compress (withCsel s c x) csel src = compress s csel src :=
        compress_congr (s := withCsel s c x) (s' := s) rfl rfl rfl csel src
      dsimp only [bind, Except.bind]
      rw [hsame]
      cases compress s csel src <;> rfl

end

/-! ### STAT of the context (R205) -/

/-- A flag stands at its own bit alone. -/
theorem getLsbD_flagAt_other {k n : Nat} (b : Bool) (h : n ≠ k) : (flagAt k b).getLsbD n = false := by
  simp only [flagAt, BitVec.getLsbD_shiftLeft, BitVec.getLsbD_setWidth]
  by_cases hlow : n < k
  · simp [hlow]
  · rw [BitVec.getLsbD_of_ge (BitVec.ofBool b) (n - k) (by omega)]
    simp

/-- `S0` shows the compressor at bit 4 and nothing else of it. -/
theorem getLsbD_statWord0_reselect (s : State) (k : Context) (o : Option Compressor) {n : Nat} (hn : n ≠ 4) :
    (statWord0 s (k.reselect o)).getLsbD n = (statWord0 s k).getLsbD n := by
  simp only [statWord0, BitVec.getLsbD_or, getLsbD_flagAt_other _ hn]
  rfl

/-- STAT of a context that exists, in every state. -/
theorem exec_stat {s : State} {c : BitVec 8} (hc : c.toNat < s.params.nCtx) :
    exec (.stat c) s = .next (answered s 4#16 0x02#8 0x00#8 (statWords s (ctxAt s c))) := by
  have hanswer := exec_completed (i := .stat c) (s := s) (.inr rfl) (decide_eq_true hc) ⟨rfl, rfl⟩
  rw [hanswer, respond_eq_answered]
  rfl

/-- Settles O57: the replacement commutes with every other command, INIT of the context forgets it, and STAT shows it at
bit 4. -/
theorem compressorChoiceIsInvisible : Obligations.CompressorChoiceIsInvisible := by
  intro s c h ht hc
  have hlisted : c.toNat < s.ctx.length := h.ctx_length ▸ hc
  refine ⟨fun i hstat hinit => ?_, fun csel salted => ?_, ?_⟩
  · obtain ⟨t, hnext⟩ := goesOn_exec h i
    have hchoice : ∀ x, exec i (withCsel s c x) = .next (withCsel t c x) := fun x => by
      rw [exec_withCsel hlisted x (compressorsAgree h ht) hstat hinit, hnext]
      rfl
    exact ⟨t, hchoice .matrix, hchoice .table⟩
  · obtain ⟨u, hnext⟩ := goesOn_exec h (.init c csel salted)
    have hchoice : ∀ x, ∃ t, exec (.init c csel salted) (withCsel s c x) = .next t
        ∧ withCsel t c .matrix = withCsel u c .matrix := fun x =>
      exists_of_mapNext ((exec_init_withCsel_same hlisted x .matrix csel salted).trans (by rw [hnext]; rfl))
    obtain ⟨t, ht, hsame⟩ := hchoice .matrix
    obtain ⟨t', ht', hsame'⟩ := hchoice .table
    exact ⟨t, t', ht, ht', hsame.trans hsame'.symm⟩
  · have hchoice : ∀ x, exec (.stat c) (withCsel s c x) = .next (answered (withCsel s c x) 4#16 0x02#8 0x00#8
        (statWords s ((ctxAt s c).reselect (some x)))) := fun x => by
      rw [exec_stat (s := withCsel s c x) hc, ctxAt_withCsel hlisted, cselFor_same]
      rfl
    refine ⟨_, _, _, hchoice .matrix, hchoice .table, fun n hn => ?_⟩
    rw [getLsbD_statWord0_reselect s _ _ hn, getLsbD_statWord0_reselect s _ _ hn]

end Sys2Proof.Machine

/-! # Proofs of the family 43_control: NOP (R201), INFO (R203) and STAT (R205). -/

namespace Sys2Proof

/-- A command that decodes from one header has that header alone as its beats: no other header means it (R84). -/
theorem encode_of_decode_header {h : Word} {i : Instr} {rest : List Word} (hd : decode (h :: rest) = .ok (i, rest)) :
    encode i = [h] :=
  (List.append_cancel_right (encodeOfDecode (h :: rest) i rest hd : [h] ++ rest = encode i ++ rest)).symm

/-- STAT's header: `OPC` 0x02, zeros, the context, zeros (R81). -/
theorem encode_stat (c : BitVec 8) : encode (.stat c) = [0#40 ++ c ++ 0#8 ++ 0x02#8] := by
  have hunused : (0#8 : BitVec 8) = 0#4 ++ 0#4 := rfl
  rw [hunused]
  refine congrArg (fun header => [header]) ((packHeader_eq_append 0x02#8 0#4 0#4 c).trans ?_)
  simp only [BitVec.append_assoc, BitVec.cast_eq]

/-- The `CSEL` bit is 1 exactly for the table (R39). -/
theorem Compressor.bit_eq_decide (csel : Compressor) : csel.bit = decide (csel = .table) := by cases csel <;> rfl

end Sys2Proof

namespace Sys2Proof.Machine

/-! ### NOP (R201) -/

/-- NOP, in every state. -/
theorem exec_nop (s : State) : exec .nop s = .next (answered s 0#16 0x00#8 0x00#8 []) := by
  have hanswer := exec_completed (i := .nop) (s := s) (.inr rfl) rfl ⟨rfl, rfl⟩
  rw [hanswer, respond_nil]
  rfl

/-- Settles O27: the header is the one the encoder writes, and NOP passes every check in every state. -/
theorem nopOnlyAnswers : Obligations.NopOnlyAnswers :=
  ⟨rfl, fun _ _ hd => (List.singleton_inj.mp (encode_of_decode_header hd)).symm, exec_nop⟩

/-! ### INFO (R203) -/

/-- INFO, in every state. -/
theorem exec_info (s : State) :
    exec .info s = .next (answered s 4#16 0x01#8 0x00#8 (infoWords s.params)) := by
  have hanswer := exec_completed (i := .info) (s := s) (.inr rfl) rfl ⟨rfl, rfl⟩
  rw [hanswer, respond_eq_answered]
  rfl

/-- A response field of a number that fits it is that number. -/
theorem fieldOf_eq_ofNat {w v : Nat} (h : v < 2 ^ w) : fieldOf w v = BitVec.ofNat w v := if_pos h

/-- The four sizes fit a word when `M_COLS` does: `OL` and `BS` are parts of `IL = M_COLS / 8` (R7, R8). -/
theorem infoWords_of_buildable {p : Params} (hb : p.Buildable) (hp : p.mCols < 2 ^ 64) :
    infoWords p = [BitVec.ofNat 64 p.outputLen, BitVec.ofNat 64 p.blockSize, BitVec.ofNat 64 p.nRows,
      BitVec.ofNat 64 p.mCols] := by
  obtain ⟨-, -, hblock, -⟩ := hb
  have hsplit : p.outputLen + p.blockSize = p.mCols / 8 := by
    simp only [Params.blockSize, Params.inputLen] at hblock ⊢
    omega
  have hrows : p.nRows ≤ p.outputLen := Nat.le_mul_of_pos_left p.nRows (by omega)
  rw [infoWords, fieldOf_eq_ofNat (v := p.outputLen) (by omega), fieldOf_eq_ofNat (v := p.blockSize) (by omega),
    fieldOf_eq_ofNat (v := p.nRows) (by omega), fieldOf_eq_ofNat hp]

/-- Settles O28: the header is the one the encoder writes, and the four sizes fit their words. -/
theorem infoAnswersSizes : Obligations.InfoAnswersSizes := by
  refine ⟨rfl, fun h rest hd => (List.singleton_inj.mp (encode_of_decode_header hd)).symm, fun s hb hp => ?_⟩
  rw [exec_info, infoWords_of_buildable hb hp]
  rfl

/-! ### The fields of STAT's words (R205) -/

/-- A field at bit `k` of a word reads back there. -/
theorem extractLsb'_placed_same {w k : Nat} (b : BitVec w) (h : k + w ≤ 64) :
    (b.setWidth 64 <<< k).extractLsb' k w = b := by
  refine BitVec.eq_of_getLsbD_eq fun i hi => ?_
  simp [hi, show k + i < 64 by omega]

/-- A field of `w` bits at bit `k` of a word leaves the bits below it and above it zero. -/
theorem extractLsb'_placed_other {w k i l : Nat} (b : BitVec w) (h : i + l ≤ k ∨ k + w ≤ i) :
    (b.setWidth 64 <<< k).extractLsb' i l = 0#l := by
  refine BitVec.eq_of_getLsbD_eq fun j hj => ?_
  rw [BitVec.getLsbD_extractLsb', BitVec.getLsbD_shiftLeft, BitVec.getLsbD_setWidth]
  rcases h with hbelow | habove
  · simp [show i + j < k by omega]
  · simp [b.getLsbD_of_ge (i + j - k) (by omega)]

/-- One bit of a word, read as a field of width 1. -/
theorem getLsbD_of_extractLsb' {x : Word} {n : Nat} {b : Bool} (h : x.extractLsb' n 1 = BitVec.ofBool b) :
    x.getLsbD n = b := by
  have hbit := congrArg (BitVec.getLsbD · 0) h
  simpa using hbit

/-- Each field of `S0` stands in bits of its own, so every other one reads 0 there. -/
theorem statWord0_fields (s : State) (k : Context) :
    (statWord0 s k).extractLsb' 0 1 = BitVec.ofBool s.fatal
      ∧ (statWord0 s k).extractLsb' 1 1 = BitVec.ofBool (matrixValid s)
      ∧ (statWord0 s k).extractLsb' 2 1 = BitVec.ofBool s.tableValid
      ∧ (statWord0 s k).extractLsb' 3 1 = BitVec.ofBool k.bound
      ∧ (statWord0 s k).extractLsb' 4 1 = BitVec.ofBool k.view.csel.bit
      ∧ (statWord0 s k).extractLsb' 5 1 = BitVec.ofBool k.view.salted
      ∧ (statWord0 s k).extractLsb' 6 2 = k.phase.code
      ∧ (statWord0 s k).extractLsb' 8 8 = s.errcode
      ∧ (statWord0 s k).extractLsb' 16 8 = s.erropc
      ∧ (statWord0 s k).extractLsb' 24 40 = 0#40 := by
  simp (disch := omega) only [statWord0, flagAt, BitVec.extractLsb'_or, extractLsb'_placed_same,
    extractLsb'_placed_other, BitVec.or_zero, BitVec.zero_or, and_self]

/-- A word of two halves reads back half by half. -/
theorem extractLsb'_halves (lo hi : BitVec 32) :
    (lo.setWidth 64 ||| hi.setWidth 64 <<< 32).extractLsb' 0 32 = lo
      ∧ (lo.setWidth 64 ||| hi.setWidth 64 <<< 32).extractLsb' 32 32 = hi := by
  rw [← BitVec.shiftLeft_zero (lo.setWidth 64)]
  simp (disch := omega) only [BitVec.extractLsb'_or, extractLsb'_placed_same, extractLsb'_placed_other,
    BitVec.or_zero, BitVec.zero_or, and_self]

/-- `S2` holds `CARRY_LEN` and `SALT_CNT`, where they fit. -/
theorem statWord2_fields (k : Context) :
    (k.view.carryLen < 2 ^ 32 → ((statWord2 k).extractLsb' 0 32).toNat = k.view.carryLen)
      ∧ (k.saltCnt < 2 ^ 32 → ((statWord2 k).extractLsb' 32 32).toNat = k.saltCnt) := by
  obtain ⟨hlow, hhigh⟩ := extractLsb'_halves (fieldOf 32 k.view.carryLen) (fieldOf 32 k.saltCnt)
  rw [statWord2, hlow, hhigh]
  exact ⟨fieldOf_toNat, fieldOf_toNat⟩

/-- `S3` holds `MPTR` modulo 2^32, and `SRC_CNT` where it fits. -/
theorem statWord3_fields (s : State) :
    ((statWord3 s).extractLsb' 0 32).toNat = s.mptr % 2 ^ 32
      ∧ (s.srcCnt < 2 ^ 32 → ((statWord3 s).extractLsb' 32 32).toNat = s.srcCnt) := by
  obtain ⟨hlow, hhigh⟩ := extractLsb'_halves (BitVec.ofNat 32 s.mptr) (fieldOf 32 s.srcCnt)
  rw [statWord3, hlow, hhigh]
  exact ⟨BitVec.toNat_ofNat _ _, fieldOf_toNat⟩

/-- Settles O29: the answer is the model's four words, which read back field by field. -/
theorem statAnswersEveryField : Obligations.StatAnswersEveryField := by
  refine ⟨encode_stat, fun s c k hc hk => ⟨statWord0 s k, statWord2 k, statWord3 s, ?_⟩⟩
  have hanswer := exec_stat hc
  rw [ctxAt_of_getElem? hk] at hanswer
  obtain ⟨hfatal, hmatrix, htable, hbound, hcsel, hsalted, hphase, herrcode, herropc, hzero⟩ := statWord0_fields s k
  obtain ⟨hcarry, hsalt⟩ := statWord2_fields k
  rw [Compressor.bit_eq_decide] at hcsel
  exact ⟨hanswer, getLsbD_of_extractLsb' hfatal, getLsbD_of_extractLsb' hmatrix, getLsbD_of_extractLsb' htable,
    getLsbD_of_extractLsb' hbound, getLsbD_of_extractLsb' hcsel, getLsbD_of_extractLsb' hsalted, hphase, herrcode,
    herropc, hzero, hcarry, hsalt, statWord3_fields s⟩

end Sys2Proof.Machine

/-! # Proofs of the family 60_exceptions: holding and idling (R241, R272), the fatal state (R231), the precision of a trap
(R229, R230) and the isolation of the contexts (R239). -/

namespace Sys2Proof.Machine

/-! ### Holding and idling (R241, R272) -/

/-- No whole command in the channel: nothing is fetched (60_exceptions.md R241). -/
theorem fetch_of_no_frame {s : State} (hframe : nextFrame s.cmdq = none) : fetch s = none := by
  simp [fetch, hframe]

/-- A whole command without room for its response is not fetched (70_reset_and_hazards.md R272). -/
theorem fetch_of_no_room {s : State} {h w : Word} {rest : List Word} (hframe : nextFrame s.cmdq = some (h, w, rest))
    (hroom : s.params.respDepth < s.respq.length + responseBeats s.params h) : fetch s = none := by
  have hfull : ¬ hasRoom s h = true := by
    rw [hasRoom_iff]
    omega
  simp [fetch, hframe, hfull]

/-- The turns to come are nothing the sequencer looks at when it fetches. -/
theorem fetch_turns (s : State) (ts : List Turn) : fetch { s with turns := ts } = fetch s := rfl

/-- With nothing fetched the sequencer's turn changes nothing (log 8). -/
theorem sequencerTurn_of_fetch_none {s : State} (h : fetch s = none) : sequencerTurn s = .next s := by
  rw [sequencerTurn, h]

/-- With nothing fetched the step uses up the block's turn, where one was listed, and changes nothing else. -/
theorem step_of_fetch_none {s t : State} (hb : s.params.Buildable)
    (ht : (s.turns = [] ∧ t = s) ∨ ∃ ts, s.turns = .block :: ts ∧ t = { s with turns := ts }) (h : fetch s = none) :
    step s = .next t := by
  rcases ht with ⟨hts, rfl⟩ | ⟨ts, hts, rfl⟩
  · rw [step_of_no_turn hb hts, sequencerTurn_of_fetch_none h]
  · rw [step_of_block_turn hb hts, sequencerTurn_of_fetch_none ((fetch_turns s ts).trans h)]

/-- Settles O11: in each of the three cases nothing is fetched. -/
theorem blockHoldsOrIdlesWithoutChange : Obligations.BlockHoldsOrIdlesWithoutChange := by
  intro s t hb ht
  refine ⟨fun hframe => ?_, fun h w rest op hframe hopc hroom => ?_, fun h w rest hframe ho hroom => ?_⟩
  · exact step_of_fetch_none hb ht (fetch_of_no_frame hframe)
  · have ho : Opcode.ofByte (headerOpc h) = some op := by rw [hopc, ofByte_byte]
    rw [← responseBeats_of_opcode ho] at hroom
    exact step_of_fetch_none hb ht (fetch_of_no_room hframe hroom)
  · rw [← responseBeats_of_illegal ho s.params] at hroom
    exact step_of_fetch_none hb ht (fetch_of_no_room hframe hroom)

/-! ### The fatal state (R231) -/

/-- Every command goes through the checks of R100 before its own body. -/
theorem exec_eq_fieldChecked (i : Instr) (s : State) :
    ∃ c cnt body, exec i s = fieldChecked i.opcode c cnt s body := by
  cases i <;> exact ⟨_, _, _, rfl⟩

/-- The fatal state refuses a command before any other check (R100 step 2). -/
theorem fieldChecked_fatal {op : Opcode} {c : Option (BitVec 8)} {cnt : Option (BitVec 4)} {s : State} {body : Res}
    (hf : s.fatal = true) (ho : op.isStatus = false) :
    fieldChecked op c cnt s body = .next (answered s 0#16 op.byte 0x80#8 []) := by
  rw [fieldChecked, if_pos (by simp [hf, ho]), refuseFatal, respond_nil, Status.code]

/-- The commands that the fatal state refuses: all but NOP, INFO and STAT. -/
theorem isStatus_eq_false {i : Instr} (hnop : i ≠ .nop) (hinfo : i ≠ .info) (hstat : ∀ c, i ≠ .stat c) :
    i.opcode.isStatus = false := by
  cases i with
  | nop => exact absurd rfl hnop
  | info => exact absurd rfl hinfo
  | stat c => exact absurd rfl (hstat c)
  | mload | tderive | sload | init | reset | write | final | cload | crun => rfl

/-- Settles O23: the refusal is the first check of every command it concerns. -/
theorem fatalStateRefusesCommands : Obligations.FatalStateRefusesCommands := by
  intro i s hf hnop hinfo hstat
  obtain ⟨c, cnt, body, hexec⟩ := exec_eq_fieldChecked i s
  rw [hexec, fieldChecked_fatal hf (isStatus_eq_false hnop hinfo hstat)]

/-! ### The precision of a trap (R229, R230) -/

/-- The status is the lowest byte of a status beat (30_encoding.md R95). -/
theorem extractLsb'_statusBeat (st : Status) (opc : Byte) (n : Nat) :
    (statusBeat st opc n).extractLsb' 0 8 = st.code := by
  rw [statusBeat_eq, refBeat, BitVec.extractLsb'_append_eq_right]

/-- The status of the response that a command has just queued. -/
theorem responseStatus_of_queue {s t : State} {st : Status} {opc : Byte} {n : Nat} {data : List Word}
    (hq : t.respq = s.respq ++ statusBeat st opc n :: data) : responseStatus s t = st.code := by
  rw [responseStatus, hq, List.drop_left, List.headD_cons, extractLsb'_statusBeat]

/-- A contract violation touches the record, the flag and the queue alone (60_exceptions.md R228). -/
theorem raise_eq_update (opc : Byte) (st : Status) (s : State) :
    raise opc st s = { s with fatal := (raise opc st s).fatal, errcode := (raise opc st s).errcode,
                              erropc := (raise opc st s).erropc, respq := (raise opc st s).respq } := by
  unfold raise
  split <;> rfl

/-- `ERR_LENGTH` alone has code 1 (R222). -/
theorem code_eq_one_iff (st : Status) : st.code = 0x01#8 ↔ st = .errLength := by cases st <;> decide

/-- `ERR_LENGTH` is no contract violation (60_exceptions.md R220). -/
theorem code_ne_one_of_isContract {st : Status} (h : st.isContract = true) : st.code ≠ 0x01#8 := by
  rw [Ne, code_eq_one_iff]
  rintro rfl
  cases h

/-- Settles O22: a refusal and `ERR_LENGTH` touch the queue alone, a violation the record too, and a command with any
other effect answers `OK`. -/
theorem trapsArePrecise : Obligations.TrapsArePrecise := by
  intro i s t he
  rcases exec_cases he with ⟨-, -, rfl⟩ | ⟨st, hst, -, rfl⟩ | ⟨-, rfl⟩ | ⟨u, data, -, -, hc, rfl⟩
  · exact ⟨fun _ => rfl, fun _ => rfl⟩
  · have hstatus := responseStatus_of_queue (raise_respq i.opcode.byte st s)
    exact ⟨fun _ => raise_eq_update _ _ s, fun h => absurd (hstatus.symm.trans h) (code_ne_one_of_isContract hst)⟩
  · exact ⟨fun _ => rfl, fun _ => rfl⟩
  · obtain ⟨-, hrespq, -⟩ := completed_data hc
    have hstatus : responseStatus s (respond i.opcode.byte .ok data u) = 0x00#8 :=
      responseStatus_of_queue (hrespq ▸ respond_respq i.opcode.byte .ok data u)
    exact ⟨fun h => absurd hstatus h, fun h => absurd (hstatus.symm.trans h) (by decide)⟩

/-! ### The isolation of the contexts (R239): what a command changes -/

/-- A command that completes replaces the context it names, or no context. -/
theorem completed_ctx {i : Instr} {s u : State} {data : List Word} (hc : Completed s i u data) :
    u.ctx = s.ctx ∨ ∃ c k, namedCtx i = some c ∧ u = setCtx s c k := by
  cases i with
  | nop | info | stat => exact .inl (hc.1 ▸ rfl)
  | final c => obtain ⟨-, rfl, -⟩ := hc; exact .inl rfl
  | mload w => obtain ⟨-, -, rfl⟩ := hc; exact .inl rfl
  | tderive => obtain ⟨-, -, t, -, rfl⟩ := hc; exact .inl rfl
  | cload cnt w => obtain ⟨-, -, rfl⟩ := hc; exact .inl rfl
  | crun csel => obtain ⟨-, -, x, -, -, rfl⟩ := hc; exact .inl rfl
  | sload c cnt w => obtain ⟨-, -, hu⟩ := hc; exact .inr ⟨c, _, rfl, hu⟩
  | init c csel salted => obtain ⟨-, -, -, salt, v, -, -, hu⟩ := hc; exact .inr ⟨c, _, rfl, hu⟩
  | reset c => obtain ⟨-, -, v, -, hu⟩ := hc; exact .inr ⟨c, _, rfl, hu⟩
  | write c cnt w => obtain ⟨-, -, v, -, hu⟩ := hc; exact .inr ⟨c, _, rfl, hu⟩

/-- A context is read from the list of contexts alone. -/
theorem ctxAt_congr {s t : State} (h : t.ctx = s.ctx) (d : BitVec 8) : ctxAt t d = ctxAt s d := by
  rw [ctxAt, ctxAt, h]

/-- A command leaves every context that it does not name alone. -/
theorem ctxAt_exec_other {i : Instr} {s t : State} {d : BitVec 8} (he : exec i s = .next t)
    (hd : namedCtx i ≠ some d) : ctxAt t d = ctxAt s d := by
  rcases exec_cases he with ⟨-, -, rfl⟩ | ⟨st, -, -, rfl⟩ | ⟨-, rfl⟩ | ⟨u, data, -, -, hc, rfl⟩
  · exact ctxAt_congr rfl d
  · exact ctxAt_congr (raise_ctx _ st s) d
  · exact ctxAt_congr rfl d
  · rcases completed_ctx hc with hctx | ⟨c, k, hnamed, rfl⟩
    · exact ctxAt_congr hctx d
    · have hne : d ≠ c := fun heq => hd (heq ▸ hnamed)
      exact ctxAt_setCtx_other s c k hne

/-! ### The isolation of the contexts (R239): what a command reads -/

/-- Two contexts are replaced in either order. -/
theorem setCtx_comm (s : State) {c d : BitVec 8} (k k' : Context) (h : c ≠ d) :
    setCtx (setCtx s d k) c k' = setCtx (setCtx s c k') d k := by
  have hne : d.toNat ≠ c.toNat := fun heq => h (BitVec.eq_of_toNat_eq heq.symm)
  simp only [setCtx, List.set_comm _ _ hne]

theorem setCtx_raise (opc : Byte) (st : Status) (s : State) (d : BitVec 8) (k : Context) :
    setCtx (raise opc st s) d k = raise opc st (setCtx s d k) := by
  cases hf : s.fatal with
  | false => rw [raise_of_not_fatal _ _ s hf, raise_of_not_fatal _ _ (setCtx s d k) hf]; rfl
  | true => rw [raise_of_fatal _ _ s hf, raise_of_fatal _ _ (setCtx s d k) hf]; rfl

theorem compressorReady_setCtx (s : State) (d : BitVec 8) (k : Context) (csel : Compressor) :
    compressorReady (setCtx s d k) csel = compressorReady s csel := compressorReady_focus s d k s.respq csel

theorem compress_setCtx (s : State) (d : BitVec 8) (k : Context) (csel : Compressor) (x : List Byte) :
    compress (setCtx s d k) csel x = compress s csel x :=
  compress_congr (s := setCtx s d k) (s' := s) rfl rfl rfl csel x

theorem resetView_setCtx (s : State) (d : BitVec 8) (k : Context) (v : View) :
    resetView (setCtx s d k) v = resetView s v := resetView_focus s d k s.respq v

theorem writePath_setCtx (s : State) (d : BitVec 8) (k : Context) (v : View) (bytes : List Byte) :
    writePath (setCtx s d k) v bytes = writePath s v bytes := writePath_focus s d k s.respq v bytes

theorem padView_setCtx (s : State) (d : BitVec 8) (k : Context) (v : View) :
    padView (setCtx s d k) v = padView s v := padView_focus s d k s.respq v

theorem initSalt_setCtx (s : State) (d : BitVec 8) (k k' : Context) (salted : Bool) :
    initSalt (setCtx s d k) k' salted = initSalt s k' salted := rfl

/-- The first read of a body is the same for both states: what is left to compare is what follows it. -/
theorem settle_bind_mapNext {α : Type} {f : State → State} {m : Except Fault α} {g g' : α → Except Fault Res}
    (h : ∀ a, settle (g' a) = mapNext f (settle (g a))) : settle (m >>= g') = mapNext f (settle (m >>= g)) := by
  cases m with
  | ok a => exact h a
  | error e => rfl

section
variable {s : State} {d : BitVec 8} {k : Context}

/-- The checks of R100 look at no context: a body that commutes with the replacement makes a command that does. -/
theorem fieldChecked_setCtx {op : Opcode} {c : Option (BitVec 8)} {cnt : Option (BitVec 4)} {body body' : Res}
    (h : body' = mapNext (setCtx · d k) body) :
    fieldChecked op c cnt (setCtx s d k) body' = mapNext (setCtx · d k) (fieldChecked op c cnt s body) := by
  rw [fieldChecked, fieldChecked, setCtx_fatal, setCtx_params]
  split
  · rfl
  · split
    · exact congrArg Host.Outcome.next (setCtx_raise _ _ s d k).symm
    · split
      · exact congrArg Host.Outcome.next (setCtx_raise _ _ s d k).symm
      · exact h

/-- So does a body that a violation may come before. -/
theorem violateIf_setCtx {p : Prop} [Decidable p] {op : Opcode} {st : Status} {body body' : Res}
    (h : body' = mapNext (setCtx · d k) body) :
    (if p then violate op st (setCtx s d k) else body')
      = mapNext (setCtx · d k) (if p then violate op st s else body) := by
  split
  · exact congrArg Host.Outcome.next (setCtx_raise _ _ s d k).symm
  · exact h

/-- The completion of a command that has replaced another context. -/
theorem complete_setCtx {op : Opcode} {c : BitVec 8} (h : c ≠ d) (k' : Context) :
    complete op [] (setCtx (setCtx s d k) c k') = mapNext (setCtx · d k) (complete op [] (setCtx s c k')) :=
  congrArg (fun t => Host.Outcome.next (respond op.byte .ok [] t)) (setCtx_comm s k k' h)

/-- What a command does to its own context and answers does not depend on another one. -/
theorem exec_setCtx {i : Instr} (hd : namedCtx i ≠ some d) :
    exec i (setCtx s d k) = mapNext (setCtx · d k) (exec i s) := by
  have hctx : ∀ c, namedCtx i = some c → c ≠ d ∧ ctxAt (setCtx s d k) c = ctxAt s c := fun c hc =>
    have hne : c ≠ d := fun heq => hd (heq ▸ hc)
    ⟨hne, ctxAt_setCtx_other s d k hne⟩
  cases i with
  | nop | info => exact fieldChecked_setCtx rfl
  | mload | cload => exact fieldChecked_setCtx (violateIf_setCtx rfl)
  | tderive => exact fieldChecked_setCtx (violateIf_setCtx (settle_bind_mapNext fun _ => rfl))
  | crun csel =>
    refine fieldChecked_setCtx ?_
    simp only [compressorReady_setCtx, compress_setCtx]
    exact violateIf_setCtx (violateIf_setCtx (settle_bind_mapNext fun _ => settle_bind_mapNext fun _ => rfl))
  | stat c =>
    obtain ⟨-, hsame⟩ := hctx c rfl
    exact fieldChecked_setCtx (by rw [hsame]; rfl)
  | sload c cnt w =>
    obtain ⟨hne, hsame⟩ := hctx c rfl
    refine fieldChecked_setCtx ?_
    dsimp only
    rw [hsame]
    exact violateIf_setCtx (complete_setCtx hne _)
  | init c csel salted =>
    obtain ⟨hne, hsame⟩ := hctx c rfl
    refine fieldChecked_setCtx ?_
    simp only [hsame, compressorReady_setCtx, initSalt_setCtx, resetView_setCtx]
    exact violateIf_setCtx (violateIf_setCtx (settle_bind_mapNext fun _ => settle_bind_mapNext fun _ =>
      complete_setCtx hne _))
  | reset c =>
    obtain ⟨hne, hsame⟩ := hctx c rfl
    refine fieldChecked_setCtx ?_
    simp only [hsame, resetView_setCtx]
    exact violateIf_setCtx (settle_bind_mapNext fun _ => complete_setCtx hne _)
  | write c cnt w =>
    obtain ⟨hne, hsame⟩ := hctx c rfl
    refine fieldChecked_setCtx ?_
    simp only [hsame, writePath_setCtx]
    refine violateIf_setCtx (settle_bind_mapNext fun r => ?_)
    cases r with
    | none => rfl
    | some v => exact complete_setCtx hne _
  | final c =>
    obtain ⟨-, hsame⟩ := hctx c rfl
    refine fieldChecked_setCtx ?_
    simp only [hsame, padView_setCtx]
    refine violateIf_setCtx (settle_bind_mapNext fun r => ?_)
    cases r with
    | none => rfl
    | some v =>
      dsimp only
      split
      · exact congrArg Host.Outcome.next (setCtx_raise _ _ s d k).symm
      · exact settle_bind_mapNext fun _ => rfl

end

/-- Settles O26: the context is left alone, and replacing it commutes with the command. -/
theorem contextsAreIsolated : Obligations.ContextsAreIsolated := by
  intro i s t d k he hd
  refine ⟨ctxAt_exec_other he hd, ?_⟩
  rw [exec_setCtx hd, he]
  rfl

end Sys2Proof.Machine

/-! # Proofs of the family 70_reset_and_hazards: the host's turns (R278), power-on reset (R260) and timing (R275). -/

namespace Sys2Proof.Machine

/-! ### The host's turns (R278) and power-on reset (R260) -/

/-- The host's send turn (R278). -/
theorem step_of_send_turn {s : State} {w : Word} {ts : List Turn} (hb : s.params.Buildable)
    (ht : s.turns = .send w :: ts) : step s = .next (sendBeat w { s with turns := ts }) := by
  rw [step, if_pos hb, ht]

/-- The host's take turn (R278). -/
theorem step_of_take_turn {s : State} {ts : List Turn} (hb : s.params.Buildable) (ht : s.turns = .take :: ts) :
    step s = .next (takeBeat { s with turns := ts }) := by
  rw [step, if_pos hb, ht]

/-- A power-on turn (R260). -/
theorem step_of_powerOn_turn {s : State} {ts : List Turn} (hb : s.params.Buildable) (ht : s.turns = .powerOn :: ts) :
    step s = .next (powerOnReset { s with turns := ts }) := by
  rw [step, if_pos hb, ht]

/-- A beat that is queued is taken (R278). -/
theorem takeBeat_of_queue {s : State} {b : Word} {q : List Word} (hq : s.respq = b :: q) :
    takeBeat s = { s with respq := q, received := s.received ++ [b] } := by
  rw [takeBeat, hq]

/-- Settles O12: each turn is one operation on the channels. -/
theorem hostSendsAndTakes : Obligations.HostSendsAndTakes := by
  intro s w b q ts hb
  refine ⟨step_of_send_turn hb, fun ht hq => ?_⟩
  rw [step_of_take_turn hb ht, takeBeat_of_queue (s := { s with turns := ts }) hq]

/-- No command takes a matrix word back or touches `FATAL` but by its response (10_state.md R23, R25). -/
theorem effect_fatal_mptr {s u : State} (he : Effect s u) : u.fatal = s.fatal ∧ s.mptr ≤ u.mptr := by
  cases he with
  | none | table | source | sourceUsed | context => exact ⟨rfl, le_rfl⟩
  | matrixWord w _ => exact ⟨rfl, Nat.le_succ _⟩

/-- Settles O13: outside power-on reset a violation alone writes `FATAL`, to 1, and `MLOAD` alone moves `MPTR`, up. -/
theorem onlyPowerOnResetClears : Obligations.OnlyPowerOnResetClears := by
  refine ⟨fun s ts hb ht => step_of_powerOn_turn hb ht, fun s t hstep hturn => ?_⟩
  cases stepEffect_of_step hstep with
  | input beats ts | refused beats ts opc | length beats ts opc => exact ⟨id, le_rfl⟩
  | violation beats ts opc st => exact ⟨fun _ => raise_fatal _ _ _, (raise_mptr opc st (s.withInput beats ts)).ge⟩
  | done beats ts i u data _ hw hc _ =>
    obtain ⟨hfatal, hmptr⟩ := effect_fatal_mptr (effect_of_completed (s := s.withInput beats ts) hw hc)
    exact ⟨fun hf => hfatal.trans hf, hmptr⟩
  | take ts => exact ⟨fun hf => (takeBeat_fatal _).trans hf, (takeBeat_mptr { s with turns := ts }).ge⟩
  | powerOn ts hpow => exact absurd hpow hturn

/-! ### Two states that differ in data only (R275) -/

/-- The part of a view that is not data. -/
structure SameViewControl (v v' : View) : Prop where
  carryLen : v.carryLen = v'.carryLen
  totalLen : v.totalLen = v'.totalLen
  salted : v.salted = v'.salted
  csel : v.csel = v'.csel

theorem sameCtxControl_iff {k k' : Context} : sameCtxControl k k' ↔
    k.bound = k'.bound ∧ k.phase = k'.phase ∧ k.saltCnt = k'.saltCnt ∧ SameViewControl k.view k'.view := by
  constructor
  · rintro ⟨hbound, hphase, hcnt, hcarry, htotal, hsalted, hcsel⟩
    exact ⟨hbound, hphase, hcnt, hcarry, htotal, hsalted, hcsel⟩
  · rintro ⟨hbound, hphase, hcnt, hcarry, htotal, hsalted, hcsel⟩
    exact ⟨hbound, hphase, hcnt, hcarry, htotal, hsalted, hcsel⟩

/-- Related lists stay related when related elements are put at the same place. -/
theorem forall₂_set {α β : Type} {R : α → β → Prop} {l : List α} {l' : List β} (h : List.Forall₂ R l l') (n : Nat)
    {a : α} {b : β} (hab : R a b) : List.Forall₂ R (l.set n a) (l'.set n b) := by
  induction h generalizing n with
  | nil => exact .nil
  | cons hhead htail ih =>
    cases n with
    | zero => exact .cons hab htail
    | succ n => exact .cons hhead (ih n)

/-- Related lists answer related elements, also beyond their end. -/
theorem forall₂_getD {α β : Type} {R : α → β → Prop} {l : List α} {l' : List β} (h : List.Forall₂ R l l') (n : Nat)
    {a : α} {b : β} (hab : R a b) : R (l.getD n a) (l'.getD n b) := by
  induction h generalizing n with
  | nil => exact hab
  | cons hhead htail ih =>
    cases n with
    | zero => exact hhead
    | succ n => exact ih n

section
variable {s s' : State}

theorem SameControl.ctxAt (h : SameControl s s') (c : BitVec 8) : sameCtxControl (ctxAt s c) (ctxAt s' c) :=
  forall₂_getD h.ctx c.toNat ⟨rfl, rfl, rfl, rfl, rfl, rfl, rfl⟩

theorem SameControl.setCtx (h : SameControl s s') (c : BitVec 8) {k k' : Context} (hk : sameCtxControl k k') :
    SameControl (setCtx s c k) (setCtx s' c k') :=
  { h with ctx := forall₂_set h.ctx c.toNat hk }

theorem SameControl.respond (h : SameControl s s') (opc : Byte) (st : Status) {data data' : List Word}
    (hl : data.length = data'.length) : SameControl (respond opc st data s) (respond opc st data' s') :=
  { h with respq := by simp [h.respq, hl] }

theorem SameControl.raise (h : SameControl s s') (opc : Byte) (st : Status) :
    SameControl (raise opc st s) (raise opc st s') := by
  cases hf : s.fatal with
  | true =>
    rw [raise_of_fatal _ _ s hf, raise_of_fatal _ _ s' (h.fatal ▸ hf)]
    exact { h with respq := by simp [h.respq] }
  | false =>
    rw [raise_of_not_fatal _ _ s hf, raise_of_not_fatal _ _ s' (h.fatal ▸ hf)]
    exact { h with fatal := rfl, errcode := rfl, erropc := rfl, respq := by simp [h.respq] }

theorem SameControl.matrixValid (h : SameControl s s') : matrixValid s = matrixValid s' := by
  rw [Machine.matrixValid, Machine.matrixValid, h.mptr, h.params]

theorem SameControl.compressorReady (h : SameControl s s') (csel : Compressor) :
    compressorReady s csel = compressorReady s' csel := by
  cases csel with
  | matrix => exact h.matrixValid
  | table => exact h.tableValid

end

/-! ### Two answers that differ in data only -/

/-- Both commands go on, with the same status, to states that differ in data only. -/
def AnswersAlike (s s' : State) (r r' : Res) : Prop :=
  ∃ t t', r = .next t ∧ r' = .next t' ∧ SameControl t t' ∧ responseStatus s t = responseStatus s' t'

section
variable {s s' : State}

theorem answersAlike_respond {u u' : State} {opc : Byte} {st : Status} {data data' : List Word}
    (h : SameControl u u') (hl : data.length = data'.length := by rfl) (hq : u.respq = s.respq := by rfl)
    (hq' : u'.respq = s'.respq := by rfl) :
    AnswersAlike s s' (.next (respond opc st data u)) (.next (respond opc st data' u')) := by
  refine ⟨_, _, rfl, rfl, h.respond opc st hl, ?_⟩
  calc responseStatus s (respond opc st data u) = st.code := responseStatus_of_queue (hq ▸ respond_respq ..)
    _ = responseStatus s' (respond opc st data' u') := (responseStatus_of_queue (hq' ▸ respond_respq ..)).symm

theorem answersAlike_raise (h : SameControl s s') (opc : Byte) (st : Status) :
    AnswersAlike s s' (.next (raise opc st s)) (.next (raise opc st s')) := by
  refine ⟨_, _, rfl, rfl, h.raise opc st, ?_⟩
  calc responseStatus s (raise opc st s) = st.code := responseStatus_of_queue (raise_respq opc st s)
    _ = responseStatus s' (raise opc st s') := (responseStatus_of_queue (raise_respq opc st s')).symm

/-- The checks of R100 look at no data. -/
theorem answersAlike_fieldChecked (h : SameControl s s') (op : Opcode) (c : Option (BitVec 8))
    (cnt : Option (BitVec 4)) {body body' : Res} (hbody : AnswersAlike s s' body body') :
    AnswersAlike s s' (fieldChecked op c cnt s body) (fieldChecked op c cnt s' body') := by
  rw [fieldChecked, fieldChecked, ← h.fatal, ← h.params]
  split
  · exact answersAlike_respond h
  · split
    · exact answersAlike_raise h _ _
    · split
      · exact answersAlike_raise h _ _
      · exact hbody

/-- Nor does a command's own check, where it asks the same of both states. -/
theorem answersAlike_violateIf (h : SameControl s s') {p p' : Prop} [Decidable p] [Decidable p'] (hp : p ↔ p')
    (op : Opcode) (st : Status) {body body' : Res} (hbody : ¬ p → AnswersAlike s s' body body') :
    AnswersAlike s s' (if p then violate op st s else body) (if p' then violate op st s' else body') := by
  by_cases hv : p
  · rw [if_pos hv, if_pos (hp.mp hv)]
    exact answersAlike_raise h op.byte st
  · rw [if_neg hv, if_neg fun hv' => hv (hp.mpr hv')]
    exact hbody hv

/-- Two reads that answer leave what follows them to be compared. -/
theorem answersAlike_settle_bind {α α' : Type} {m : Except Fault α} {m' : Except Fault α'} {a : α} {a' : α'}
    {f : α → Except Fault Res} {f' : α' → Except Fault Res} (hm : m = .ok a) (hm' : m' = .ok a')
    (h : AnswersAlike s s' (settle (f a)) (settle (f' a'))) :
    AnswersAlike s s' (settle (m >>= f)) (settle (m' >>= f')) := by
  subst hm hm'
  exact h

end

/-! ### The streaming procedures on views that differ in data only -/

/-- Two states of the invariant that differ in data only. -/
structure StatePair (s s' : State) : Prop where
  left : Inv s
  right : Inv s'
  same : SameControl s s'

/-- Two views of the invariant that differ in data only. -/
structure ViewPair (s s' : State) (v v' : View) : Prop where
  left : ViewInv s v
  right : ViewInv s' v'
  same : SameViewControl v v'

section
variable {s s' : State}

/-- `CARRY_LEN` is no condition of its own: it is `TOTAL_LEN` modulo `BS` (10_state.md R47). -/
theorem viewPair_of_total (h : StatePair s s') {v v' : View} (hl : ViewInv s v) (hr : ViewInv s' v')
    (htotal : v.totalLen = v'.totalLen) (hsalted : v.salted = v'.salted) (hcsel : v.csel = v'.csel) :
    ViewPair s s' v v' :=
  ⟨hl, hr, by rw [hl.carry_mod, hr.carry_mod, htotal, h.same.params], htotal, hsalted, hcsel⟩

/-- The bound contexts that two commands name. -/
theorem viewPair_ctxAt (h : StatePair s s') {c : BitVec 8} (hb : (ctxAt s c).bound = true) :
    ViewPair s s' (ctxAt s c).view (ctxAt s' c).view := by
  obtain ⟨hbound, -, -, hview⟩ := sameCtxControl_iff.mp (h.same.ctxAt c)
  exact ⟨(ctxInv_ctxAt h.left c).bound_view hb, (ctxInv_ctxAt h.right c).bound_view (hbound ▸ hb), hview⟩

/-- The write path of as many bytes fails on both views, or succeeds on both: the length limit is a matter of the count
alone (42_streaming_engine.md R168). -/
theorem writePath_pair (h : StatePair s s') {v v' : View} (hv : ViewPair s s' v v') {d d' : List Byte}
    (hd : d.length = d'.length) :
    (writePath s v d = .ok none ∧ writePath s' v' d' = .ok none)
      ∨ ∃ w w', writePath s v d = .ok (some w) ∧ writePath s' v' d' = .ok (some w') ∧ ViewPair s s' w w' := by
  have hsum : v.totalLen.toNat + d.length = v'.totalLen.toNat + d'.length := by rw [hv.same.totalLen, hd]
  by_cases hlim : (v.totalLen.toNat + d.length) * 8 < lenLimitBits
  · obtain ⟨w, hw⟩ := writePath_succeeds h.left hv.left hlim
    obtain ⟨w', hw'⟩ := writePath_succeeds h.right hv.right (hsum ▸ hlim)
    obtain ⟨-, htotal, hsalted, -, hcsel, -⟩ := writePath_inv hw
    obtain ⟨-, htotal', hsalted', -, hcsel', -⟩ := writePath_inv hw'
    refine .inr ⟨w, w', hw, hw', viewPair_of_total h (viewInv_writePath h.left.buildable hv.left hw)
      (viewInv_writePath h.right.buildable hv.right hw') ?_ ?_ ?_⟩
    · rw [htotal, htotal', hv.same.totalLen, hd]
    · rw [hsalted, hsalted', hv.same.salted]
    · rw [hcsel, hcsel', hv.same.csel]
  · exact .inl ⟨writePath_fail (Nat.le_of_not_lt hlim), writePath_fail (hsum ▸ Nat.le_of_not_lt hlim)⟩

/-- `ResetCtx` folds a salt into both views or into none, and in both or in none the fold-in reaches the limit
(42_streaming_engine.md R165). -/
theorem resetView_pair (h : StatePair s s') {v v' : View}
    (hclear : ViewPair s s' (clearView s.params v) (clearView s'.params v')) :
    ∃ w w', resetView s v = .ok w ∧ resetView s' v' = .ok w' ∧ ViewPair s s' w w' := by
  have hsame : v.salted = v'.salted := hclear.same.salted
  cases hs : v.salted with
  | false => exact ⟨_, _, resetView_unsalted hs, resetView_unsalted (hsame ▸ hs), hclear⟩
  | true =>
    have hlen : (zeros s.params.blockSize).length = (zeros s'.params.blockSize).length := by rw [h.same.params]
    rcases writePath_pair h hclear hlen with ⟨hw, hw'⟩ | ⟨w, w', hw, hw', hpair⟩
    · exact ⟨_, _, resetView_of_writePath hs hw, resetView_of_writePath (hsame ▸ hs) hw', hclear⟩
    · exact ⟨_, _, resetView_of_writePath hs hw, resetView_of_writePath (hsame ▸ hs) hw', hpair⟩

/-- The padding is as long on both views (42_streaming_engine.md R181). -/
theorem padView_pair (h : StatePair s s') {v v' : View} (hv : ViewPair s s' v v') :
    (padView s v = .ok none ∧ padView s' v' = .ok none)
      ∨ ∃ w w', padView s v = .ok (some w) ∧ padView s' v' = .ok (some w') ∧ ViewPair s s' w w' := by
  rw [padView_eq_writePath h.left hv.left, padView_eq_writePath h.right hv.right]
  exact writePath_pair h hv (by rw [hv.same.totalLen, h.same.params])

/-! ### The commands, on states that differ in data only -/

theorem answersAlike_tderive (h : StatePair s s') : AnswersAlike s s' (execTderive s) (execTderive s') := by
  have hcheck : matrixValid s = false ↔ matrixValid s' = false := by rw [h.same.matrixValid]
  refine answersAlike_fieldChecked h.same _ _ _ (answersAlike_violateIf h.same hcheck _ _ fun hm => ?_)
  have hvalid : matrixValid s = true := by simpa using hm
  have hlen := a_length_of_matrixValid h.left hvalid
  have hlen' := a_length_of_matrixValid h.right (h.same.matrixValid ▸ hvalid)
  refine answersAlike_settle_bind (deriveTable_eq h.left.a_dense h.left.buildable.1 hlen)
    (deriveTable_eq h.right.a_dense h.right.buildable.1 hlen') (answersAlike_respond ?_)
  exact { h.same with tableValid := rfl }

theorem answersAlike_mload (h : StatePair s s') (w w' : Word) :
    AnswersAlike s s' (execMload w s) (execMload w' s') := by
  have hcheck : s.mptr = s.params.matrixWords ↔ s'.mptr = s'.params.matrixWords := by
    rw [h.same.mptr, h.same.params]
  refine answersAlike_fieldChecked h.same _ _ _ (answersAlike_violateIf h.same hcheck _ _ fun _ =>
    answersAlike_respond ?_)
  exact { h.same with mptr := congrArg (· + 1) h.same.mptr }

theorem answersAlike_cload (h : StatePair s s') (cnt : BitVec 4) (w w' : Word) :
    AnswersAlike s s' (execCload cnt w s) (execCload cnt w' s') := by
  have hcheck : s.params.inputLen < s.srcCnt + cnt.toNat ↔ s'.params.inputLen < s'.srcCnt + cnt.toNat := by
    rw [h.same.srcCnt, h.same.params]
  refine answersAlike_fieldChecked h.same _ _ _ (answersAlike_violateIf h.same hcheck _ _ fun _ =>
    answersAlike_respond ?_)
  exact { h.same with srcCnt := congrArg (· + cnt.toNat) h.same.srcCnt }

/-- A complete source compresses on a ready compressor. -/
theorem compress_src_answers {t : State} (h : Inv t) {csel : Compressor} (hr : compressorReady t csel = true)
    (hcnt : t.srcCnt = t.params.inputLen) :
    ∃ x acc, t.src.readRange .src 0 t.params.inputLen = .ok x ∧ compress t csel x = .ok acc
      ∧ acc.length = t.params.nRows := by
  have hlen : 0 + t.params.inputLen ≤ t.src.length := by rw [Nat.zero_add, ← hcnt]; exact h.src_count
  have hread := Mem.readRange_dense h.src_dense .src hlen
  have hacc := answersSums_of_ready h hr _ (Mem.readRange_length hread)
  exact ⟨_, _, hread, hacc, compress_length hacc⟩

theorem answersAlike_crun (h : StatePair s s') (csel : Compressor) :
    AnswersAlike s s' (execCrun csel s) (execCrun csel s') := by
  have hready : compressorReady s csel = false ↔ compressorReady s' csel = false := by rw [h.same.compressorReady]
  have hcount : s.srcCnt ≠ s.params.inputLen ↔ s'.srcCnt ≠ s'.params.inputLen := by rw [h.same.srcCnt, h.same.params]
  refine answersAlike_fieldChecked h.same _ _ _ (answersAlike_violateIf h.same hready _ _ fun hr =>
    answersAlike_violateIf h.same hcount _ _ fun hcnt => ?_)
  obtain ⟨x, acc, hx, hacc, hlen⟩ := compress_src_answers h.left (by simpa using hr) (not_not.mp hcnt)
  obtain ⟨x', acc', hx', hacc', hlen'⟩ := compress_src_answers h.right (by simpa [hready] using hr)
    (not_not.mp (hcount.not.mp hcnt))
  refine answersAlike_settle_bind hx hx' (answersAlike_settle_bind hacc hacc' (answersAlike_respond ?_ ?_))
  · exact { h.same with srcCnt := rfl }
  · rw [hlen, hlen', h.same.params]

theorem answersAlike_sload (h : StatePair s s') (c : BitVec 8) (cnt : BitVec 4) (w w' : Word) :
    AnswersAlike s s' (execSload c cnt w s) (execSload c cnt w' s') := by
  obtain ⟨hbound, hphase, hcnt, hview⟩ := sameCtxControl_iff.mp (h.same.ctxAt c)
  have hcheck : s.params.blockSize < (ctxAt s c).saltCnt + cnt.toNat
      ↔ s'.params.blockSize < (ctxAt s' c).saltCnt + cnt.toNat := by rw [hcnt, h.same.params]
  refine answersAlike_fieldChecked h.same _ _ _ (answersAlike_violateIf h.same hcheck _ _ fun _ =>
    answersAlike_respond (h.same.setCtx c (sameCtxControl_iff.mpr ?_)))
  exact ⟨hbound, hphase, congrArg (· + cnt.toNat) hcnt, hview⟩

/-- The salt an `INIT` takes is there, and the view `ResetCtx` starts from meets the invariant. -/
theorem initSalt_clearView {t : State} (h : Inv t) (c : BitVec 8) {csel : Compressor} {salted : Bool}
    (hr : compressorReady t csel = true) (hfull : salted = true → (ctxAt t c).saltCnt = t.params.blockSize) :
    ∃ salt, initSalt t (ctxAt t c) salted = .ok salt
      ∧ ViewInv t (clearView t.params { (ctxAt t c).view with salt := salt, csel := csel, salted := salted }) := by
  have hk := ctxInv_ctxAt h c
  obtain ⟨salt, hsalt⟩ := initSalt_answers hk hfull
  obtain ⟨hdense, hlen⟩ := hk.initSalt_full hsalt
  exact ⟨salt, hsalt, viewInv_clear hdense hlen hr⟩

theorem answersAlike_init (h : StatePair s s') (c : BitVec 8) (csel : Compressor) (salted : Bool) :
    AnswersAlike s s' (execInit c csel salted s) (execInit c csel salted s') := by
  obtain ⟨-, -, hcnt, -⟩ := sameCtxControl_iff.mp (h.same.ctxAt c)
  have hready : compressorReady s csel = false ↔ compressorReady s' csel = false := by rw [h.same.compressorReady]
  have hstaged : (salted = true ∧ (ctxAt s c).saltCnt ≠ s.params.blockSize)
      ↔ (salted = true ∧ (ctxAt s' c).saltCnt ≠ s'.params.blockSize) := by rw [hcnt, h.same.params]
  refine answersAlike_fieldChecked h.same _ _ _ (answersAlike_violateIf h.same hready _ _ fun hr =>
    answersAlike_violateIf h.same hstaged _ _ fun hs => ?_)
  obtain ⟨salt, hsalt, hclear⟩ := initSalt_clearView h.left c (csel := csel) (salted := salted) (by simpa using hr)
    (by simpa using hs)
  obtain ⟨salt', hsalt', hclear'⟩ := initSalt_clearView h.right c (csel := csel) (salted := salted)
    (by simpa [hready] using hr) (by simpa using hstaged.not.mp hs)
  obtain ⟨v, v', hv, hv', hpair⟩ := resetView_pair h (viewPair_of_total h hclear hclear' rfl rfl rfl)
  refine answersAlike_settle_bind hsalt hsalt' (answersAlike_settle_bind hv hv'
    (answersAlike_respond (h.same.setCtx c (sameCtxControl_iff.mpr ?_))))
  exact ⟨rfl, rfl, rfl, hpair.same⟩

/-- The three commands that need a bound context, up to their own work. -/
theorem answersAlike_bound (h : StatePair s s') (op : Opcode) (c : BitVec 8) (cnt : Option (BitVec 4))
    {body body' : Res}
    (hbody : ViewPair s s' (ctxAt s c).view (ctxAt s' c).view → AnswersAlike s s' body body') :
    AnswersAlike s s'
      (fieldChecked op (some c) cnt s (if (ctxAt s c).bound = false then violate op .errNotBound s else body))
      (fieldChecked op (some c) cnt s' (if (ctxAt s' c).bound = false then violate op .errNotBound s' else body')) := by
  obtain ⟨hbound, -, -, -⟩ := sameCtxControl_iff.mp (h.same.ctxAt c)
  have hcheck : (ctxAt s c).bound = false ↔ (ctxAt s' c).bound = false := by rw [hbound]
  refine answersAlike_fieldChecked h.same _ _ _ (answersAlike_violateIf h.same hcheck _ _ fun hb => ?_)
  exact hbody (viewPair_ctxAt h (by simpa using hb))

theorem answersAlike_reset (h : StatePair s s') (c : BitVec 8) :
    AnswersAlike s s' (execReset c s) (execReset c s') := by
  obtain ⟨hbound, -, hcnt, -⟩ := sameCtxControl_iff.mp (h.same.ctxAt c)
  refine answersAlike_bound h .reset c none fun hview => ?_
  have hclear := viewInv_clear hview.left.salt_dense hview.left.salt_length hview.left.ready
  have hclear' := viewInv_clear hview.right.salt_dense hview.right.salt_length hview.right.ready
  obtain ⟨v, v', hv, hv', hpair⟩ :=
    resetView_pair h (viewPair_of_total h hclear hclear' rfl hview.same.salted hview.same.csel)
  refine answersAlike_settle_bind hv hv' (answersAlike_respond (h.same.setCtx c (sameCtxControl_iff.mpr ?_)))
  exact ⟨hbound, rfl, hcnt, hpair.same⟩

theorem answersAlike_write (h : StatePair s s') (c : BitVec 8) (cnt : BitVec 4) (w w' : Word) :
    AnswersAlike s s' (execWrite c cnt w s) (execWrite c cnt w' s') := by
  obtain ⟨hbound, -, hcnt, -⟩ := sameCtxControl_iff.mp (h.same.ctxAt c)
  refine answersAlike_bound h .write c (some cnt) fun hview => ?_
  have hlen : (payloadBytes cnt w).length = (payloadBytes cnt w').length := by simp
  rcases writePath_pair h hview hlen with ⟨hw, hw'⟩ | ⟨v, v', hw, hw', hpair⟩
  · exact answersAlike_settle_bind hw hw' (answersAlike_respond h.same)
  · refine answersAlike_settle_bind hw hw' (answersAlike_respond (h.same.setCtx c (sameCtxControl_iff.mpr ?_)))
    exact ⟨hbound, rfl, hcnt, hpair.same⟩

theorem answersAlike_final (h : StatePair s s') (c : BitVec 8) :
    AnswersAlike s s' (execFinal c s) (execFinal c s') := by
  refine answersAlike_bound h .final c none fun hview => ?_
  rcases padView_pair h hview with ⟨hp, hp'⟩ | ⟨v, v', hp, hp', hpair⟩
  · exact answersAlike_settle_bind hp hp' (answersAlike_respond h.same)
  · refine answersAlike_settle_bind hp hp' ?_
    dsimp only
    rw [← hpair.same.carryLen]
    split
    · exact answersAlike_raise h.same _ _
    · have hread := Mem.readRange_whole hpair.left.chain_dense hpair.left.chain_length .chain
      have hread' := Mem.readRange_whole hpair.right.chain_dense hpair.right.chain_length .chain
      exact answersAlike_settle_bind hread hread'
        (answersAlike_respond h.same (by simp [h.same.params]))

/-- Two commands that differ in their payload only. -/
theorem answersAlike_exec (h : StatePair s s') (op : Opcode) (header w w' : Word) :
    AnswersAlike s s' (exec (assemble op header w) s) (exec (assemble op header w') s') := by
  cases op with
  | nop | info | stat => exact answersAlike_fieldChecked h.same _ _ _ (answersAlike_respond h.same)
  | mload => exact answersAlike_mload h w w'
  | tderive => exact answersAlike_tderive h
  | sload => exact answersAlike_sload h _ _ w w'
  | init => exact answersAlike_init h _ _ _
  | reset => exact answersAlike_reset h _
  | write => exact answersAlike_write h _ _ w w'
  | final => exact answersAlike_final h _
  | cload => exact answersAlike_cload h _ w w'
  | crun => exact answersAlike_crun h _

end

/-! ### The latency (R275) -/

/-- Commands with the same header are the header's command, with a payload each. -/
theorem assemble_of_encodeHeader_eq {i i' : Instr} (h : encodeHeader i = encodeHeader i') :
    ∃ op header w w', i = assemble op header w ∧ i' = assemble op header w' := by
  have hop : i.opcode = i'.opcode := by
    have ho := ofByte_encodeHeader i
    rw [h, ofByte_encodeHeader i'] at ho
    exact (Option.some.inj ho).symm
  refine ⟨i.opcode, encodeHeader i, (payloadOf i).getD 0#64, (payloadOf i').getD 0#64,
    (assemble_encodeHeader i).symm, ?_⟩
  rw [hop, h]
  exact (assemble_encodeHeader i').symm

/-- The context a command names stands in its header. -/
theorem namedCtx_assemble (op : Opcode) (header w w' : Word) :
    namedCtx (assemble op header w) = namedCtx (assemble op header w') := by cases op <;> rfl

/-- Commands that answer the same status raise alike (60_exceptions.md R220). -/
theorem raises_of_answersAlike {s s' : State} {i i' : Instr} (h : AnswersAlike s s' (exec i s) (exec i' s')) :
    raises i s = raises i' s' := by
  obtain ⟨t, t', ht, ht', -, hstatus⟩ := h
  simp only [raises, ht, ht', hstatus]

/-- Settles O60: the two commands are one header's with a payload each, and nothing a command decides on is data. -/
theorem timingIsDataIndependent : Obligations.TimingIsDataIndependent := by
  intro s s' i i' hs hs' hsame hheader
  obtain ⟨op, header, w, w', rfl, rfl⟩ := assemble_of_encodeHeader_eq hheader
  have halike := answersAlike_exec ⟨hs, hs', hsame⟩ op header w w'
  have hcarry : ∀ c, (ctxAt s c).view.carryLen = (ctxAt s' c).view.carryLen := fun c =>
    have ⟨_, _, _, hview⟩ := sameCtxControl_iff.mp (hsame.ctxAt c)
    hview.carryLen
  refine ⟨?_, halike⟩
  simp only [latencyOf, hsame.params, hheader, namedCtx_assemble op header w w', hcarry, raises_of_answersAlike halike]

end Sys2Proof.Machine
